-- ==== Sys2Proof/Word.lean ====
section
/-! DEFINITION. Bytes, words, register numbers, and the three readings of a word (spec R11). -/

namespace Sys2Proof

/-- A byte: 8 bits, numbered 7 down to 0 (R9). -/
abbrev Byte := BitVec 8

/-- A word: 32 bits, numbered 31 down to 0 (R9), with no type attached (R11, R25). -/
abbrev Word := BitVec 32

/-- A general register number, 0 to 31 (R20). -/
abbrev Reg := Fin 32

/-- The value of a word as an unsigned integer (R11). -/
abbrev u32 (v : Word) : Nat := v.toNat

/-- The value of a word as a two's-complement signed integer (R11). -/
abbrev s32 (v : Word) : Int := v.toInt

/-- The word congruent to an integer modulo `2^32` (R11). -/
abbrev w32 (n : Int) : Word := BitVec.ofInt 32 n

/-- `$0`, "always 0" (R21). -/
abbrev Reg.zero : Reg := 0
/-- `$v0`, the register the system calls write their result into (R24). -/
abbrev Reg.v0 : Reg := 2
/-- `$a0`, the register the system calls read their argument from (R24). -/
abbrev Reg.a0 : Reg := 4
/-- `$gp`, the globals pointer (R21). -/
abbrev Reg.gp : Reg := 28
/-- `$sp`, the stack pointer (R21). -/
abbrev Reg.sp : Reg := 29
/-- `$fp`, the frame pointer (R21). -/
abbrev Reg.fp : Reg := 30
/-- `$ra`, the return address, written by `JAL` (R24). -/
abbrev Reg.ra : Reg := 31

end Sys2Proof
end

