-- ==== Sys2Proof/Syntax.lean ====
section
/-! DEFINITION. The instructions: one constructor per row of spec/opcode_table.json, its operands the fields
the row's rule reads, in the order of the binary fields (spec R14, R91, R94). Fields shown as "-" in the manual's
tables are no operands (R98); a shift amount is a count, checked in WellFormed. -/

namespace Sys2Proof

/-- The 52 instructions of Tables 3 to 6 (R91). -/
inductive Instr where
  /-- `ADD`, integer add, R111. -/
  | add (rs rt rd : Reg)
  /-- `FADD`, floating-point add, R132. -/
  | fadd (rs rt rd : Reg)
  /-- `SUB`, integer subtract, R112. -/
  | sub (rs rt rd : Reg)
  /-- `FSUB`, floating-point subtract, R133. -/
  | fsub (rs rt rd : Reg)
  /-- `MUL`, integer multiply into `HI`, `LO`, R113. -/
  | mul (rs rt : Reg)
  /-- `FMUL`, floating-point multiply, R134. -/
  | fmul (rs rt rd : Reg)
  /-- `DIV`, integer divide into `HI`, `LO`, R114. -/
  | div (rs rt : Reg)
  /-- `FDIV`, floating-point divide, R135. -/
  | fdiv (rs rt rd : Reg)
  /-- `MFHI`, move from `HI`, R115. -/
  | mfhi (rd : Reg)
  /-- `MFLO`, move from `LO`, R116. -/
  | mflo (rd : Reg)
  /-- `AND`, bitwise and, R117. -/
  | and (rs rt rd : Reg)
  /-- `BOR`, bitwise or, R118. -/
  | bor (rs rt rd : Reg)
  /-- `NOR`, bitwise not-or, R119. -/
  | nor (rs rt rd : Reg)
  /-- `XOR`, bitwise exclusive-or, R120. -/
  | xor (rs rt rd : Reg)
  /-- `SLL`, shift left logical, R121. -/
  | sll (rt rd : Reg) (shift : Nat)
  /-- `SRL`, shift right logical, R122. -/
  | srl (rt rd : Reg) (shift : Nat)
  /-- `CVT`, convert to float, R136. -/
  | cvt (rt rd : Reg)
  /-- `RND`, round to integer, R137. -/
  | rnd (rt rd : Reg)
  /-- `JR`, jump register, R123. -/
  | jr (rs : Reg)
  /-- `EXIT`, system call 10, R207. -/
  | exit
  /-- `PSTR`, system call 4, R209. -/
  | pstr
  /-- `PINT`, system call 5, R210. -/
  | pint
  /-- `PFLT`, system call 6, R211. -/
  | pflt
  /-- `PCH`, system call 11, R212. -/
  | pch
  /-- `RCH`, system call 12, R213. -/
  | rch
  /-- `RFLT`, system call 13, R215. -/
  | rflt
  /-- `STRA`, system call 256, R216. -/
  | stra
  /-- `NOTR`, system call 257, R217. -/
  | notr
  /-- `ADDI`, add immediate, R151. -/
  | addi (rs rt : Reg) (immed : BitVec 16)
  /-- `ANDI`, bitwise and immediate, R152. -/
  | andi (rs rt : Reg) (immed : BitVec 16)
  /-- `BORI`, bitwise or immediate, R153. -/
  | bori (rs rt : Reg) (immed : BitVec 16)
  /-- `XORI`, bitwise xor immediate, R154. -/
  | xori (rs rt : Reg) (immed : BitVec 16)
  /-- `BEQ`, branch on equal, R162. -/
  | beq (rs rt : Reg) (immed : BitVec 16)
  /-- `BGEZ`, branch >= 0, R163. -/
  | bgez (rs : Reg) (immed : BitVec 16)
  /-- `BGTZ`, branch > 0, R164. -/
  | bgtz (rs : Reg) (immed : BitVec 16)
  /-- `BLEZ`, branch <= 0, R165. -/
  | blez (rs : Reg) (immed : BitVec 16)
  /-- `BLTZ`, branch < 0, R166. -/
  | bltz (rs : Reg) (immed : BitVec 16)
  /-- `BNE`, branch not equal, R167. -/
  | bne (rs rt : Reg) (immed : BitVec 16)
  /-- `BFEQ`, branch float equal, R169. -/
  | bfeq (rs rt : Reg) (immed : BitVec 16)
  /-- `BFGZ`, branch float >= 0, R170. -/
  | bfgz (rs : Reg) (immed : BitVec 16)
  /-- `BFGTZ`, branch float > 0, R171. -/
  | bfgtz (rs : Reg) (immed : BitVec 16)
  /-- `BFLEZ`, branch float <= 0, R172. -/
  | bflez (rs : Reg) (immed : BitVec 16)
  /-- `BFLTZ`, branch float < 0, R173. -/
  | bfltz (rs : Reg) (immed : BitVec 16)
  /-- `BFNE`, branch float not equal, R174. -/
  | bfne (rs rt : Reg) (immed : BitVec 16)
  /-- `LBU`, load byte unsigned, R181; `rs` is the base. -/
  | lbu (rs rt : Reg) (immed : BitVec 16)
  /-- `LW`, load word, R182; `rs` is the base. -/
  | lw (rs rt : Reg) (immed : BitVec 16)
  /-- `FLW`, load word float, R183; `rs` is the base. -/
  | flw (rs rt : Reg) (immed : BitVec 16)
  /-- `SB`, store byte, R184; `rs` is the base. -/
  | sb (rs rt : Reg) (immed : BitVec 16)
  /-- `SW`, store word, R185; `rs` is the base. -/
  | sw (rs rt : Reg) (immed : BitVec 16)
  /-- `FSW`, store word float, R186; `rs` is the base. -/
  | fsw (rs rt : Reg) (immed : BitVec 16)
  /-- `JMP`, jump, R196. -/
  | jmp (addr : BitVec 26)
  /-- `JAL`, jump and link, R197. -/
  | jal (addr : BitVec 26)
deriving DecidableEq, Repr

end Sys2Proof
end

