-- ==== Sys2Proof/Machine/Events.lean ====
section
/-! DEFINITION. The names of what the machine reports: the invariants, the errors, the load-time conditions, the
items of the output streams (spec R33, R225, R241, R275). -/

namespace Sys2Proof.Machine

/-- The eleven invariants the VM enforces, in the manual's order I1 to I11 (R33). -/
inductive Invariant where
  /-- I1: `PC % BYTES_PER_WORD = 0`. -/
  | pcAligned
  /-- I2: `GPR[$gp] % BYTES_PER_WORD = 0`. -/
  | gpAligned
  /-- I3: `GPR[$sp] % BYTES_PER_WORD = 0`. -/
  | spAligned
  /-- I4: `GPR[$fp] % BYTES_PER_WORD = 0`. -/
  | fpAligned
  /-- I5: `0 <= GPR[$gp]`. -/
  | gpNonneg
  /-- I6: `GPR[$gp] < GPR[$sp]`. -/
  | gpBelowSp
  /-- I7: `GPR[$sp] <= GPR[$fp]`. -/
  | spAtMostFp
  /-- I8: `GPR[$fp] < MEMORY_SIZE_IN_BYTES`. -/
  | fpInMemory
  /-- I9: `0 <= PC`. -/
  | pcNonneg
  /-- I10: `PC < MEMORY_SIZE_IN_BYTES`. -/
  | pcInMemory
  /-- I11: `GPR[0] = 0`, also the name of the register-0 write error (R23, R241). -/
  | zeroRegister
deriving DecidableEq, Repr

/-- What keeps a binary object file from being loaded (R275, R276). -/
inductive LoadCondition where
  /-- L1: the magic bytes are `46 42 46 00`. -/
  | magic
  /-- L2: `text_length` is divisible by 4. -/
  | textLength
  /-- L3: `data_start_address` is divisible by 4. -/
  | dataStart
  /-- L4: `stack_bottom_addr` is divisible by 4 and above `data_start_address`. -/
  | stackBottom
  /-- L5: `text_start_address` is divisible by 4 and below `data_start_address`. -/
  | textStart
  /-- L6: `stack_bottom_addr` is below the memory size. -/
  | stackInMemory
  /-- L7: the sections fit and do not overlap. -/
  | sectionsFit
  /-- L8: the file holds the header and both sections whole. -/
  | fileLength
  /-- The file named on the command line can be read (R276). -/
  | readable
deriving DecidableEq, Repr

/-- The errors that halt the machine, each with the information R241 records for the model's diagnostics. -/
inductive MachineError where
  /-- A zero divisor of `DIV`, or of `FDIV` under `FDIV_BY_ZERO = fault`; the instruction's address (R242). -/
  | divideByZero (addr : Word)
  /-- An invariant is false at an instruction boundary, or a non-zero value is written to register 0 (R243, R23). -/
  | invariantViolation (which : Invariant)
  /-- The fetched word matches no row of the opcode table; the word and its address (R244). -/
  | illegalInstruction (word addr : Word)
  /-- An access touches a byte address above 65531; the address and the width in bytes (R245). -/
  | addressOutOfRange (addr : Word) (width : Nat)
  /-- A word access at an address not divisible by 4 (R245). -/
  | misalignedAccess (addr : Word)
  /-- Signed overflow, where a parameter makes it an error; the instruction's address (R250). -/
  | integerOverflow (addr : Word)
  /-- The operand of `RND` has no 32-bit integer; the instruction's address (R250, R137). -/
  | floatToIntRange (addr : Word)
  /-- The binary object file cannot be loaded (R276). -/
  | loadError (which : LoadCondition)
deriving DecidableEq, Repr

/-- What one state block of the tracing output shows (R222, R223), as data: its text is not in the spec (N20). -/
structure StateBlock where
  /-- The line `PC: <decimal>`. -/
  pc : Word
  /-- `HI`, shown only if it is not zero, whatever `LO` is: DESIGN CHOICE [20]. -/
  hi : Option Word
  /-- `LO`, shown only if it is not zero, whatever `HI` is: DESIGN CHOICE [20]. -/
  lo : Option Word
  /-- The 32 general registers in numeric order. -/
  regs : Vector Word 32
  /-- The non-zero bytes of the data section, which starts at `GPR[$gp]`, zeros being only indicated; nothing at all for
  an empty section (C10). -/
  data : Option (List Host.Cell)
  /-- The non-zero bytes from `GPR[$sp]` through the word at the stack bottom, zeros being only indicated. -/
  stack : List Host.Cell
  /-- The address of the stack-bottom word and the word itself, shown even when it is zero (C10). -/
  bottom : Nat × Word
deriving DecidableEq, Repr

/-- One item of the tracing output (R224). -/
inductive TraceItem where
  /-- The line `==> addr: <address> <assembly form>`. -/
  | instruction (addr : Word) (i : Instr)
  /-- A state block. -/
  | block (b : StateBlock)
deriving DecidableEq, Repr

/-- A word of the text section as the `-p` listing has it (R96, R226). -/
structure ListedWord where
  /-- Its byte address. -/
  addr : Nat
  /-- The word. -/
  word : Word
  /-- The instruction it decodes to; none for a word that matches no row of the opcode table, which is listed and ends
  nothing: DESIGN CHOICE [39], R96 and R226 are silent. -/
  instr : Option Instr
deriving DecidableEq, Repr

/-- One item of the physical `stdout`, which interleaves the program's bytes and the trace (R222, R225). -/
inductive OutItem where
  /-- A byte written by `PSTR`, `PINT`, `PFLT` or `PCH`. -/
  | program (b : Byte)
  /-- An item of the tracing output. -/
  | trace (t : TraceItem)
  /-- The listing of the `-p` mode (R226, R96): the words of the text section, and the data section, by its start, how
  many of its bytes are int data, and its bytes. -/
  | listing (text : List ListedWord) (dataStart : Word) (intsLength : Nat) (data : List Byte)
deriving DecidableEq, Repr

end Sys2Proof.Machine
end

