-- ==== Sys2Proof/Config.lean ====
section
/-! DEFINITION. What the manual fixes (spec R7), the values each open parameter may take (R8), and the free values,
which nothing in Lean can evaluate. The parameters themselves, arguments of the model, and their defaults stand in
Machine/Params.lean. -/

namespace Sys2Proof.Config

/-- `BYTES_PER_WORD` (R7). -/
def bytesPerWord : Nat := 4

/-- `MEMORY_SIZE_IN_BYTES`, `65536 - BYTES_PER_WORD` (R7, R50). -/
def memorySize : Nat := 65532

/-- `INVARIANT_CHECK`: when the invariants are checked (R8, R28, R243). -/
inductive InvariantCheck where
  /-- On the initial state and after the execute step of every instruction. -/
  | atBoundaries
deriving DecidableEq, Repr

/-- `ILLEGAL_ENCODING`: a word that matches no row of the opcode table (R8, R90, R97). -/
inductive IllegalEncoding where
  /-- It is an `IllegalInstruction`. -/
  | fault
deriving DecidableEq, Repr

/-- `OUT_OF_RANGE_ACCESS`: a data access at an address above 65531 (R8, R55). -/
inductive OutOfRange where
  /-- It is an `AddressOutOfRange`. -/
  | fault
deriving DecidableEq, Repr

/-- `FIELD_ORDER`: which end of a word the first field of Table 2 stands at (R8, R85). -/
inductive FieldOrder where
  /-- `op` in bits 31:26. -/
  | msbFirst
  /-- `op` in bits 5:0. -/
  | lsbFirst
deriving DecidableEq, Repr

/-- `R0_WRITE`: what a non-zero write to register 0 does (R8, R23). -/
inductive R0Write where
  /-- It is an `InvariantViolation`. -/
  | faultIfNonzero
  /-- It has no effect. -/
  | discard
deriving DecidableEq, Repr

/-- `MISALIGNED_WORD_ACCESS`: a word access off a word boundary (R8, R55). -/
inductive MisalignedWord where
  /-- It is a `MisalignedAccess`. -/
  | fault
  /-- It accesses the four bytes at the address. -/
  | splitLittleEndian
deriving DecidableEq, Repr

/-- `INT_OVERFLOW` and `DIV_OVERFLOW`: a result outside the signed 32-bit range (R8, R110, R114). -/
inductive Overflow where
  /-- The result is taken modulo `2^32`. -/
  | wrap
  /-- It is an `IntegerOverflow`. -/
  | fault
deriving DecidableEq, Repr

/-- `FDIV_BY_ZERO`: a floating-point division by zero (R8, R135). -/
inductive FdivByZero where
  /-- It is a `DivideByZero`. -/
  | fault
  /-- It gives the result of the numerics, an infinity or a NaN. -/
  | ieee
deriving DecidableEq, Repr

/-- `RND_MODE`: where a value halfway between two integers is rounded to (R8, R137). -/
inductive RndMode where
  /-- To the one of larger magnitude. -/
  | halfAwayFromZero
  /-- To the even one. -/
  | halfToEven
deriving DecidableEq, Repr

/-- `RND_OUT_OF_RANGE`: an operand of `RND` with no 32-bit integer (R8, R137). -/
inductive RndOutOfRange where
  /-- It is a `FloatToIntRange`. -/
  | fault
  /-- The result is a draw. -/
  | anyValue
deriving DecidableEq, Repr

/-- FREE VALUE [13, 19]: the word of draw number `n` (R16 "draw"): the source of a NaN's pattern (R140) and of
the value a failed `RFLT` (R215) or an `RND` out of range (R137) leaves. -/
opaque freeWord : Nat → Word

/-- FREE VALUE [23]: at draw number `n`, how many bytes of an unterminated string `PSTR` had written (R209, D28). -/
opaque freeLength : Nat → Nat

/-- FREE VALUE [25]: whether `PFLT` prints a given NaN as `-nan` rather than `nan`, "which of the two being
implementation-defined" (R211). -/
opaque nanPrintsMinus : Word → Bool

/-- FREE VALUE [25]: whether `PFLT` rounds a datum that lies exactly between two six-decimal numbers away from zero
(R211 says only "rounded to six decimals"). -/
opaque printTieRoundsUp : Word → Bool

/-- FREE VALUE [20]: whether a state block is traced after an instruction that raised an error (N20). -/
opaque traceBlockAfterError : Bool

/-- FREE VALUE [20]: the text of a trace item, which no claim is about (R225, D21). -/
opaque traceText : Machine.TraceItem → List Byte

/-- FREE VALUE [39]: the text of the data section in the `-p` listing, which "is not shown" (R226): of the section's
start address, of how many of its bytes are int data, and of its bytes. -/
opaque listingData : Word → Nat → List Byte → List Byte

/-- FREE VALUE [39]: the line of the `-p` listing for a word that matches no row of the opcode table, at its address
(R96 and R226 are silent). -/
opaque listingOfNoInstruction : Nat → Word → List Byte

/-- FREE VALUE [21]: the text of an error message, which the spec leaves unspecified (R246, D22). -/
opaque errorMessage : Machine.MachineError → List Byte

end Sys2Proof.Config
end

