-- ==== Sys2Proof/Machine/ByteOrder.lean ====
section
/-! DEFINITION. The order of a word's bytes (spec R52), decided here once for data words, instruction fetch and
the words of a binary object file. -/

namespace Sys2Proof.Machine

/-- The word whose bytes are `b0` (least significant, lowest address) to `b3` (R52). PRESUMED [33]: that
"little-endian" means this is the spec's general knowledge. -/
def wordOfBytes (b0 b1 b2 b3 : Byte) : Word :=
  b3 ++ b2 ++ b1 ++ b0

/-- Byte `k` of a word, bits `8k+7 : 8k`, the one stored at address `a + k` (R52, R53). -/
def byteOfWord (k : Nat) (v : Word) : Byte :=
  v.extractLsb' (8 * k) 8

/-- The four bytes of a word in address order (R52). -/
def bytesOfWord (v : Word) : List Byte :=
  [byteOfWord 0 v, byteOfWord 1 v, byteOfWord 2 v, byteOfWord 3 v]

/-- A little-endian word at the head of the bytes, and the bytes after it. -/
def takeWord (bs : List Byte) : Option (Word × List Byte) :=
  match bs with
  | b0 :: b1 :: b2 :: b3 :: rest => some (wordOfBytes b0 b1 b2 b3, rest)
  | _ => none

end Sys2Proof.Machine
end

