-- ==== Sys2Proof/WellFormed.lean ====
section
/-! DEFINITION. Which instruction terms an encoding can hold (spec R81: `shift` is a shift amount, 0 to 31).
Every other operand's type already is its field (R81 to R84), so the shift amount is the one check. -/

namespace Sys2Proof

/-- The instruction's shift amount fits the 5-bit `shift` field (R81, R121, R122). -/
def Instr.WellFormed (i : Instr) : Bool :=
  match i with
  | .sll _ _ h => decide (h < 32)
  | .srl _ _ h => decide (h < 32)
  | .add .. | .fadd .. | .sub .. | .fsub .. | .mul .. | .fmul .. | .div .. | .fdiv .. | .mfhi .. | .mflo ..
  | .and .. | .bor .. | .nor .. | .xor .. | .cvt .. | .rnd .. | .jr ..
  | .exit | .pstr | .pint | .pflt | .pch | .rch | .rflt | .stra | .notr
  | .addi .. | .andi .. | .bori .. | .xori ..
  | .beq .. | .bgez .. | .bgtz .. | .blez .. | .bltz .. | .bne ..
  | .bfeq .. | .bfgz .. | .bfgtz .. | .bflez .. | .bfltz .. | .bfne ..
  | .lbu .. | .lw .. | .flw .. | .sb .. | .sw .. | .fsw .. | .jmp .. | .jal .. => true

end Sys2Proof
end

