-- ==== Sys2Proof/Decode.lean ====
section
/-! DEFINITION. From bits to instructions and back: the fields of a word (spec R81 to R85), the decoder (R90, R91,
R97, R98), the encoder of the same tables, and the decoder as the opcode table's words reach it. -/

namespace Sys2Proof

open Sys2Proof.Config (FieldOrder)

/-- `FIELD_ORDER` (R8, R85): the spec's default, decision D1. DESIGN CHOICE [1]. -/
def fieldOrder : FieldOrder := .msbFirst

/-- Why a word is no instruction (R90, R97); each is `IllegalInstruction` to the machine (R244). -/
inductive DecodeError where
  /-- Fewer than four bytes were given: no word to decode. -/
  | truncated
  /-- `op` is not in Tables 3 to 5. -/
  | unknownOp (op : BitVec 6)
  /-- `op` is 0 and `func` is not in Table 3. -/
  | unknownFunc (func : BitVec 6)
  /-- `op` is 0, `func` is 12 and `code` is not in Table 6. -/
  | unknownService (code : BitVec 20)
  /-- A field that Table 3 or 4 shows as a constant has another value. -/
  | badConstant (op func : BitVec 6)
deriving DecidableEq, Repr

/-- The fields of an instruction word, of every format at once (R81 to R84). -/
structure Fields where
  /-- The opcode. -/
  op : BitVec 6
  /-- The first register field. -/
  rs : Reg
  /-- The second register field. -/
  rt : Reg
  /-- The third register field. -/
  rd : Reg
  /-- The shift amount. -/
  shift : Nat
  /-- The function code. -/
  func : BitVec 6
  /-- The system-call code. -/
  code : BitVec 20
  /-- The immediate operand. -/
  immed : BitVec 16
  /-- The jump address. -/
  addr : BitVec 26
deriving DecidableEq, Repr

/-- The bits `lo + n - 1 : lo` of a word. -/
def bitField (lo n : Nat) (w : Word) : BitVec n :=
  w.extractLsb' lo n

/-- The register number in the five bits from `lo` up. -/
def regField (lo : Nat) (w : Word) : Reg :=
  (bitField lo 5 w).toFin

/-- The fields of a word, at the bits of R81 to R84 or at those of R85's alternative. -/
def fieldsOf (order : FieldOrder) (w : Word) : Fields :=
  match order with
  | .msbFirst =>
    { op := bitField 26 6 w, rs := regField 21 w, rt := regField 16 w, rd := regField 11 w,
      shift := (bitField 6 5 w).toNat, func := bitField 0 6 w, code := bitField 6 20 w,
      immed := bitField 0 16 w, addr := bitField 0 26 w }
  | .lsbFirst =>
    { op := bitField 0 6 w, rs := regField 6 w, rt := regField 11 w, rd := regField 16 w,
      shift := (bitField 21 5 w).toNat, func := bitField 26 6 w, code := bitField 6 20 w,
      immed := bitField 16 16 w, addr := bitField 6 26 w }

/-- Table 6: the system call a `code` selects (R91, R206, R218). -/
def decodeService (f : Fields) : Except DecodeError Instr :=
  match f.code.toNat with
  | 4 => .ok .pstr
  | 5 => .ok .pint
  | 6 => .ok .pflt
  | 10 => .ok .exit
  | 11 => .ok .pch
  | 12 => .ok .rch
  | 13 => .ok .rflt
  | 256 => .ok .stra
  | 257 => .ok .notr
  | _ => .error (.unknownService f.code)

/-- An instruction one of whose fields the manual's table shows as a constant, provided it has it (R90). -/
def requireConstant (holds : Bool) (i : Instr) (f : Fields) : Except DecodeError Instr :=
  if holds then .ok i else .error (.badConstant f.op f.func)

/-- Table 3: the instruction a `func` selects when `op` is 0 (R91). -/
def decodeRegister (f : Fields) : Except DecodeError Instr :=
  match f.func.toNat with
  | 0 => .ok (.sll f.rt f.rd f.shift)
  | 3 => .ok (.srl f.rt f.rd f.shift)
  | 4 => .ok (.cvt f.rt f.rd)
  | 5 => .ok (.rnd f.rt f.rd)
  | 8 => requireConstant (f.rt == 0 && f.rd == 0 && f.shift == 0) (.jr f.rs) f
  | 12 => decodeService f
  | 16 => .ok (.mfhi f.rd)
  | 18 => .ok (.mflo f.rd)
  | 25 => .ok (.mul f.rs f.rt)
  | 27 => .ok (.div f.rs f.rt)
  | 33 => .ok (.add f.rs f.rt f.rd)
  | 35 => .ok (.sub f.rs f.rt f.rd)
  | 36 => .ok (.and f.rs f.rt f.rd)
  | 37 => .ok (.bor f.rs f.rt f.rd)
  | 38 => .ok (.xor f.rs f.rt f.rd)
  | 39 => .ok (.nor f.rs f.rt f.rd)
  | 41 => .ok (.fmul f.rs f.rt f.rd)
  | 43 => .ok (.fdiv f.rs f.rt f.rd)
  | 49 => .ok (.fadd f.rs f.rt f.rd)
  | 51 => .ok (.fsub f.rs f.rt f.rd)
  | _ => .error (.unknownFunc f.func)

/-- The instruction the fields of a word select (R90, R91); fields shown as "-" are not examined (R98). -/
def decodeFields (f : Fields) : Except DecodeError Instr :=
  match f.op.toNat with
  | 0 => decodeRegister f
  | 1 => requireConstant (f.rt == 1) (.bgez f.rs f.immed) f
  | 2 => .ok (.jmp f.addr)
  | 3 => .ok (.jal f.addr)
  | 4 => .ok (.beq f.rs f.rt f.immed)
  | 5 => .ok (.bne f.rs f.rt f.immed)
  | 6 => requireConstant (f.rt == 0) (.blez f.rs f.immed) f
  | 7 => requireConstant (f.rt == 0) (.bgtz f.rs f.immed) f
  | 8 => requireConstant (f.rt == 0) (.bltz f.rs f.immed) f
  | 9 => .ok (.addi f.rs f.rt f.immed)
  | 12 => .ok (.andi f.rs f.rt f.immed)
  | 13 => .ok (.bori f.rs f.rt f.immed)
  | 14 => .ok (.xori f.rs f.rt f.immed)
  | 17 => requireConstant (f.rt == 1) (.bfgz f.rs f.immed) f
  | 20 => .ok (.bfeq f.rs f.rt f.immed)
  | 21 => .ok (.bfne f.rs f.rt f.immed)
  | 22 => requireConstant (f.rt == 0) (.bflez f.rs f.immed) f
  | 23 => requireConstant (f.rt == 0) (.bfgtz f.rs f.immed) f
  | 24 => requireConstant (f.rt == 0) (.bfltz f.rs f.immed) f
  | 35 => .ok (.lw f.rs f.rt f.immed)
  | 36 => .ok (.lbu f.rs f.rt f.immed)
  | 40 => .ok (.sb f.rs f.rt f.immed)
  | 41 => .ok (.flw f.rs f.rt f.immed)
  | 42 => .ok (.fsw f.rs f.rt f.immed)
  | 43 => .ok (.sw f.rs f.rt f.immed)
  | _ => .error (.unknownOp f.op)

/-- `decode(IR)` of R90 under a field order: total, every word selecting one row or being refused by name. -/
def decodeWith (order : FieldOrder) (w : Word) : Except DecodeError Instr :=
  decodeFields (fieldsOf order w)

/-- `decode(IR)` of R90 at the default `FIELD_ORDER`. -/
def decode (w : Word) : Except DecodeError Instr :=
  decodeWith fieldOrder w

/-- Decoding from bytes in address order: the little-endian word of the first four (R52, R80). -/
def decodeBytes (bs : List Byte) : Except DecodeError Instr :=
  match bs with
  | b0 :: b1 :: b2 :: b3 :: _ => decode (Machine.wordOfBytes b0 b1 b2 b3)
  | _ => .error .truncated

/-- A word of the register format (R81). -/
def registerWord (order : FieldOrder) (rs rt rd : Reg) (shift : Nat) (func : BitVec 6) : Word :=
  let s : BitVec 5 := BitVec.ofFin rs
  let t : BitVec 5 := BitVec.ofFin rt
  let d : BitVec 5 := BitVec.ofFin rd
  let h : BitVec 5 := BitVec.ofNat 5 shift
  match order with
  | .msbFirst => 0#6 ++ s ++ t ++ d ++ h ++ func
  | .lsbFirst => func ++ h ++ d ++ t ++ s ++ 0#6

/-- A word of the system-call format (R82). -/
def serviceWord (order : FieldOrder) (code : BitVec 20) : Word :=
  match order with
  | .msbFirst => 0#6 ++ code ++ 12#6
  | .lsbFirst => 12#6 ++ code ++ 0#6

/-- A word of the immediate format (R83). -/
def immediateWord (order : FieldOrder) (op : BitVec 6) (rs rt : Reg) (immed : BitVec 16) : Word :=
  let s : BitVec 5 := BitVec.ofFin rs
  let t : BitVec 5 := BitVec.ofFin rt
  match order with
  | .msbFirst => op ++ s ++ t ++ immed
  | .lsbFirst => immed ++ t ++ s ++ op

/-- A word of the jump format (R84). -/
def jumpWord (order : FieldOrder) (op : BitVec 6) (addr : BitVec 26) : Word :=
  match order with
  | .msbFirst => op ++ addr
  | .lsbFirst => addr ++ op

/-- The word of an instruction under a field order (R91): 0 in an ignored field (R98), the table's constant in a
constant one (R90). -/
def encodeWith (order : FieldOrder) (i : Instr) : Word :=
  match i with
  | .add rs rt rd => registerWord order rs rt rd 0 33
  | .fadd rs rt rd => registerWord order rs rt rd 0 49
  | .sub rs rt rd => registerWord order rs rt rd 0 35
  | .fsub rs rt rd => registerWord order rs rt rd 0 51
  | .mul rs rt => registerWord order rs rt 0 0 25
  | .fmul rs rt rd => registerWord order rs rt rd 0 41
  | .div rs rt => registerWord order rs rt 0 0 27
  | .fdiv rs rt rd => registerWord order rs rt rd 0 43
  | .mfhi rd => registerWord order 0 0 rd 0 16
  | .mflo rd => registerWord order 0 0 rd 0 18
  | .and rs rt rd => registerWord order rs rt rd 0 36
  | .bor rs rt rd => registerWord order rs rt rd 0 37
  | .nor rs rt rd => registerWord order rs rt rd 0 39
  | .xor rs rt rd => registerWord order rs rt rd 0 38
  | .sll rt rd shift => registerWord order 0 rt rd shift 0
  | .srl rt rd shift => registerWord order 0 rt rd shift 3
  | .cvt rt rd => registerWord order 0 rt rd 0 4
  | .rnd rt rd => registerWord order 0 rt rd 0 5
  | .jr rs => registerWord order rs 0 0 0 8
  | .exit => serviceWord order 10
  | .pstr => serviceWord order 4
  | .pint => serviceWord order 5
  | .pflt => serviceWord order 6
  | .pch => serviceWord order 11
  | .rch => serviceWord order 12
  | .rflt => serviceWord order 13
  | .stra => serviceWord order 256
  | .notr => serviceWord order 257
  | .addi rs rt immed => immediateWord order 9 rs rt immed
  | .andi rs rt immed => immediateWord order 12 rs rt immed
  | .bori rs rt immed => immediateWord order 13 rs rt immed
  | .xori rs rt immed => immediateWord order 14 rs rt immed
  | .beq rs rt immed => immediateWord order 4 rs rt immed
  | .bgez rs immed => immediateWord order 1 rs 1 immed
  | .bgtz rs immed => immediateWord order 7 rs 0 immed
  | .blez rs immed => immediateWord order 6 rs 0 immed
  | .bltz rs immed => immediateWord order 8 rs 0 immed
  | .bne rs rt immed => immediateWord order 5 rs rt immed
  | .bfeq rs rt immed => immediateWord order 20 rs rt immed
  | .bfgz rs immed => immediateWord order 17 rs 1 immed
  | .bfgtz rs immed => immediateWord order 23 rs 0 immed
  | .bflez rs immed => immediateWord order 22 rs 0 immed
  | .bfltz rs immed => immediateWord order 24 rs 0 immed
  | .bfne rs rt immed => immediateWord order 21 rs rt immed
  | .lbu rs rt immed => immediateWord order 36 rs rt immed
  | .lw rs rt immed => immediateWord order 35 rs rt immed
  | .flw rs rt immed => immediateWord order 41 rs rt immed
  | .sb rs rt immed => immediateWord order 40 rs rt immed
  | .sw rs rt immed => immediateWord order 43 rs rt immed
  | .fsw rs rt immed => immediateWord order 42 rs rt immed
  | .jmp addr => jumpWord order 2 addr
  | .jal addr => jumpWord order 3 addr

/-- The word of an instruction (R91). -/
def encode (i : Instr) : Word :=
  encodeWith fieldOrder i

/-- The instruction the decoder reads from an opcode-table word: bit 0 of `w` is the least significant bit, the bits
above `nbits` are 0, and the word's bytes are laid out in address order. -/
def decodeTableWord (nbits w : Nat) : Option Instr :=
  match decodeBytes (Machine.bytesOfWord (BitVec.ofNat 32 (w % 2 ^ nbits))) with
  | .ok i => some i
  | .error _ => none

/-- The mnemonic of an instruction, as the opcode table spells it (R91, R96). -/
def Instr.mnemonic (i : Instr) : String :=
  match i with
  | .add .. => "ADD"
  | .fadd .. => "FADD"
  | .sub .. => "SUB"
  | .fsub .. => "FSUB"
  | .mul .. => "MUL"
  | .fmul .. => "FMUL"
  | .div .. => "DIV"
  | .fdiv .. => "FDIV"
  | .mfhi .. => "MFHI"
  | .mflo .. => "MFLO"
  | .and .. => "AND"
  | .bor .. => "BOR"
  | .nor .. => "NOR"
  | .xor .. => "XOR"
  | .sll .. => "SLL"
  | .srl .. => "SRL"
  | .cvt .. => "CVT"
  | .rnd .. => "RND"
  | .jr .. => "JR"
  | .exit => "EXIT"
  | .pstr => "PSTR"
  | .pint => "PINT"
  | .pflt => "PFLT"
  | .pch => "PCH"
  | .rch => "RCH"
  | .rflt => "RFLT"
  | .stra => "STRA"
  | .notr => "NOTR"
  | .addi .. => "ADDI"
  | .andi .. => "ANDI"
  | .bori .. => "BORI"
  | .xori .. => "XORI"
  | .beq .. => "BEQ"
  | .bgez .. => "BGEZ"
  | .bgtz .. => "BGTZ"
  | .blez .. => "BLEZ"
  | .bltz .. => "BLTZ"
  | .bne .. => "BNE"
  | .bfeq .. => "BFEQ"
  | .bfgz .. => "BFGZ"
  | .bfgtz .. => "BFGTZ"
  | .bflez .. => "BFLEZ"
  | .bfltz .. => "BFLTZ"
  | .bfne .. => "BFNE"
  | .lbu .. => "LBU"
  | .lw .. => "LW"
  | .flw .. => "FLW"
  | .sb .. => "SB"
  | .sw .. => "SW"
  | .fsw .. => "FSW"
  | .jmp .. => "JMP"
  | .jal .. => "JAL"

/-- A row of spec/opcode_table.json: a word `w` selects it when `w AND mask = pattern` (R91). -/
structure OpcodeRow where
  /-- The row's mnemonic. -/
  mnemonic : String
  /-- The bits that select the row (`mask`). -/
  mask : Word
  /-- Their values (`match`). -/
  pattern : Word
deriving DecidableEq, Repr

/-- A word selects a row (R91). -/
def OpcodeRow.selectedBy (r : OpcodeRow) (w : Word) : Bool := w &&& r.mask == r.pattern

/-- The rows of the register format (Table 3). -/
def registerRows : List OpcodeRow :=
  [⟨"ADD", 0xFC00003F, 0x00000021⟩, ⟨"FADD", 0xFC00003F, 0x00000031⟩, ⟨"SUB", 0xFC00003F, 0x00000023⟩,
   ⟨"FSUB", 0xFC00003F, 0x00000033⟩, ⟨"MUL", 0xFC00003F, 0x00000019⟩, ⟨"FMUL", 0xFC00003F, 0x00000029⟩,
   ⟨"DIV", 0xFC00003F, 0x0000001B⟩, ⟨"FDIV", 0xFC00003F, 0x0000002B⟩, ⟨"MFHI", 0xFC00003F, 0x00000010⟩,
   ⟨"MFLO", 0xFC00003F, 0x00000012⟩, ⟨"AND", 0xFC00003F, 0x00000024⟩, ⟨"BOR", 0xFC00003F, 0x00000025⟩,
   ⟨"NOR", 0xFC00003F, 0x00000027⟩, ⟨"XOR", 0xFC00003F, 0x00000026⟩, ⟨"SLL", 0xFC00003F, 0x00000000⟩,
   ⟨"SRL", 0xFC00003F, 0x00000003⟩, ⟨"CVT", 0xFC00003F, 0x00000004⟩, ⟨"RND", 0xFC00003F, 0x00000005⟩,
   ⟨"JR", 0xFC1FFFFF, 0x00000008⟩]

/-- The rows of the system-call format (Table 6). -/
def serviceRows : List OpcodeRow :=
  [⟨"EXIT", 0xFFFFFFFF, 0x0000028C⟩, ⟨"PSTR", 0xFFFFFFFF, 0x0000010C⟩, ⟨"PINT", 0xFFFFFFFF, 0x0000014C⟩,
   ⟨"PFLT", 0xFFFFFFFF, 0x0000018C⟩, ⟨"PCH", 0xFFFFFFFF, 0x000002CC⟩, ⟨"RCH", 0xFFFFFFFF, 0x0000030C⟩,
   ⟨"RFLT", 0xFFFFFFFF, 0x0000034C⟩, ⟨"STRA", 0xFFFFFFFF, 0x0000400C⟩, ⟨"NOTR", 0xFFFFFFFF, 0x0000404C⟩]

/-- The rows of the immediate format (Table 4). -/
def immediateRows : List OpcodeRow :=
  [⟨"ADDI", 0xFC000000, 0x24000000⟩, ⟨"ANDI", 0xFC000000, 0x30000000⟩, ⟨"BORI", 0xFC000000, 0x34000000⟩,
   ⟨"XORI", 0xFC000000, 0x38000000⟩, ⟨"BEQ", 0xFC000000, 0x10000000⟩, ⟨"BGEZ", 0xFC1F0000, 0x04010000⟩,
   ⟨"BGTZ", 0xFC1F0000, 0x1C000000⟩, ⟨"BLEZ", 0xFC1F0000, 0x18000000⟩, ⟨"BLTZ", 0xFC1F0000, 0x20000000⟩,
   ⟨"BNE", 0xFC000000, 0x14000000⟩, ⟨"BFEQ", 0xFC000000, 0x50000000⟩, ⟨"BFGZ", 0xFC1F0000, 0x44010000⟩,
   ⟨"BFGTZ", 0xFC1F0000, 0x5C000000⟩, ⟨"BFLEZ", 0xFC1F0000, 0x58000000⟩, ⟨"BFLTZ", 0xFC1F0000, 0x60000000⟩,
   ⟨"BFNE", 0xFC000000, 0x54000000⟩, ⟨"LBU", 0xFC000000, 0x90000000⟩, ⟨"LW", 0xFC000000, 0x8C000000⟩,
   ⟨"FLW", 0xFC000000, 0xA4000000⟩, ⟨"SB", 0xFC000000, 0xA0000000⟩, ⟨"SW", 0xFC000000, 0xAC000000⟩,
   ⟨"FSW", 0xFC000000, 0xA8000000⟩]

/-- The rows of the jump format (Table 5). -/
def jumpRows : List OpcodeRow :=
  [⟨"JMP", 0xFC000000, 0x08000000⟩, ⟨"JAL", 0xFC000000, 0x0C000000⟩]

/-- The 52 rows of spec/opcode_table.json, computed for `FIELD_ORDER = msb_first` (R91). -/
def opcodeRows : List OpcodeRow := registerRows ++ serviceRows ++ immediateRows ++ jumpRows

end Sys2Proof
end

