-- ==== Sys2Proof/Machine/Assembly.lean ====
section
/-! DEFINITION. The assembly form of an instruction (spec R93 to R96), which the tracing output and the `-p` listing
show: the mnemonic and the operands in the order of the binary fields (R94) [38]. -/

namespace Sys2Proof.Machine

/-- The register names of Table 1 and Figure 4, in numeric order (R21). -/
def registerNames : List String :=
  ["0", "at", "v0", "v1", "a0", "a1", "a2", "a3", "t0", "t1", "t2", "t3", "t4", "t5", "t6", "t7",
   "s0", "s1", "s2", "s3", "s4", "s5", "s6", "s7", "t8", "t9", "k0", "k1", "gp", "sp", "fp", "ra"]

/-- A register operand: `$` and the register's name (R93). -/
def asmReg (r : Reg) : String := "$" ++ registerNames.getD r.val ""

/-- A number operand, in decimal (R10). -/
def asmNat (n : Nat) : String := toString n

/-- A signed number operand, in decimal: an offset in words, or `ADDI`'s immediate (R94). -/
def asmSigned (i : BitVec 16) : String := toString i.toInt

/-- The operands in listing form (R94); a system call has none (R95). -/
def asmOperands (i : Instr) : List String :=
  match i with
  | .add rs rt rd => [asmReg rs, asmReg rt, asmReg rd]
  | .fadd rs rt rd => [asmReg rs, asmReg rt, asmReg rd]
  | .sub rs rt rd => [asmReg rs, asmReg rt, asmReg rd]
  | .fsub rs rt rd => [asmReg rs, asmReg rt, asmReg rd]
  | .mul rs rt => [asmReg rs, asmReg rt]
  | .fmul rs rt rd => [asmReg rs, asmReg rt, asmReg rd]
  | .div rs rt => [asmReg rs, asmReg rt]
  | .fdiv rs rt rd => [asmReg rs, asmReg rt, asmReg rd]
  | .mfhi rd => [asmReg rd]
  | .mflo rd => [asmReg rd]
  | .and rs rt rd => [asmReg rs, asmReg rt, asmReg rd]
  | .bor rs rt rd => [asmReg rs, asmReg rt, asmReg rd]
  | .nor rs rt rd => [asmReg rs, asmReg rt, asmReg rd]
  | .xor rs rt rd => [asmReg rs, asmReg rt, asmReg rd]
  | .sll rt rd shift => [asmReg rt, asmReg rd, asmNat shift]
  | .srl rt rd shift => [asmReg rt, asmReg rd, asmNat shift]
  | .cvt rt rd => [asmReg rt, asmReg rd]
  | .rnd rt rd => [asmReg rt, asmReg rd]
  | .jr rs => [asmReg rs]
  | .exit => []
  | .pstr => []
  | .pint => []
  | .pflt => []
  | .pch => []
  | .rch => []
  | .rflt => []
  | .stra => []
  | .notr => []
  | .addi rs rt immed => [asmReg rs, asmReg rt, asmSigned immed]
  | .andi rs rt immed => [asmReg rs, asmReg rt, asmNat immed.toNat]
  | .bori rs rt immed => [asmReg rs, asmReg rt, asmNat immed.toNat]
  | .xori rs rt immed => [asmReg rs, asmReg rt, asmNat immed.toNat]
  | .beq rs rt immed => [asmReg rs, asmReg rt, asmSigned immed]
  | .bgez rs immed => [asmReg rs, asmSigned immed]
  | .bgtz rs immed => [asmReg rs, asmSigned immed]
  | .blez rs immed => [asmReg rs, asmSigned immed]
  | .bltz rs immed => [asmReg rs, asmSigned immed]
  | .bne rs rt immed => [asmReg rs, asmReg rt, asmSigned immed]
  | .bfeq rs rt immed => [asmReg rs, asmReg rt, asmSigned immed]
  | .bfgz rs immed => [asmReg rs, asmSigned immed]
  | .bfgtz rs immed => [asmReg rs, asmSigned immed]
  | .bflez rs immed => [asmReg rs, asmSigned immed]
  | .bfltz rs immed => [asmReg rs, asmSigned immed]
  | .bfne rs rt immed => [asmReg rs, asmReg rt, asmSigned immed]
  | .lbu rs rt immed => [asmReg rs, asmReg rt, asmSigned immed]
  | .lw rs rt immed => [asmReg rs, asmReg rt, asmSigned immed]
  | .flw rs rt immed => [asmReg rs, asmReg rt, asmSigned immed]
  | .sb rs rt immed => [asmReg rs, asmReg rt, asmSigned immed]
  | .sw rs rt immed => [asmReg rs, asmReg rt, asmSigned immed]
  | .fsw rs rt immed => [asmReg rs, asmReg rt, asmSigned immed]
  | .jmp addr => [asmNat addr.toNat]
  | .jal addr => [asmNat addr.toNat]

/-- The assembly form of an instruction (R94, R95, R96). -/
def assembly (i : Instr) : String :=
  match asmOperands i with
  | [] => i.mnemonic
  | ops => i.mnemonic ++ " " ++ String.intercalate ", " ops

/-- The header line of the `-p` listing (R96, Figure 5). -/
def listingHeader : String := "Addr  Instruction"

/-- A line of the `-p` listing: the byte address in decimal and the assembly form (R96, Figure 5). -/
def listingLine (addr : Nat) (i : Instr) : String :=
  asmNat addr ++ "  " ++ assembly i

/-- The bytes of a line of text and the newline that ends it. -/
def asmLine (line : String) : List Byte :=
  (line.toList.map fun c => BitVec.ofNat 8 c.toNat) ++ [0x0A]

/-- The line traced before an instruction (R223, Figure 4). -/
def traceLine (addr : Word) (i : Instr) : String :=
  "==> addr: " ++ asmNat addr.toNat ++ " " ++ assembly i

end Sys2Proof.Machine
end

