-- ==== Sys2Proof/Machine/Flags.lean ====
section
/-! DEFINITION. The overflow conditions. The machine has no flags (spec R30); these tests decide only whether a
parameter makes an operation an error (R110, R114). -/

namespace Sys2Proof.Machine

/-- An exact integer result has no 32-bit signed representation (R110). -/
def outOfSigned32 (n : Int) : Bool :=
  decide (n < -2147483648 ∨ 2147483647 < n)

/-- `overflow_add(a, b)` (R110). -/
def overflowAdd (a b : Word) : Bool := outOfSigned32 (s32 a + s32 b)

/-- `overflow_sub(a, b)` (R110). -/
def overflowSub (a b : Word) : Bool := outOfSigned32 (s32 a - s32 b)

/-- `n = -2^31 and m = -1`, the one quotient out of range (R114). -/
def overflowDiv (a b : Word) : Bool := decide (s32 a = -2147483648 ∧ s32 b = -1)

end Sys2Proof.Machine
end

