-- ==== Sys2Proof/Machine/Operands.lean ====
section
/-! DEFINITION. The operand forms (spec R86 to R89, R160, R180). -/

namespace Sys2Proof.Machine

/-- `sgnExt(i)`: bit 15 copied into the upper half (R86). -/
def sgnExt (i : BitVec 16) : Word := i.signExtend 32

/-- `zeroExt(i)`: zeros in the upper half (R87). -/
def zeroExt (i : BitVec 16) : Word := i.setWidth 32

/-- `zeroExt` of a byte, as `LBU` loads it (R87, R181). -/
def zeroExtByte (b : Byte) : Word := b.setWidth 32

/-- `formOffset(o)`: shifted left 2 bits, then sign-extended (R88). -/
def formOffset (o : BitVec 16) : Word := (o ++ 0#2).signExtend 32

/-- `formAddress(P, a)`: the 4 high bits of `P`, then `a`, then two zero bits (R89). -/
def formAddress (p : Word) (a : BitVec 26) : Word := p.extractLsb' 28 4 ++ a ++ 0#2

/-- The effective address of a load or store: base plus scaled displacement, modulo `2^32` (R180) [15]. -/
def effectiveAddress (base : Word) (o : BitVec 16) : Word := base + formOffset o

/-- The target of a taken branch, from the advanced `PC`, modulo `2^32` (R160) [15]. -/
def branchTarget (pc : Word) (o : BitVec 16) : Word := pc + formOffset o

end Sys2Proof.Machine
end

