-- ==== Sys2Proof/Machine/Float32.lean ====
section
/-! DEFINITION. The numerics (spec R130): the record of floating-point functions and its default, IEEE 754 binary32
(R138 to R141), computed exactly over integers. Every finite datum is a whole number of units of `2^-149`. -/

namespace Sys2Proof.Machine

open Sys2Proof.Config (RndMode)

/-- The record `Float` of R130. `none` as a result of an operation says that it is a NaN, whose pattern is a draw
(R140); `none` of `toIntRounded` says that no 32-bit integer is the result (R137). -/
structure Numerics where
  /-- Used by `FADD` (R132). -/
  add : Word → Word → Option Word
  /-- Used by `FSUB` (R133). -/
  sub : Word → Word → Option Word
  /-- Used by `FMUL` (R134). -/
  mul : Word → Word → Option Word
  /-- Used by `FDIV` (R135). -/
  div : Word → Word → Option Word
  /-- The datum nearest a signed 32-bit integer, used by `CVT` (R136). -/
  ofInt : Word → Word
  /-- Round to a signed 32-bit integer, used by `RND` (R137). -/
  toIntRounded : RndMode → Word → Option Word
  /-- Numeric equality (R141). -/
  eq : Word → Word → Bool
  /-- Numeric less-than (R141). -/
  lt : Word → Word → Bool
  /-- Numeric less-or-equal (R141). -/
  le : Word → Word → Bool
  /-- The datum is a zero, of either sign (R139). -/
  isZero : Word → Bool
  /-- The datum is a NaN (R139). -/
  isNaN : Word → Bool
  /-- The datum the `BF..Z` branches compare against, `+0.0` (R130, R168). -/
  zero : Word

/-- The sign `S`, bit 31 (R138). -/
def f32Sign (v : Word) : Bool := v.msb

/-- The biased exponent `E`, bits 30:23 (R138). -/
def f32Exponent (v : Word) : Nat := (v.extractLsb' 23 8).toNat

/-- The fraction `F`, bits 22:0 (R138). -/
def f32Fraction (v : Word) : Nat := (v.extractLsb' 0 23).toNat

/-- `v[30:23] = 255 and v[22:0] != 0` (R139). -/
def f32IsNaN (v : Word) : Bool := f32Exponent v == 255 && f32Fraction v != 0

/-- An infinity (R138). -/
def f32IsInf (v : Word) : Bool := f32Exponent v == 255 && f32Fraction v == 0

/-- `v[30:0] = 0` (R139). -/
def f32IsZero (v : Word) : Bool := v.extractLsb' 0 31 == 0#31

/-- How many units of `2^-149` there are in one: `2^149`. -/
def f32One : Nat := 2 ^ 149

/-- The magnitude of a finite datum, in units of `2^-149` (R138): `F` when `E = 0`, else `(2^23 + F) * 2^(E - 1)`. The
same formula puts an infinity above every finite magnitude, which the comparisons use. -/
def f32Units (v : Word) : Nat :=
  if f32Exponent v = 0 then f32Fraction v else (2 ^ 23 + f32Fraction v) * 2 ^ (f32Exponent v - 1)

/-- The signed value of a finite datum in units of `2^-149`; both zeros give 0. -/
def f32Value (v : Word) : Int :=
  if f32Sign v then -(f32Units v : Int) else (f32Units v : Int)

/-- `n / d` rounded to the nearest integer, ties to the even one (R139). -/
def roundHalfEven (n d : Nat) : Nat :=
  let q := n / d
  let r := n % d
  if d < 2 * r ∨ (2 * r = d ∧ q % 2 = 1) then q + 1 else q

/-- A datum from its sign and the value of its bits 30:0; above the largest finite one it is an infinity (R139). -/
def f32Pack (sign : Bool) (magnitude : Nat) : Word :=
  BitVec.ofNat 32 ((if sign then 2 ^ 31 else 0) + min magnitude 0x7F800000)

/-- How far the 24-bit significand of a value of `units` units of `2^-149` stands above the lowest binade (R138). -/
def f32Scale (units : Nat) : Nat := Nat.log2 units - 23

/-- The datum nearest the value `n / d` units of `2^-149`, ties to the even fraction, with gradual underflow and
overflow to infinity (R139). -/
def f32Round (sign : Bool) (n d : Nat) : Word :=
  let k := f32Scale (n / d)
  f32Pack sign (k * 2 ^ 23 + roundHalfEven n (d * 2 ^ k))

/-- `+inf` or `-inf` (R138). -/
def f32Inf (sign : Bool) : Word := f32Pack sign 0x7F800000

/-- `+0.0` or `-0.0` (R138). -/
def f32Zero (sign : Bool) : Word := f32Pack sign 0

/-- The datum with the other sign. -/
def f32Negate (v : Word) : Word := v ^^^ 0x80000000

/-- `add` (R139): an exact zero sum is `+0.0`, but `-0.0 + -0.0 = -0.0` (R132). -/
def f32Add (a b : Word) : Option Word :=
  if f32IsNaN a || f32IsNaN b then none
  else if f32IsInf a then (if f32IsInf b && (f32Sign a != f32Sign b) then none else some a)
  else if f32IsInf b then some b
  else
    let sum := f32Value a + f32Value b
    if sum = 0 then some (f32Zero (f32Sign a && f32Sign b))
    else some (f32Round (decide (sum < 0)) sum.natAbs 1)

/-- `sub` (R139, R133): the sum with the second operand's sign changed. -/
def f32Sub (a b : Word) : Option Word := f32Add a (f32Negate b)

/-- `mul` (R139): the sign is the exclusive-or of the signs, also for zeros and infinities (R134). -/
def f32Mul (a b : Word) : Option Word :=
  let sign := f32Sign a != f32Sign b
  if f32IsNaN a || f32IsNaN b then none
  else if f32IsInf a || f32IsInf b then
    (if f32IsZero a || f32IsZero b then none else some (f32Inf sign))
  else some (f32Round sign (f32Units a * f32Units b) f32One)

/-- `div` (R139, R135): `0 / 0` and `inf / inf` are NaNs, a non-zero finite by zero an infinity. -/
def f32Div (a b : Word) : Option Word :=
  let sign := f32Sign a != f32Sign b
  if f32IsNaN a || f32IsNaN b then none
  else if f32IsInf a then (if f32IsInf b then none else some (f32Inf sign))
  else if f32IsInf b then some (f32Zero sign)
  else if f32IsZero b then (if f32IsZero a then none else some (f32Inf sign))
  else some (f32Round sign (f32Units a * f32One) (f32Units b))

/-- `ofInt` (R136): the nearest datum, ties to even, of a signed 32-bit integer. -/
def f32OfInt (v : Word) : Word :=
  f32Round (decide (s32 v < 0)) ((s32 v).natAbs * f32One) 1

/-- The magnitude of a finite datum rounded to an integer (R137). -/
def f32RoundedMagnitude (mode : RndMode) (v : Word) : Nat :=
  match mode with
  | .halfAwayFromZero => (2 * f32Units v + f32One) / (2 * f32One)
  | .halfToEven => roundHalfEven (f32Units v) f32One

/-- `toIntRounded` (R137): `none` for a NaN, an infinity, and a rounded value outside the signed 32-bit range. -/
def f32ToIntRounded (mode : RndMode) (v : Word) : Option Word :=
  if f32IsNaN v || f32IsInf v then none
  else
    let m : Int := f32RoundedMagnitude mode v
    let n := if f32Sign v then -m else m
    if -2147483648 ≤ n ∧ n ≤ 2147483647 then some (w32 n) else none

/-- A comparison of data: false whenever an operand is a NaN, else of the extended reals (R141). -/
def f32Compare (rel : Int → Int → Bool) (a b : Word) : Bool :=
  !f32IsNaN a && !f32IsNaN b && rel (f32Value a) (f32Value b)

/-- The default numerics: IEEE 754 binary32, round to nearest, ties to even (R130, R138 to R141). -/
def ieeeBinary32 : Numerics where
  add := f32Add
  sub := f32Sub
  mul := f32Mul
  div := f32Div
  ofInt := f32OfInt
  toIntRounded := f32ToIntRounded
  eq := f32Compare fun x y => decide (x = y)
  lt := f32Compare fun x y => decide (x < y)
  le := f32Compare fun x y => decide (x ≤ y)
  isZero := f32IsZero
  isNaN := f32IsNaN
  zero := 0

/-- The numerics of the machine: the parameter `Float` at its default (R8), decision D10. DESIGN CHOICE [10]. -/
def numerics : Numerics := ieeeBinary32

/-- A NaN pattern made from a free word: the word itself when it is a NaN, else the word with the exponent and the
quiet bit set, so that every NaN pattern is possible and nothing else is (R140) [13]. -/
def nanOfFree (w : Word) : Word :=
  if f32IsNaN w then w else w ||| 0x7FC00000

end Sys2Proof.Machine
end

