-- ==== Sys2Proof/Machine/FloatText.lean ====
section
/-! DEFINITION. The text conversions of the system calls (spec R210, R211, R215): `FormatInt`, `FormatFloat` and
`ParseFloat` at their defaults, as the C conversions `%d` and `%f` the spec describes [19, 24, 25]. -/

namespace Sys2Proof.Machine

/-- The character `-`. -/
def charMinus : Byte := 0x2D

/-- The character `.`. -/
def charPoint : Byte := 0x2E

/-- The decimal digit character of a number below 10. -/
def digitChar (n : Nat) : Byte := BitVec.ofNat 8 (0x30 + n % 10)

/-- The last `fuel` decimal digits of a number at most, without leading zeros, put before `acc`. -/
def digitsBefore (fuel n : Nat) (acc : List Byte) : List Byte :=
  match fuel with
  | 0 => acc
  | fuel + 1 => if n < 10 then digitChar n :: acc else digitsBefore fuel (n / 10) (digitChar n :: acc)

/-- The decimal digits of a number without leading zeros, a single `0` for zero (R210). A number has at most as many
decimal digits as binary ones. -/
def decimal (n : Nat) : List Byte := digitsBefore (Nat.log2 n + 1) n []

/-- Exactly `count` decimal digits of a number, leading zeros included. -/
def fixedDigits (count n : Nat) : List Byte :=
  match count with
  | 0 => []
  | count + 1 => fixedDigits count (n / 10) ++ [digitChar n]

/-- `FormatInt`, the C `%d` conversion (R210), decision D34 [24]. -/
def formatInt (n : Int) : List Byte :=
  if n < 0 then charMinus :: decimal n.natAbs else decimal n.natAbs

/-- A finite magnitude in millionths, rounded to the nearest; what happens exactly halfway is a free value (R211)
[25]. -/
def roundToMillionths (v : Word) : Nat :=
  let n := f32Units v * 1000000
  let q := n / f32One
  let r := n % f32One
  if f32One < 2 * r then q + 1
  else if 2 * r = f32One then (if Config.printTieRoundsUp v then q + 1 else q)
  else q

/-- `inf`. -/
def textInf : List Byte := [0x69, 0x6E, 0x66]

/-- `nan`. -/
def textNan : List Byte := [0x6E, 0x61, 0x6E]

/-- `FormatFloat`, the C `%f` conversion of a datum (R211), decision D35 [25]. -/
def formatFloat (v : Word) : List Byte :=
  if f32IsNaN v then (if Config.nanPrintsMinus v then charMinus :: textNan else textNan)
  else
    let m := roundToMillionths v
    let text :=
      if f32IsInf v then textInf else decimal (m / 1000000) ++ charPoint :: fixedDigits 6 (m % 1000000)
    if f32Sign v then charMinus :: text else text

/-- Where the scan of a floating-point literal stands (R215). -/
inductive ScanPhase where
  /-- Nothing of the literal yet. -/
  | start
  /-- After the sign. -/
  | signed
  /-- After a first digit `0`, which an `x` may still turn into a hexadecimal literal. -/
  | firstZero
  /-- Among the decimal digits before the period. -/
  | whole
  /-- After a period with no digit before it. -/
  | barePoint
  /-- After a period with a digit before it, or among the digits after it. -/
  | fraction
  /-- After the exponent letter. -/
  | exponentMark
  /-- After the exponent's sign. -/
  | exponentSign
  /-- Among the exponent's digits. -/
  | exponent
  /-- After `0x`. -/
  | hexMark
  /-- Among the hexadecimal digits before the period. -/
  | hexWhole
  /-- After a period with no hexadecimal digit before it. -/
  | hexBarePoint
  /-- After a period with a hexadecimal digit before it, or among the digits after it. -/
  | hexFraction
  /-- After the binary exponent's letter. -/
  | hexExponentMark
  /-- After the binary exponent's sign. -/
  | hexExponentSign
  /-- Among the binary exponent's digits. -/
  | hexExponent
  /-- After that many letters of `infinity`. -/
  | infinity (letters : Nat)
  /-- After that many letters of `nan`. -/
  | nan (letters : Nat)
deriving DecidableEq, Repr

/-- What the scan has read: the literal is `mantissa * 10^(±exponent - places)`, or for a hexadecimal one
`mantissa * 2^(±exponent - 4 * places)`. -/
structure Scan where
  /-- Where the scan stands. -/
  phase : ScanPhase
  /-- A minus sign stood before the literal. -/
  negative : Bool
  /-- The digits read so far, as one number. -/
  mantissa : Nat
  /-- How many of them stood after the period. -/
  places : Nat
  /-- The exponent has a minus sign. -/
  exponentNegative : Bool
  /-- The exponent's magnitude. -/
  exponent : Nat
deriving DecidableEq, Repr

/-- The scan before its first byte. -/
def Scan.initial : Scan :=
  { phase := .start, negative := false, mantissa := 0, places := 0, exponentNegative := false, exponent := 0 }

/-- White space, as C's `isspace` has it (R215). -/
def isSpaceByte (b : Byte) : Bool := b == 0x20 || (0x09 ≤ b.toNat && b.toNat ≤ 0x0D)

/-- The value of a decimal digit. -/
def decimalDigit (b : Byte) : Option Nat :=
  if 0x30 ≤ b.toNat ∧ b.toNat ≤ 0x39 then some (b.toNat - 0x30) else none

/-- A letter in lower case; every other byte as it is. -/
def lowerCase (b : Byte) : Byte :=
  if 0x41 ≤ b.toNat ∧ b.toNat ≤ 0x5A then b + 0x20 else b

/-- The value of a hexadecimal digit, in either case. -/
def hexDigit (b : Byte) : Option Nat :=
  match decimalDigit b with
  | some d => some d
  | none =>
    let c := lowerCase b
    if 0x61 ≤ c.toNat ∧ c.toNat ≤ 0x66 then some (c.toNat - 0x57) else none

/-- One more digit, in a base, before the period. -/
def Scan.wholeDigit (s : Scan) (phase : ScanPhase) (base d : Nat) : Scan :=
  { s with phase, mantissa := base * s.mantissa + d }

/-- One more digit, in a base, after the period. -/
def Scan.fractionDigit (s : Scan) (phase : ScanPhase) (base d : Nat) : Scan :=
  { s with phase, mantissa := base * s.mantissa + d, places := s.places + 1 }

/-- One more decimal digit of the exponent. -/
def Scan.exponentDigit (s : Scan) (phase : ScanPhase) (d : Nat) : Scan :=
  { s with phase, exponent := 10 * s.exponent + d }

/-- The first byte after the sign: a digit, a period, or a letter of `inf` or `nan`. -/
def Scan.first (s : Scan) (b : Byte) : Option Scan :=
  match decimalDigit b with
  | some 0 => some { s with phase := .firstZero }
  | some d => some (s.wholeDigit .whole 10 d)
  | none =>
    if b = charPoint then some { s with phase := .barePoint }
    else if lowerCase b = 0x69 then some { s with phase := .infinity 1 }
    else if lowerCase b = 0x6E then some { s with phase := .nan 1 }
    else none

/-- A byte among the decimal digits before the period. -/
def Scan.inWhole (s : Scan) (b : Byte) : Option Scan :=
  match decimalDigit b with
  | some d => some (s.wholeDigit .whole 10 d)
  | none =>
    if b = charPoint then some { s with phase := .fraction }
    else if lowerCase b = 0x65 then some { s with phase := .exponentMark }
    else none

/-- A byte among the hexadecimal digits before the period. -/
def Scan.inHexWhole (s : Scan) (b : Byte) : Option Scan :=
  match hexDigit b with
  | some d => some (s.wholeDigit .hexWhole 16 d)
  | none =>
    if b = charPoint then some { s with phase := .hexFraction }
    else if lowerCase b = 0x70 then some { s with phase := .hexExponentMark }
    else none

/-- The letters of `infinity`. -/
def textInfinity : List Byte := [0x69, 0x6E, 0x66, 0x69, 0x6E, 0x69, 0x74, 0x79]

/-- The scan after one more byte, if what it has read is still the start of a literal (R215). -/
def Scan.advance (s : Scan) (b : Byte) : Option Scan :=
  match s.phase with
  | .start =>
    if b = 0x2B then some { s with phase := .signed }
    else if b = charMinus then some { s with phase := .signed, negative := true }
    else s.first b
  | .signed => s.first b
  | .firstZero => if lowerCase b = 0x78 then some { s with phase := .hexMark } else s.inWhole b
  | .whole => s.inWhole b
  | .barePoint => (decimalDigit b).map (s.fractionDigit .fraction 10)
  | .fraction =>
    match decimalDigit b with
    | some d => some (s.fractionDigit .fraction 10 d)
    | none => if lowerCase b = 0x65 then some { s with phase := .exponentMark } else none
  | .exponentMark =>
    if b = 0x2B then some { s with phase := .exponentSign }
    else if b = charMinus then some { s with phase := .exponentSign, exponentNegative := true }
    else (decimalDigit b).map (s.exponentDigit .exponent)
  | .exponentSign => (decimalDigit b).map (s.exponentDigit .exponent)
  | .exponent => (decimalDigit b).map (s.exponentDigit .exponent)
  | .hexMark =>
    match hexDigit b with
    | some d => some (s.wholeDigit .hexWhole 16 d)
    | none => if b = charPoint then some { s with phase := .hexBarePoint } else none
  | .hexWhole => s.inHexWhole b
  | .hexBarePoint => (hexDigit b).map (s.fractionDigit .hexFraction 16)
  | .hexFraction =>
    match hexDigit b with
    | some d => some (s.fractionDigit .hexFraction 16 d)
    | none => if lowerCase b = 0x70 then some { s with phase := .hexExponentMark } else none
  | .hexExponentMark =>
    if b = 0x2B then some { s with phase := .hexExponentSign }
    else if b = charMinus then some { s with phase := .hexExponentSign, exponentNegative := true }
    else (decimalDigit b).map (s.exponentDigit .hexExponent)
  | .hexExponentSign => (decimalDigit b).map (s.exponentDigit .hexExponent)
  | .hexExponent => (decimalDigit b).map (s.exponentDigit .hexExponent)
  | .infinity n =>
    if textInfinity[n]? = some (lowerCase b) then some { s with phase := .infinity (n + 1) } else none
  | .nan n =>
    if textNan[n]? = some (lowerCase b) then some { s with phase := .nan (n + 1) } else none

/-- The scan over the longest sequence of bytes that is the start of a literal, and the bytes after it (R215). -/
def Scan.run (s : Scan) (bs : List Byte) : Scan × List Byte :=
  match bs with
  | [] => (s, [])
  | b :: rest =>
    match s.advance b with
    | some s' => Scan.run s' rest
    | none => (s, b :: rest)

/-- The datum nearest `mantissa * 10^exponent` (R215), as the rounding of R139 gives it: of two as near the one with the
even fraction, from halfway past the largest finite datum up an infinity, and for a zero or a value that rounds to one the
zero of the literal's sign. DESIGN CHOICE [19]: R215 says only "the nearest `float`", and R139 is about arithmetic.

Beyond the exponents tried the result is an infinity or a zero whatever the digits: `10^40` is above every finite datum,
and `10^-60` times a power of two below `2^(log2 m + 1)`, scaled down as far again, below half the least subnormal. -/
def f32OfDecimal (negative : Bool) (mantissa : Nat) (exponent : Int) : Word :=
  if mantissa = 0 then f32Zero negative
  else if 0 ≤ exponent then
    if 40 < exponent then f32Inf negative
    else f32Round negative (mantissa * 10 ^ exponent.toNat * f32One) 1
  else if Nat.log2 mantissa + 60 < (-exponent).toNat then f32Zero negative
  else f32Round negative (mantissa * f32One) (10 ^ (-exponent).toNat)

/-- The datum nearest `mantissa * 2^exponent` (R215), ties, magnitudes too large and zeros as for a decimal literal: DESIGN
CHOICE [19]. Beyond the exponents tried it is an infinity or a zero. -/
def f32OfBinary (negative : Bool) (mantissa : Nat) (exponent : Int) : Word :=
  if mantissa = 0 then f32Zero negative
  else if 0 ≤ exponent then
    if 200 < exponent then f32Inf negative
    else f32Round negative (mantissa * 2 ^ exponent.toNat * f32One) 1
  else if Nat.log2 mantissa + 200 < (-exponent).toNat then f32Zero negative
  else f32Round negative (mantissa * f32One) (2 ^ (-exponent).toNat)

/-- What `ParseFloat` reads (R215). -/
inductive ParsedFloat where
  /-- A number: its nearest datum. -/
  | datum (v : Word)
  /-- The literal `nan`: some NaN (R140). -/
  | nan
  /-- No literal was found: nothing is stored. -/
  | nothing
deriving DecidableEq, Repr

/-- The exponent read, signed. -/
def Scan.signedExponent (s : Scan) : Int :=
  if s.exponentNegative then -(s.exponent : Int) else (s.exponent : Int)

/-- What a finished scan has read: a literal in full, or the mere start of one, which stores nothing (R215) [19]. -/
def Scan.result (s : Scan) : ParsedFloat :=
  match s.phase with
  | .firstZero | .whole | .fraction | .exponent =>
    .datum (f32OfDecimal s.negative s.mantissa (s.signedExponent - s.places))
  | .hexWhole | .hexFraction | .hexExponent =>
    .datum (f32OfBinary s.negative s.mantissa (s.signedExponent - 4 * s.places))
  | .infinity n => if n = 3 ∨ n = 8 then .datum (f32Inf s.negative) else .nothing
  | .nan n => if n = 3 then .nan else .nothing
  | .start | .signed | .barePoint | .exponentMark | .exponentSign
  | .hexMark | .hexBarePoint | .hexExponentMark | .hexExponentSign => .nothing

/-- `ParseFloat`, the C `fscanf` conversion `%f` (R215), decision D20 [19]: what was read, and the input left. -/
def parseFloat (bs : List Byte) : ParsedFloat × List Byte :=
  let r := Scan.initial.run (bs.dropWhile isSpaceByte)
  (r.1.result, r.2)

end Sys2Proof.Machine
end

