-- ==== Sys2Proof/Machine/Params.lean ====
section
/-! DEFINITION. The parameters the manual leaves open, each an argument of the model (spec R8): one record, which every
operation that reads a parameter takes, and the spec's default for each. An operation called without the record has the
defaults, and so have `exec` and `step`; `execWith` and `stepWith` take any record. -/

namespace Sys2Proof.Machine.Params

open Sys2Proof.Config

/-- `INVARIANT_CHECK` (R8, R28, R243), decision D3. DESIGN CHOICE [3]. -/
def invariantCheck : InvariantCheck := .atBoundaries

/-- `ILLEGAL_ENCODING` (R8, R97), decision D4. DESIGN CHOICE [4]. -/
def illegalEncoding : IllegalEncoding := .fault

/-- `OUT_OF_RANGE_ACCESS` (R8, R55), decision D5. DESIGN CHOICE [5]. -/
def outOfRangeAccess : OutOfRange := .fault

/-- `R0_WRITE` (R8, R23), decision D2. DESIGN CHOICE [2]. -/
def r0Write : R0Write := .faultIfNonzero

/-- `MISALIGNED_WORD_ACCESS` (R8, R55), decision D6. DESIGN CHOICE [6]. -/
def misalignedWordAccess : MisalignedWord := .fault

/-- `INT_OVERFLOW` (R8, R110), decision D7. DESIGN CHOICE [7]. -/
def intOverflow : Overflow := .wrap

/-- `DIV_OVERFLOW` (R8, R114), decision D9. DESIGN CHOICE [8]. -/
def divOverflow : Overflow := .fault

/-- `FDIV_BY_ZERO` (R8, R135), decision D11. DESIGN CHOICE [11]. -/
def fdivByZero : FdivByZero := .fault

/-- `RND_MODE` (R8, R137), decision D12. DESIGN CHOICE [12]. -/
def rndMode : RndMode := .halfAwayFromZero

/-- `RND_OUT_OF_RANGE` (R8, R137), decision D12. DESIGN CHOICE [12]. -/
def rndOutOfRange : RndOutOfRange := .fault

/-- `EOF_VALUE` (R8, R213), decision D19. DESIGN CHOICE [18]. -/
def eofValue : Word := 0xFFFFFFFF

/-- `ERROR_EXIT_CODE` (R8, R246), decision D22. DESIGN CHOICE [21]. -/
def errorExitCode : Nat := 1

/-- `BOF_WORD` (R8, R272), decision D18: a header field is a 32-bit unsigned little-endian word, without padding.
DESIGN CHOICE [17]. -/
def bofWord (bs : List Byte) : Option (Word × List Byte) := takeWord bs

end Sys2Proof.Machine.Params

namespace Sys2Proof.Machine

/-- The parameters of R8, one field per row of its table; `NAN_PAYLOAD` is a draw (R140) and no argument. -/
structure Parameters where
  /-- `FIELD_ORDER` (R85). -/
  fieldOrder : Config.FieldOrder
  /-- `R0_WRITE` (R23). -/
  r0Write : Config.R0Write
  /-- `INVARIANT_CHECK` (R243). -/
  invariantCheck : Config.InvariantCheck
  /-- `ILLEGAL_ENCODING` (R97). -/
  illegalEncoding : Config.IllegalEncoding
  /-- `OUT_OF_RANGE_ACCESS` (R55). -/
  outOfRangeAccess : Config.OutOfRange
  /-- `MISALIGNED_WORD_ACCESS` (R55). -/
  misalignedWordAccess : Config.MisalignedWord
  /-- `INT_OVERFLOW` (R110). -/
  intOverflow : Config.Overflow
  /-- `DIV_OVERFLOW` (R114). -/
  divOverflow : Config.Overflow
  /-- `Float` (R130). -/
  numerics : Numerics
  /-- `FDIV_BY_ZERO` (R135). -/
  fdivByZero : Config.FdivByZero
  /-- `RND_MODE` (R137). -/
  rndMode : Config.RndMode
  /-- `RND_OUT_OF_RANGE` (R137). -/
  rndOutOfRange : Config.RndOutOfRange
  /-- `EOF_VALUE` (R213). -/
  eofValue : Word
  /-- `ERROR_EXIT_CODE` (R246). -/
  errorExitCode : Nat
  /-- `FormatInt` (R210). -/
  formatInt : Int → List Byte
  /-- `FormatFloat` (R211). -/
  formatFloat : Word → List Byte
  /-- `ParseFloat` (R215). -/
  parseFloat : List Byte → ParsedFloat × List Byte
  /-- `BOF_WORD` (R272): the header field at the head of the bytes, and the bytes after it; none where the bytes end
  first. -/
  bofWord : List Byte → Option (Word × List Byte)

/-- What R8 asks of a record of parameters beyond its types: "any negative 32-bit integer" for `EOF_VALUE`, "any
non-zero exit code" for `ERROR_EXIT_CODE`. -/
structure Parameters.Allowed (p : Parameters) : Prop where
  /-- `EOF_VALUE` is negative. -/
  eofNegative : s32 p.eofValue < 0
  /-- `ERROR_EXIT_CODE` is not zero. -/
  errorNonzero : p.errorExitCode ≠ 0

/-- The default of every parameter (R8) [37]. -/
def Parameters.default : Parameters where
  fieldOrder := Sys2Proof.fieldOrder
  r0Write := Params.r0Write
  invariantCheck := Params.invariantCheck
  illegalEncoding := Params.illegalEncoding
  outOfRangeAccess := Params.outOfRangeAccess
  misalignedWordAccess := Params.misalignedWordAccess
  intOverflow := Params.intOverflow
  divOverflow := Params.divOverflow
  numerics := Machine.numerics
  fdivByZero := Params.fdivByZero
  rndMode := Params.rndMode
  rndOutOfRange := Params.rndOutOfRange
  eofValue := Params.eofValue
  errorExitCode := Params.errorExitCode
  formatInt := Machine.formatInt
  formatFloat := Machine.formatFloat
  parseFloat := Machine.parseFloat
  bofWord := Params.bofWord

end Sys2Proof.Machine
end

