-- ==== Sys2Proof/Machine/Memory.lean ====
section
/-! DEFINITION. The memory: 65532 bytes (spec R50), held as a list of address and byte pairs in one canonical form,
and the reads and writes of bytes and words (R52 to R57). -/

namespace Sys2Proof.Machine

/-- The contents of memory: the bytes that are not as the memory starts, by rising address. -/
abbrev Memory := List Host.Cell

/-- What an unlisted address reads as: "The memory of the machine starts at all zero (0) values" (R36, R56). -/
def Memory.unlisted : Byte := 0

/-- The canonical form: addresses strictly rising and in memory, no entry equal to what an unlisted address reads. -/
abbrev Memory.wf (m : Memory) : Prop :=
  m.Pairwise (fun c c' => c.1 < c'.1) ∧ ∀ c ∈ m, c.2 ≠ Memory.unlisted ∧ c.1 < Config.memorySize

/-- `mem[a]` (R50). -/
def Memory.read (m : Memory) (a : Nat) : Byte :=
  match m with
  | [] => Memory.unlisted
  | (k, b) :: rest => if k = a then b else Memory.read rest a

/-- The memory without an entry at `a`. -/
def Memory.erase (m : Memory) (a : Nat) : Memory :=
  match m with
  | [] => []
  | (k, b) :: rest => if k = a then Memory.erase rest a else (k, b) :: Memory.erase rest a

/-- The memory with an entry put in at its place by address. -/
def Memory.insert (m : Memory) (a : Nat) (v : Byte) : Memory :=
  match m with
  | [] => [(a, v)]
  | (k, b) :: rest => if a < k then (a, v) :: (k, b) :: rest else (k, b) :: Memory.insert rest a v

/-- `mem[a] <- v`, in canonical form (R57). -/
def Memory.write (m : Memory) (a : Nat) (v : Byte) : Memory :=
  if v = Memory.unlisted then Memory.erase m a else Memory.insert (Memory.erase m a) a v

/-- The word of the bytes at `a` to `a + 3`, little-endian (R52, R56). -/
def Memory.readWord (m : Memory) (a : Nat) : Word :=
  wordOfBytes (m.read a) (m.read (a + 1)) (m.read (a + 2)) (m.read (a + 3))

/-- Bytes written from `a` up. -/
def Memory.writeBytes (m : Memory) (a : Nat) (bs : List Byte) : Memory :=
  match bs with
  | [] => m
  | b :: rest => Memory.writeBytes (m.write a b) (a + 1) rest

/-- The four bytes of a word written at `a` to `a + 3`, little-endian (R52, R57). -/
def Memory.writeWord (m : Memory) (a : Nat) (v : Word) : Memory :=
  m.writeBytes a (bytesOfWord v)

/-- The bytes from `a` up to, not including, the first zero byte, with `true`; or all those up to the end of memory,
with `false`, when no zero byte ends them (R209). `left` is how many addresses from `a` up exist. -/
def Memory.scanString (m : Memory) (left a : Nat) : Bool × List Byte :=
  match left with
  | 0 => (false, [])
  | left + 1 =>
    if m.read a = 0 then (true, [])
    else
      let r := Memory.scanString m left (a + 1)
      (r.1, m.read a :: r.2)

end Sys2Proof.Machine
end

