-- ==== Sys2Proof/Machine/State.lean ====
section
/-! DEFINITION. The machine's state (spec R38 and the rules it cites), its state after reset (R36), and the two ways
a step can stop. -/

namespace Sys2Proof.Machine

/-- Whether the machine still executes (R32, R240). -/
inductive Status where
  /-- The machine takes steps. -/
  | running
  /-- The machine has halted with an exit code: 0 by `EXIT` (R207), non-zero by an error (R246). -/
  | halted (exitCode : Nat)
deriving DecidableEq, Repr

/-- The record of R38, and nothing else: what the spec calls the machine's state. -/
structure Record where
  /-- The general registers, `x[0]` to `x[31]` (R20); read and written through `State.x` and `writeReg`. -/
  regs : Vector Word 32
  /-- `PC`, the byte address of the next instruction to execute (R26). -/
  pc : Word
  /-- `HI` (R29). -/
  hi : Word
  /-- `LO` (R29). -/
  lo : Word
  /-- The memory (R50). -/
  mem : Memory
  /-- Whether the VM prints tracing output (R32). -/
  tracing : Bool
  /-- The standard input not yet consumed (R205). -/
  stdin : List Byte
  /-- The standard output so far, program bytes and trace in the order of production (R205, R222, R225). -/
  stdout : List OutItem
  /-- The error messages so far, each standing as its error (R246, D22). -/
  stderr : List MachineError
  /-- Whether the machine still executes (R240). -/
  status : Status
deriving DecidableEq, Repr

/-- The state of the model: the record of R38, and beside it what other rules have the VM keep (R32's `IR`, and of the
binary object file's header what the trace printer shows, R222, C10) and the counter of free values. Of these no step
reads `IR`, no step changes the header's two, and the counter stands for the draws given from outside (R16): the machine
over `Record` alone, with them as given, is `Record.step` of Machine/RecordStep.lean. That they stand in the state of a
step departs from R38's "and nothing else": DESIGN CHOICE [28]. -/
structure State extends Record where
  /-- `IR`, the instruction word fetched in this cycle (R28, R32) [27]. -/
  ir : Word
  /-- The stack bottom address of the binary object file, which the trace shows the stack up to (R222) [28]. -/
  stackBottom : Word
  /-- The length in bytes of the file's data section, of which an empty one prints nothing in the trace (C10) [28]. -/
  dataLength : Nat
  /-- The model's own field: how many free values have been drawn (R16 "draw") [28]. -/
  draws : Nat
deriving DecidableEq, Repr

/-- Why a step does not answer a next state. -/
inductive Fault where
  /-- Raised by `step` alone, when the machine has already halted, with its exit code: "A halted machine takes no
  further step and its state no longer changes" (R240). Safe. -/
  | halted (exitCode : Nat)
deriving DecidableEq, Repr

/-- Why an instruction has no meaning. -/
inductive Refusal where
  /-- Raised by an arm of `exec` whose instruction has no meaning yet; no arm does. Safe. -/
  | notModelled (mnemonic : String)
deriving DecidableEq, Repr

/-- The registers of the state after reset: the spec's worked instance for those the file's header gives (R36, R37)
[26], 0 for every other (R36). -/
def resetRegs : Vector Word 32 :=
  (((Vector.replicate 32 (0 : Word)).set 28 1024).set 29 4096).set 30 4096

/-- The machine right after reset: the table of R36, with the header values of R37 and no program or input. -/
def State.reset : State where
  regs := resetRegs
  pc := 0
  hi := 0
  lo := 0
  ir := 0
  mem := []
  tracing := true
  stdin := []
  stdout := []
  stderr := []
  status := .running
  stackBottom := 4096
  dataLength := 0
  draws := 0

end Sys2Proof.Machine
end

