-- ==== Sys2Proof/Machine/Ops.lean ====
section
/-! DEFINITION. The named operations over the state that the meanings are written in (spec R13): plain updates, the
error entry, registers, memory, the streams, the free values. An operation that reads a parameter of R8 takes the record
of them as its last argument. -/

namespace Sys2Proof.Machine

/-- `pc <- target`: all 32 bits, nothing masked or aligned (R27). -/
def State.setPc (s : State) (target : Word) : State := { s with pc := target }

/-- `HI <- hi ; LO <- lo` (R29). -/
def State.setHiLo (s : State) (hi lo : Word) : State := { s with hi := hi, lo := lo }

/-- The memory replaced. -/
def State.setMem (s : State) (mem : Memory) : State := { s with mem := mem }

/-- The tracing switch (R32). -/
def State.setTracing (s : State) (on : Bool) : State := { s with tracing := on }

/-- The standard input left (R205). -/
def State.setStdin (s : State) (bs : List Byte) : State := { s with stdin := bs }

/-- Register `d`'s storage replaced whole (R23). -/
def State.setReg (s : State) (d : Reg) (v : Word) : State := { s with regs := s.regs.set d v }

/-- Items appended to the standard output (R205, R222). -/
def State.emit (s : State) (items : List OutItem) : State := { s with stdout := s.stdout ++ items }

/-- The machine halted with an exit code (R240). -/
def State.halt (s : State) (exitCode : Nat) : State := { s with status := .halted exitCode }

/-- An error message appended to `stderr`, standing as its error (R246, D22) [21]. -/
def State.report (s : State) (e : MachineError) : State := { s with stderr := s.stderr ++ [e] }

/-- One more free value drawn (R16 "draw") [28]. -/
def State.nextDraw (s : State) : State := { s with draws := s.draws + 1 }

/-- Error entry, `raise E(info)`: a message on `stderr`, then the machine halts with `ERROR_EXIT_CODE`. Nothing else
changes, and there is no return from it (R246, R249). -/
def raise (e : MachineError) (s : State) (p : Parameters := .default) : State :=
  (s.report e).halt p.errorExitCode

/-- `halt(0)`, the normal end (R207). -/
def haltNormally (s : State) : State := s.halt 0

/-- The address of the instruction being executed, whose `PC` has been advanced (R13). -/
def instructionAddress (s : State) : Word := s.pc - 4

/-- `x[i]`: register 0 reads 0, whatever is stored (R13, R22). -/
def State.x (s : State) (i : Reg) : Word :=
  if i = 0 then 0 else s.regs[i]

/-- `x[d] <- v`: the whole register is replaced; for register 0, a zero has no effect and any other value meets
`R0_WRITE` (R23) [2]. -/
def writeReg (d : Reg) (v : Word) (s : State) (p : Parameters := .default) : State :=
  if d = 0 then
    if v = 0 then s
    else
      match p.r0Write with
      | .faultIfNonzero => raise (.invariantViolation .zeroRegister) s p
      | .discard => s
  else s.setReg d v

/-- `valid(addr, n)` of R55: the error an access raises, the range checked before the alignment [5, 6]. -/
def accessError (addr : Word) (n : Nat) (p : Parameters := .default) : Option MachineError :=
  if Config.memorySize < u32 addr + n then
    match p.outOfRangeAccess with
    | .fault => some (.addressOutOfRange addr n)
  else if n = 4 ∧ u32 addr % 4 ≠ 0 then
    match p.misalignedWordAccess with
    | .fault => some (.misalignedAccess addr)
    | .splitLittleEndian => none
  else none

/-- `MemRead(addr, 1)` (R56). -/
def memReadByte (addr : Word) (s : State) (p : Parameters := .default) : Except MachineError Byte :=
  match accessError addr 1 p with
  | some e => .error e
  | none => .ok (s.mem.read (u32 addr))

/-- `MemRead(addr, 4)` (R56). -/
def memReadWord (addr : Word) (s : State) (p : Parameters := .default) : Except MachineError Word :=
  match accessError addr 4 p with
  | some e => .error e
  | none => .ok (s.mem.readWord (u32 addr))

/-- `MemWrite(addr, 1, v)`; if it raises, no byte changes (R57). -/
def memWriteByte (addr : Word) (v : Byte) (s : State) (p : Parameters := .default) : State :=
  match accessError addr 1 p with
  | some e => raise e s p
  | none => s.setMem (s.mem.write (u32 addr) v)

/-- `MemWrite(addr, 4, v)`; if it raises, no byte changes (R57). -/
def memWriteWord (addr : Word) (v : Word) (s : State) (p : Parameters := .default) : State :=
  match accessError addr 4 p with
  | some e => raise e s p
  | none => s.setMem (s.mem.writeWord (u32 addr) v)

/-- A destination register written with what a read gave, or the read's error raised and the register left as it was
(R245). -/
def writeRegOrRaise (d : Reg) (r : Except MachineError Word) (s : State) (p : Parameters := .default) :
    State :=
  match r with
  | .ok v => writeReg d v s p
  | .error e => raise e s p

/-- A destination register written with the result of a floating-point operation; a NaN's pattern is drawn (R140)
[13]. -/
def writeFloat (d : Reg) (r : Option Word) (s : State) (p : Parameters := .default) : State :=
  match r with
  | some v => writeReg d v s p
  | none => writeReg d (nanOfFree (Config.freeWord s.draws)) s.nextDraw p

/-- A destination register written with a draw of any 32-bit value (R137, R215). -/
def writeDraw (d : Reg) (s : State) (p : Parameters := .default) : State :=
  writeReg d (Config.freeWord s.draws) s.nextDraw p

/-- `Out(bytes)` (R205). -/
def outBytes (bs : List Byte) (s : State) : State :=
  s.emit (bs.map OutItem.program)

/-- What a printing service does: the text is written and its length put in `$v0` (R208 to R211) [24]. -/
def printText (text : List Byte) (s : State) (p : Parameters := .default) : State :=
  writeReg Reg.v0 (w32 text.length) (outBytes text s) p

/-- An integer result that may overflow: taken modulo `2^32`, or an `IntegerOverflow`, as `INT_OVERFLOW` has it (R110)
[7]. -/
def writeSum (d : Reg) (overflows : Bool) (v : Word) (s : State) (p : Parameters := .default) : State :=
  match p.intOverflow with
  | .fault => if overflows then raise (.integerOverflow (instructionAddress s)) s p else writeReg d v s p
  | .wrap => writeReg d v s p

/-- `if c then pc <- pc + formOffset(o)` (R160). -/
def branchIf (c : Bool) (o : BitVec 16) (s : State) : State :=
  if c then s.setPc (branchTarget s.pc o) else s

/-- The instruction fetch, `MemRead(pc, 4)` (R60). -/
def fetch (s : State) (p : Parameters := .default) : Except MachineError Word := memReadWord s.pc s p

/-- A word put where the next instruction is fetched, if such a word exists (R60). -/
def placeAtPc (w : Word) (s : State) : State :=
  match accessError s.pc 4 with
  | some _ => s
  | none => s.setMem (s.mem.writeWord (u32 s.pc) w)

/-- `out`: the bytes written by the system calls (R225). -/
def State.out (s : State) : List Byte :=
  s.stdout.filterMap fun item =>
    match item with
    | .program b => some b
    | .trace _ => none
    | .listing .. => none

/-- `trace`: the tracing output (R225). -/
def State.trace (s : State) : List TraceItem :=
  s.stdout.filterMap fun item =>
    match item with
    | .program _ => none
    | .trace t => some t
    | .listing .. => none

/-- The text of the `-p` listing (R96, R226, Figure 5): the header line, a line for each word of the text section, and
the data section, of which an empty one prints nothing. The line of a word that is no instruction, and a data section's
text, are free values [39]. -/
def listingBytes (text : List ListedWord) (dataStart : Word) (intsLength : Nat) (data : List Byte) : List Byte :=
  asmLine listingHeader ++
    (text.flatMap fun w =>
      match w.instr with
      | some i => asmLine (listingLine w.addr i)
      | none => Config.listingOfNoInstruction w.addr w.word) ++
    (if data = [] then [] else Config.listingData dataStart intsLength data)

/-- The bytes of the physical `stdout` (R38, R225), the text of the trace being a free value [20]. -/
def State.stdoutBytes (s : State) : List Byte :=
  s.stdout.flatMap fun item =>
    match item with
    | .program b => [b]
    | .trace t => Config.traceText t
    | .listing text dataStart intsLength data => listingBytes text dataStart intsLength data

/-- The bytes of `stderr` (R38, R246), the text of the messages being a free value [21]. -/
def State.stderrBytes (s : State) : List Byte :=
  s.stderr.flatMap Config.errorMessage

end Sys2Proof.Machine
end

