-- ==== Sys2Proof/Machine/Invariants.lean ====
section
/-! DEFINITION. The invariants the VM enforces and their check at an instruction boundary (spec R33, R34, R243). -/

namespace Sys2Proof.Machine

/-- Whether one invariant of R33 holds, registers read as signed numbers (R34) and register 0 as it is stored. -/
def Invariant.holds (k : Invariant) (s : State) : Bool :=
  match k with
  | .pcAligned => decide (u32 s.pc % Config.bytesPerWord = 0)
  | .gpAligned => decide (u32 (s.x Reg.gp) % Config.bytesPerWord = 0)
  | .spAligned => decide (u32 (s.x Reg.sp) % Config.bytesPerWord = 0)
  | .fpAligned => decide (u32 (s.x Reg.fp) % Config.bytesPerWord = 0)
  | .gpNonneg => decide (0 ≤ s32 (s.x Reg.gp))
  | .gpBelowSp => decide (s32 (s.x Reg.gp) < s32 (s.x Reg.sp))
  | .spAtMostFp => decide (s32 (s.x Reg.sp) ≤ s32 (s.x Reg.fp))
  | .fpInMemory => decide (s32 (s.x Reg.fp) < Config.memorySize)
  | .pcNonneg => decide (0 ≤ s32 s.pc)
  | .pcInMemory => decide (s32 s.pc < Config.memorySize)
  | .zeroRegister => decide (s.regs[(0 : Reg)] = 0)

/-- I1 to I11 in the manual's order (R33). -/
def allInvariants : List Invariant :=
  [.pcAligned, .gpAligned, .spAligned, .fpAligned, .gpNonneg, .gpBelowSp, .spAtMostFp, .fpInMemory, .pcNonneg,
    .pcInMemory, .zeroRegister]

/-- The first invariant that fails, in the order I1 to I11 (R34, R243) [3]. -/
def firstViolated (s : State) : Option Invariant :=
  allInvariants.find? fun k => !k.holds s

/-- The check of R243: made on a machine that still runs; the first violated invariant is raised. -/
def checkInvariants (s : State) (p : Parameters := .default) : State :=
  match s.status with
  | .halted _ => s
  | .running =>
    match firstViolated s with
    | some k => raise (.invariantViolation k) s p
    | none => s

end Sys2Proof.Machine
end

