-- ==== Sys2Proof/Machine/Branch.lean ====
section
/-! DEFINITION. The twelve conditional branches (spec R160 to R174): the integer ones compare registers as `int`
(R161), the floating-point ones as data, with `+0.0` where they compare with zero (R168) [14]. -/

namespace Sys2Proof.Machine

/-- `BEQ`: bitwise equality of the 32-bit contents (R162). -/
def execBeq (rs rt : Reg) (immed : BitVec 16) (s : State) : Host.Outcome State Fault Refusal :=
  .next (branchIf (s.x rs == s.x rt) immed s)

/-- `BGEZ`: signed (R163). -/
def execBgez (rs : Reg) (immed : BitVec 16) (s : State) : Host.Outcome State Fault Refusal :=
  .next (branchIf (decide (0 ≤ s32 (s.x rs))) immed s)

/-- `BGTZ`: signed (R164). -/
def execBgtz (rs : Reg) (immed : BitVec 16) (s : State) : Host.Outcome State Fault Refusal :=
  .next (branchIf (decide (0 < s32 (s.x rs))) immed s)

/-- `BLEZ`: signed (R165). -/
def execBlez (rs : Reg) (immed : BitVec 16) (s : State) : Host.Outcome State Fault Refusal :=
  .next (branchIf (decide (s32 (s.x rs) ≤ 0)) immed s)

/-- `BLTZ`: signed (R166). -/
def execBltz (rs : Reg) (immed : BitVec 16) (s : State) : Host.Outcome State Fault Refusal :=
  .next (branchIf (decide (s32 (s.x rs) < 0)) immed s)

/-- `BNE`: any bit differs (R167). -/
def execBne (rs rt : Reg) (immed : BitVec 16) (s : State) : Host.Outcome State Fault Refusal :=
  .next (branchIf (s.x rs != s.x rt) immed s)

/-- `BFEQ`: numeric equality, false for a NaN (R169). -/
def execBfeq (rs rt : Reg) (immed : BitVec 16) (s : State) (p : Parameters := .default) :
    Host.Outcome State Fault Refusal :=
  .next (branchIf (p.numerics.eq (s.x rs) (s.x rt)) immed s)

/-- `BFGZ`: taken for either zero (R170). -/
def execBfgz (rs : Reg) (immed : BitVec 16) (s : State) (p : Parameters := .default) :
    Host.Outcome State Fault Refusal :=
  .next (branchIf (p.numerics.le p.numerics.zero (s.x rs)) immed s)

/-- `BFGTZ` (R171). -/
def execBfgtz (rs : Reg) (immed : BitVec 16) (s : State) (p : Parameters := .default) :
    Host.Outcome State Fault Refusal :=
  .next (branchIf (p.numerics.lt p.numerics.zero (s.x rs)) immed s)

/-- `BFLEZ`: taken for either zero (R172). -/
def execBflez (rs : Reg) (immed : BitVec 16) (s : State) (p : Parameters := .default) :
    Host.Outcome State Fault Refusal :=
  .next (branchIf (p.numerics.le (s.x rs) p.numerics.zero) immed s)

/-- `BFLTZ`: not taken for `-0.0` (R173). -/
def execBfltz (rs : Reg) (immed : BitVec 16) (s : State) (p : Parameters := .default) :
    Host.Outcome State Fault Refusal :=
  .next (branchIf (p.numerics.lt (s.x rs) p.numerics.zero) immed s)

/-- `BFNE`: taken whenever an operand is a NaN (R174). -/
def execBfne (rs rt : Reg) (immed : BitVec 16) (s : State) (p : Parameters := .default) :
    Host.Outcome State Fault Refusal :=
  .next (branchIf (!p.numerics.eq (s.x rs) (s.x rt)) immed s)

end Sys2Proof.Machine
end

