-- ==== Sys2Proof/Machine/FloatRegister.lean ====
section
/-! DEFINITION. The register-format floating-point instructions (spec R132 to R137), over the numerics of
Machine/Float32.lean (R130). -/

namespace Sys2Proof.Machine

/-- `FADD` (R132). -/
def execFadd (rs rt rd : Reg) (s : State) (p : Parameters := .default) :
    Host.Outcome State Fault Refusal :=
  .next (writeFloat rd (p.numerics.add (s.x rs) (s.x rt)) s p)

/-- `FSUB` (R133). -/
def execFsub (rs rt rd : Reg) (s : State) (p : Parameters := .default) :
    Host.Outcome State Fault Refusal :=
  .next (writeFloat rd (p.numerics.sub (s.x rs) (s.x rt)) s p)

/-- `FMUL` (R134). -/
def execFmul (rs rt rd : Reg) (s : State) (p : Parameters := .default) :
    Host.Outcome State Fault Refusal :=
  .next (writeFloat rd (p.numerics.mul (s.x rs) (s.x rt)) s p)

/-- Whether `FDIV` by this divisor is an error: a zero of either sign, as `FDIV_BY_ZERO` has it (R135) [11]. -/
def fdivFaults (divisor : Word) (p : Parameters := .default) : Bool :=
  match p.fdivByZero with
  | .fault => p.numerics.isZero divisor
  | .ieee => false

/-- `FDIV` (R135). -/
def execFdiv (rs rt rd : Reg) (s : State) (p : Parameters := .default) :
    Host.Outcome State Fault Refusal :=
  if fdivFaults (s.x rt) p then .next (raise (.divideByZero (instructionAddress s)) s p)
  else .next (writeFloat rd (p.numerics.div (s.x rs) (s.x rt)) s p)

/-- `CVT` (R136). -/
def execCvt (rt rd : Reg) (s : State) (p : Parameters := .default) :
    Host.Outcome State Fault Refusal :=
  .next (writeReg rd (p.numerics.ofInt (s.x rt)) s p)

/-- `RND`: the rounded integer, or, where there is none, what `RND_OUT_OF_RANGE` has (R137) [12]. -/
def execRnd (rt rd : Reg) (s : State) (p : Parameters := .default) :
    Host.Outcome State Fault Refusal :=
  match p.numerics.toIntRounded p.rndMode (s.x rt) with
  | some v => .next (writeReg rd v s p)
  | none =>
    match p.rndOutOfRange with
    | .fault => .next (raise (.floatToIntRange (instructionAddress s)) s p)
    | .anyValue => .next (writeDraw rd s p)

end Sys2Proof.Machine
end

