-- ==== Sys2Proof/Machine/Immediate.lean ====
section
/-! DEFINITION. The immediate-format arithmetic and logical instructions (spec R150 to R154): the destination is
`rt`; `ADDI` sign-extends its immediate, the others zero-extend it. -/

namespace Sys2Proof.Machine

/-- `ADDI` (R151). -/
def execAddi (rs rt : Reg) (immed : BitVec 16) (s : State) (p : Parameters := .default) :
    Host.Outcome State Fault Refusal :=
  .next (writeSum rt (overflowAdd (s.x rs) (sgnExt immed)) (s.x rs + sgnExt immed) s p)

/-- `ANDI` (R152). -/
def execAndi (rs rt : Reg) (immed : BitVec 16) (s : State) (p : Parameters := .default) :
    Host.Outcome State Fault Refusal :=
  .next (writeReg rt (s.x rs &&& zeroExt immed) s p)

/-- `BORI` (R153). -/
def execBori (rs rt : Reg) (immed : BitVec 16) (s : State) (p : Parameters := .default) :
    Host.Outcome State Fault Refusal :=
  .next (writeReg rt (s.x rs ||| zeroExt immed) s p)

/-- `XORI` (R154). -/
def execXori (rs rt : Reg) (immed : BitVec 16) (s : State) (p : Parameters := .default) :
    Host.Outcome State Fault Refusal :=
  .next (writeReg rt (s.x rs ^^^ zeroExt immed) s p)

end Sys2Proof.Machine
end

