-- ==== Sys2Proof/Machine/IntRegister.lean ====
section
/-! DEFINITION. The register-format integer instructions and JR (spec R111 to R123). Each meaning sees the advanced
`PC` (R13); all sources are read before the destination is written (R110). -/

namespace Sys2Proof.Machine

/-- `ADD` (R111). -/
def execAdd (rs rt rd : Reg) (s : State) (p : Parameters := .default) :
    Host.Outcome State Fault Refusal :=
  .next (writeSum rd (overflowAdd (s.x rs) (s.x rt)) (s.x rs + s.x rt) s p)

/-- `SUB` (R112). -/
def execSub (rs rt rd : Reg) (s : State) (p : Parameters := .default) :
    Host.Outcome State Fault Refusal :=
  .next (writeSum rd (overflowSub (s.x rs) (s.x rt)) (s.x rs - s.x rt) s p)

/-- The exact signed product as a 64-bit vector (R113), decision D8 [9]. -/
def product64 (a b : Word) : BitVec 64 := BitVec.ofInt 64 (s32 a * s32 b)

/-- `MUL`: `HI` gets bits 63:32 of the product, `LO` bits 31:0 (R113). -/
def execMul (rs rt : Reg) (s : State) : Host.Outcome State Fault Refusal :=
  let p := product64 (s.x rs) (s.x rt)
  .next (s.setHiLo (p.extractLsb' 32 32) (p.extractLsb' 0 32))

/-- The quotient, truncated toward zero (R114) [9]. -/
def quotient (a b : Word) : Word := w32 ((s32 a).tdiv (s32 b))

/-- The remainder, with the sign of the dividend (R114) [9]. -/
def remainder (a b : Word) : Word := w32 ((s32 a).tmod (s32 b))

/-- `DIV`: `DivideByZero` first, then the overflow of `-2^31 / -1` as `DIV_OVERFLOW` has it, else remainder in `HI`
and quotient in `LO` (R114, R248) [8]. -/
def execDiv (rs rt : Reg) (s : State) (p : Parameters := .default) :
    Host.Outcome State Fault Refusal :=
  let n := s.x rs
  let m := s.x rt
  if m = 0 then .next (raise (.divideByZero (instructionAddress s)) s p)
  else if overflowDiv n m then
    match p.divOverflow with
    | .fault => .next (raise (.integerOverflow (instructionAddress s)) s p)
    | .wrap => .next (s.setHiLo 0 0x80000000)
  else .next (s.setHiLo (remainder n m) (quotient n m))

/-- `MFHI` (R115). -/
def execMfhi (rd : Reg) (s : State) (p : Parameters := .default) :
    Host.Outcome State Fault Refusal :=
  .next (writeReg rd s.hi s p)

/-- `MFLO` (R116). -/
def execMflo (rd : Reg) (s : State) (p : Parameters := .default) :
    Host.Outcome State Fault Refusal :=
  .next (writeReg rd s.lo s p)

/-- `AND` (R117). -/
def execAnd (rs rt rd : Reg) (s : State) (p : Parameters := .default) :
    Host.Outcome State Fault Refusal :=
  .next (writeReg rd (s.x rs &&& s.x rt) s p)

/-- `BOR` (R118). -/
def execBor (rs rt rd : Reg) (s : State) (p : Parameters := .default) :
    Host.Outcome State Fault Refusal :=
  .next (writeReg rd (s.x rs ||| s.x rt) s p)

/-- `NOR` (R119). -/
def execNor (rs rt rd : Reg) (s : State) (p : Parameters := .default) :
    Host.Outcome State Fault Refusal :=
  .next (writeReg rd (~~~(s.x rs ||| s.x rt)) s p)

/-- `XOR` (R120). -/
def execXor (rs rt rd : Reg) (s : State) (p : Parameters := .default) :
    Host.Outcome State Fault Refusal :=
  .next (writeReg rd (s.x rs ^^^ s.x rt) s p)

/-- `SLL`: zeros enter at bit 0, bits shifted past bit 31 are lost (R121) [7]. -/
def execSll (rt rd : Reg) (shift : Nat) (s : State) (p : Parameters := .default) :
    Host.Outcome State Fault Refusal :=
  .next (writeReg rd (s.x rt <<< shift) s p)

/-- `SRL`: a logical shift, zeros enter at bit 31 (R122). -/
def execSrl (rt rd : Reg) (shift : Nat) (s : State) (p : Parameters := .default) :
    Host.Outcome State Fault Refusal :=
  .next (writeReg rd (s.x rt >>> shift) s p)

/-- `JR`: `pc <- x[s]`, whatever its value; the invariant check comes at the end of the cycle (R123, R27). -/
def execJr (rs : Reg) (s : State) : Host.Outcome State Fault Refusal :=
  .next (s.setPc (s.x rs))

end Sys2Proof.Machine
end

