-- ==== Sys2Proof/Machine/Jump.lean ====
section
/-! DEFINITION. The jumps (spec R195 to R197): no delay slot, and every `PC` on a right side is the advanced one. -/

namespace Sys2Proof.Machine

/-- `JMP` (R196). -/
def execJmp (addr : BitVec 26) (s : State) : Host.Outcome State Fault Refusal :=
  .next (s.setPc (formAddress s.pc addr))

/-- `JAL`: the address after the `JAL` into `$ra`, then the jump (R197). -/
def execJal (addr : BitVec 26) (s : State) (p : Parameters := .default) :
    Host.Outcome State Fault Refusal :=
  .next ((writeReg Reg.ra s.pc s p).setPc (formAddress s.pc addr))

end Sys2Proof.Machine
end

