-- ==== Sys2Proof/Machine/LoadStore.lean ====
section
/-! DEFINITION. The loads and stores (spec R180 to R186): one addressing mode, base register `rs` plus a displacement
counted in words (R180); a load's destination and a store's source is `rt`. -/

namespace Sys2Proof.Machine

/-- `ea <- x[b] + formOffset(o)` (R180). -/
def accessAddress (base : Reg) (immed : BitVec 16) (s : State) : Word :=
  effectiveAddress (s.x base) immed

/-- A word loaded into a register, as `LW` and `FLW` do (R182, R183). -/
def loadWord (base rt : Reg) (immed : BitVec 16) (s : State) (p : Parameters := .default) :
    State :=
  writeRegOrRaise rt (memReadWord (accessAddress base immed s) s p) s p

/-- A register stored as a word, as `SW` and `FSW` do (R185, R186). -/
def storeWord (base rt : Reg) (immed : BitVec 16) (s : State) (p : Parameters := .default) :
    State :=
  memWriteWord (accessAddress base immed s) (s.x rt) s p

/-- `LBU`: one byte, zero-extended (R181). -/
def execLbu (rs rt : Reg) (immed : BitVec 16) (s : State) (p : Parameters := .default) :
    Host.Outcome State Fault Refusal :=
  .next (writeRegOrRaise rt ((memReadByte (accessAddress rs immed s) s p).map zeroExtByte) s p)

/-- `LW` (R182). -/
def execLw (rs rt : Reg) (immed : BitVec 16) (s : State) (p : Parameters := .default) :
    Host.Outcome State Fault Refusal :=
  .next (loadWord rs rt immed s p)

/-- `FLW`: the same effect as `LW` (R183) [30]. -/
def execFlw (rs rt : Reg) (immed : BitVec 16) (s : State) (p : Parameters := .default) :
    Host.Outcome State Fault Refusal :=
  .next (loadWord rs rt immed s p)

/-- `SB`: the least significant byte of `x[t]` (R184). -/
def execSb (rs rt : Reg) (immed : BitVec 16) (s : State) (p : Parameters := .default) :
    Host.Outcome State Fault Refusal :=
  .next (memWriteByte (accessAddress rs immed s) (byteOfWord 0 (s.x rt)) s p)

/-- `SW` (R185). -/
def execSw (rs rt : Reg) (immed : BitVec 16) (s : State) (p : Parameters := .default) :
    Host.Outcome State Fault Refusal :=
  .next (storeWord rs rt immed s p)

/-- `FSW`: the same effect as `SW` (R186) [30]. -/
def execFsw (rs rt : Reg) (immed : BitVec 16) (s : State) (p : Parameters := .default) :
    Host.Outcome State Fault Refusal :=
  .next (storeWord rs rt immed s p)

end Sys2Proof.Machine
end

