-- ==== Sys2Proof/Machine/Syscall.lean ====
section
/-! DEFINITION. The nine system calls (spec R205 to R219): performed by the VM within the instruction, reading `$a0`
at most and writing `$v0` at most (R208). -/

namespace Sys2Proof.Machine

/-- `EXIT`: `halt(0)` (R207). -/
def execExit (s : State) : Host.Outcome State Fault Refusal :=
  .next (haltNormally s)

/-- The address of the first byte `PSTR` cannot read, when no zero byte ends the string (R209). -/
def stringEnd (a : Word) : Word :=
  if u32 a < Config.memorySize then BitVec.ofNat 32 Config.memorySize else a

/-- `PSTR`: the bytes from `x[4]` before the first zero byte, and their count; an unterminated string is an
`AddressOutOfRange`, after a part of it that is a free value has been written (R209, D28) [23]. -/
def execPstr (s : State) (p : Parameters := .default) :
    Host.Outcome State Fault Refusal :=
  let a := s.x Reg.a0
  let r := s.mem.scanString (Config.memorySize - u32 a) (u32 a)
  if r.1 then .next (printText r.2 s p)
  else
    .next (raise (.addressOutOfRange (stringEnd a) 1)
      (outBytes (r.2.take (Config.freeLength s.draws)) s).nextDraw p)

/-- `PINT` (R210). -/
def execPint (s : State) (p : Parameters := .default) :
    Host.Outcome State Fault Refusal :=
  .next (printText (p.formatInt (s32 (s.x Reg.a0))) s p)

/-- `PFLT`, the one system call that treats its argument as a floating-point datum (R211, R208). -/
def execPflt (s : State) (p : Parameters := .default) :
    Host.Outcome State Fault Refusal :=
  .next (printText (p.formatFloat (s.x Reg.a0)) s p)

/-- `PCH`: the low byte is written and returned (R212) [24]. -/
def execPch (s : State) (p : Parameters := .default) :
    Host.Outcome State Fault Refusal :=
  let c := byteOfWord 0 (s.x Reg.a0)
  .next (writeReg Reg.v0 (zeroExtByte c) (outBytes [c] s) p)

/-- `RCH`: the next input byte, consumed, or `EOF_VALUE` at the end of input (R213, R205) [18]. -/
def execRch (s : State) (p : Parameters := .default) :
    Host.Outcome State Fault Refusal :=
  match s.stdin with
  | c :: rest => .next (writeReg Reg.v0 (zeroExtByte c) (s.setStdin rest) p)
  | [] => .next (writeReg Reg.v0 p.eofValue s p)

/-- `RFLT`: the number read from the input; where none is read, any value (R215) [19], and for `nan` any NaN (R140)
[13]. -/
def execRflt (s : State) (p : Parameters := .default) :
    Host.Outcome State Fault Refusal :=
  let r := p.parseFloat s.stdin
  match r.1 with
  | .datum v => .next (writeReg Reg.v0 v (s.setStdin r.2) p)
  | .nan => .next (writeFloat Reg.v0 none (s.setStdin r.2) p)
  | .nothing => .next (writeDraw Reg.v0 (s.setStdin r.2) p)

/-- `STRA` (R216). -/
def execStra (s : State) : Host.Outcome State Fault Refusal :=
  .next (s.setTracing true)

/-- `NOTR` (R217). -/
def execNotr (s : State) : Host.Outcome State Fault Refusal :=
  .next (s.setTracing false)

end Sys2Proof.Machine
end

