-- ==== Sys2Proof/Machine/Parametric.lean ====
section
/-! DEFINITION. The meaning of every instruction with the parameters of R8 as an argument: the same definitions that
`exec` calls, given the record `p` where they read a parameter. -/

namespace Sys2Proof.Machine

/-- What an instruction does on the machine with parameters `p` (R8, R91). -/
def execWith (p : Parameters) (i : Instr) (s : State) : Host.Outcome State Fault Refusal :=
  match i with
  | .add rs rt rd => execAdd rs rt rd s p
  | .fadd rs rt rd => execFadd rs rt rd s p
  | .sub rs rt rd => execSub rs rt rd s p
  | .fsub rs rt rd => execFsub rs rt rd s p
  | .mul rs rt => execMul rs rt s
  | .fmul rs rt rd => execFmul rs rt rd s p
  | .div rs rt => execDiv rs rt s p
  | .fdiv rs rt rd => execFdiv rs rt rd s p
  | .mfhi rd => execMfhi rd s p
  | .mflo rd => execMflo rd s p
  | .and rs rt rd => execAnd rs rt rd s p
  | .bor rs rt rd => execBor rs rt rd s p
  | .nor rs rt rd => execNor rs rt rd s p
  | .xor rs rt rd => execXor rs rt rd s p
  | .sll rt rd shift => execSll rt rd shift s p
  | .srl rt rd shift => execSrl rt rd shift s p
  | .cvt rt rd => execCvt rt rd s p
  | .rnd rt rd => execRnd rt rd s p
  | .jr rs => execJr rs s
  | .exit => execExit s
  | .pstr => execPstr s p
  | .pint => execPint s p
  | .pflt => execPflt s p
  | .pch => execPch s p
  | .rch => execRch s p
  | .rflt => execRflt s p
  | .stra => execStra s
  | .notr => execNotr s
  | .addi rs rt immed => execAddi rs rt immed s p
  | .andi rs rt immed => execAndi rs rt immed s p
  | .bori rs rt immed => execBori rs rt immed s p
  | .xori rs rt immed => execXori rs rt immed s p
  | .beq rs rt immed => execBeq rs rt immed s
  | .bgez rs immed => execBgez rs immed s
  | .bgtz rs immed => execBgtz rs immed s
  | .blez rs immed => execBlez rs immed s
  | .bltz rs immed => execBltz rs immed s
  | .bne rs rt immed => execBne rs rt immed s
  | .bfeq rs rt immed => execBfeq rs rt immed s p
  | .bfgz rs immed => execBfgz rs immed s p
  | .bfgtz rs immed => execBfgtz rs immed s p
  | .bflez rs immed => execBflez rs immed s p
  | .bfltz rs immed => execBfltz rs immed s p
  | .bfne rs rt immed => execBfne rs rt immed s p
  | .lbu rs rt immed => execLbu rs rt immed s p
  | .lw rs rt immed => execLw rs rt immed s p
  | .flw rs rt immed => execFlw rs rt immed s p
  | .sb rs rt immed => execSb rs rt immed s p
  | .sw rs rt immed => execSw rs rt immed s p
  | .fsw rs rt immed => execFsw rs rt immed s p
  | .jmp addr => execJmp addr s
  | .jal addr => execJal addr s p

end Sys2Proof.Machine
end

