-- ==== Sys2Proof/Machine/Trace.lean ====
section
/-! DEFINITION. The tracing output (spec R222 to R225): which items are produced and in which order. Tracing reads the
state and changes nothing but `stdout` (R225). -/

namespace Sys2Proof.Machine

/-- The non-zero bytes at addresses from `low` up to, not including, `high`. -/
def Memory.between (m : Memory) (low high : Nat) : List Host.Cell :=
  m.filter fun c => decide (low ≤ c.1 ∧ c.1 < high)

/-- A value shown only if it is not zero (R222); `HI` and `LO` are each shown or not by their own value, since R223 and
N20 leave open how they are shown when they are not both zero: DESIGN CHOICE [20]. -/
def shownIfNonzero (v : Word) : Option Word := if v = 0 then none else some v

/-- The non-zero bytes of the data section, which starts at `GPR[$gp]` and has the length the file gives it; "an empty
data section prints nothing" (C10), so that it is told from one of zeros. DESIGN CHOICE [20]: R222 gives the start of
this part and no end. -/
def dataShown (s : State) : Option (List Host.Cell) :=
  if s.dataLength = 0 then none
  else some (s.mem.between (u32 (s.x Reg.gp)) (u32 (s.x Reg.gp) + s.dataLength))

/-- The state block of a state (R222, R223, C10) [20]. -/
def stateBlock (s : State) : StateBlock where
  pc := s.pc
  hi := shownIfNonzero s.hi
  lo := shownIfNonzero s.lo
  regs := s.regs
  data := dataShown s
  stack := s.mem.between (u32 (s.x Reg.sp)) (u32 s.stackBottom + 4)
  bottom := (u32 s.stackBottom, s.mem.readWord (u32 s.stackBottom))

/-- The `==> addr:` line, governed by `tracing` before the instruction (R224). -/
def traceInstruction (addr : Word) (i : Instr) (s : State) : State :=
  if s.tracing then s.emit [.trace (.instruction addr i)] else s

/-- The state block, if tracing is on (R224). -/
def blocksShown (s : State) : List TraceItem :=
  if s.tracing then [.block (stateBlock s)] else []

/-- The blocks traced after an instruction: that of a machine that still runs, none after `EXIT` (R224), and after an
error what a free value says (N20) [20]. -/
def blocksAfter (s : State) : List TraceItem :=
  match s.status with
  | .running => blocksShown s
  | .halted exitCode => if exitCode ≠ 0 ∧ Config.traceBlockAfterError = true then blocksShown s else []

/-- What is traced after an instruction, governed by `tracing` as it now is (R224). -/
def traceAfter (s : State) : State :=
  s.emit ((blocksAfter s).map OutItem.trace)

end Sys2Proof.Machine
end

