-- ==== Sys2Proof/Machine/Cycle.lean ====
section
/-! DEFINITION. The machine cycle of a running machine (spec R28): fetch, advance `PC`, decode, execute, check the
invariants, with the tracing output around it (R224). What executes an instruction is an argument, `run`: `exec` for
the machine at the default parameters, `execWith` for any. -/

namespace Sys2Proof.Machine

/-- Steps 1 and 2 of the cycle: `IR` holds the fetched word, `PC` is the address of the next instruction (R28). -/
def advance (ir : Word) (s : State) : State :=
  { s with ir := ir, pc := s.pc + 4 }

/-- The end of the cycle: the invariant check (R28, R243), then the trace of the new state (R224). -/
def endCycle (s : State) (p : Parameters := .default) : State :=
  match p.invariantCheck with
  | .atBoundaries => traceAfter (checkInvariants s p)

/-- The end of the cycle on what an instruction answered. -/
def finish (o : Host.Outcome State Fault Refusal) (p : Parameters := .default) :
    Host.Outcome State Fault Refusal :=
  match o with
  | .next s => .next (endCycle s p)
  | .fault r => .fault r
  | .refused r => .refused r

/-- Step 3 of the cycle: the decoded instruction executed, or `IllegalInstruction` raised (R28, R244). `addr` is the
instruction's own address. -/
def execute (run : Instr → State → Host.Outcome State Fault Refusal) (addr ir : Word) (s : State)
    (p : Parameters := .default) : Host.Outcome State Fault Refusal :=
  match decodeWith p.fieldOrder ir with
  | .ok i => finish (run i (traceInstruction addr i s)) p
  | .error _ =>
    match p.illegalEncoding with
    | .fault => .next (traceAfter (raise (.illegalInstruction ir addr) s p))

/-- One machine cycle (R28). A fetch can raise only in a state that breaks the invariants (R60). -/
def cycle (run : Instr → State → Host.Outcome State Fault Refusal) (s : State) (p : Parameters := .default) :
    Host.Outcome State Fault Refusal :=
  match fetch s p with
  | .ok ir => execute run s.pc ir (advance ir s) p
  | .error e => .next (traceAfter (raise e s p))

/-- One step of a machine: a cycle while it runs, nothing once it has halted (R28, R240) [29]. -/
def stepOf (run : Instr → State → Host.Outcome State Fault Refusal) (s : State) (p : Parameters := .default) :
    Host.Outcome State Fault Refusal :=
  match s.status with
  | .running => cycle run s p
  | .halted exitCode => .fault (.halted exitCode)

/-- One step of the machine with parameters `p` (R8). -/
def stepWith (p : Parameters) (s : State) : Host.Outcome State Fault Refusal :=
  stepOf (execWith p) s p

/-- The machine with parameters `p` (R8), after the same reset: no value of the table of R36 is a parameter. -/
def machineWith (p : Parameters) : Host.Core where
  State := State
  Fault := Fault
  Refusal := Refusal
  step := stepWith p
  reset := State.reset

end Sys2Proof.Machine
end

