-- ==== Sys2Proof/Machine/Dispatch.lean ====
section
/-! DEFINITION. The meaning of every instruction (spec R91), one arm each. The state a meaning is given has its `PC`
already advanced past the instruction (R13, R28). -/

namespace Sys2Proof.Machine

def exec (i : Instr) (s : State) : Host.Outcome State Fault Refusal :=
  match i with
  | .add rs rt rd => Sys2Proof.Machine.execAdd rs rt rd s
  | .fadd rs rt rd => Sys2Proof.Machine.execFadd rs rt rd s
  | .sub rs rt rd => Sys2Proof.Machine.execSub rs rt rd s
  | .fsub rs rt rd => Sys2Proof.Machine.execFsub rs rt rd s
  | .mul rs rt => Sys2Proof.Machine.execMul rs rt s
  | .fmul rs rt rd => Sys2Proof.Machine.execFmul rs rt rd s
  | .div rs rt => Sys2Proof.Machine.execDiv rs rt s
  | .fdiv rs rt rd => Sys2Proof.Machine.execFdiv rs rt rd s
  | .mfhi rd => Sys2Proof.Machine.execMfhi rd s
  | .mflo rd => Sys2Proof.Machine.execMflo rd s
  | .and rs rt rd => Sys2Proof.Machine.execAnd rs rt rd s
  | .bor rs rt rd => Sys2Proof.Machine.execBor rs rt rd s
  | .nor rs rt rd => Sys2Proof.Machine.execNor rs rt rd s
  | .xor rs rt rd => Sys2Proof.Machine.execXor rs rt rd s
  | .sll rt rd shift => Sys2Proof.Machine.execSll rt rd shift s
  | .srl rt rd shift => Sys2Proof.Machine.execSrl rt rd shift s
  | .cvt rt rd => Sys2Proof.Machine.execCvt rt rd s
  | .rnd rt rd => Sys2Proof.Machine.execRnd rt rd s
  | .jr rs => Sys2Proof.Machine.execJr rs s
  | .exit => Sys2Proof.Machine.execExit s
  | .pstr => Sys2Proof.Machine.execPstr s
  | .pint => Sys2Proof.Machine.execPint s
  | .pflt => Sys2Proof.Machine.execPflt s
  | .pch => Sys2Proof.Machine.execPch s
  | .rch => Sys2Proof.Machine.execRch s
  | .rflt => Sys2Proof.Machine.execRflt s
  | .stra => Sys2Proof.Machine.execStra s
  | .notr => Sys2Proof.Machine.execNotr s
  | .addi rs rt immed => Sys2Proof.Machine.execAddi rs rt immed s
  | .andi rs rt immed => Sys2Proof.Machine.execAndi rs rt immed s
  | .bori rs rt immed => Sys2Proof.Machine.execBori rs rt immed s
  | .xori rs rt immed => Sys2Proof.Machine.execXori rs rt immed s
  | .beq rs rt immed => Sys2Proof.Machine.execBeq rs rt immed s
  | .bgez rs immed => Sys2Proof.Machine.execBgez rs immed s
  | .bgtz rs immed => Sys2Proof.Machine.execBgtz rs immed s
  | .blez rs immed => Sys2Proof.Machine.execBlez rs immed s
  | .bltz rs immed => Sys2Proof.Machine.execBltz rs immed s
  | .bne rs rt immed => Sys2Proof.Machine.execBne rs rt immed s
  | .bfeq rs rt immed => Sys2Proof.Machine.execBfeq rs rt immed s
  | .bfgz rs immed => Sys2Proof.Machine.execBfgz rs immed s
  | .bfgtz rs immed => Sys2Proof.Machine.execBfgtz rs immed s
  | .bflez rs immed => Sys2Proof.Machine.execBflez rs immed s
  | .bfltz rs immed => Sys2Proof.Machine.execBfltz rs immed s
  | .bfne rs rt immed => Sys2Proof.Machine.execBfne rs rt immed s
  | .lbu rs rt immed => Sys2Proof.Machine.execLbu rs rt immed s
  | .lw rs rt immed => Sys2Proof.Machine.execLw rs rt immed s
  | .flw rs rt immed => Sys2Proof.Machine.execFlw rs rt immed s
  | .sb rs rt immed => Sys2Proof.Machine.execSb rs rt immed s
  | .sw rs rt immed => Sys2Proof.Machine.execSw rs rt immed s
  | .fsw rs rt immed => Sys2Proof.Machine.execFsw rs rt immed s
  | .jmp addr => Sys2Proof.Machine.execJmp addr s
  | .jal addr => Sys2Proof.Machine.execJal addr s

end Sys2Proof.Machine
end

