-- ==== Sys2Proof/Machine/Step.lean ====
section
/-! DEFINITION. One step of the machine: a machine cycle while it runs, nothing once it has halted (spec R28, R240). -/

namespace Sys2Proof.Machine

/-- One step, of the machine whose parameters have their defaults (R28, R8): "A halted machine takes no further step and
its state no longer changes" (R240) [29]. -/
def step (s : State) : Host.Outcome State Fault Refusal :=
  stepOf exec s

/-- The state with an opcode-table word stored where `step` fetches its next instruction (R60). -/
def State.withFetchWord (s : State) (nbits w : Nat) : State :=
  placeAtPc (BitVec.ofNat 32 (w % 2 ^ nbits)) s

end Sys2Proof.Machine
end

