-- ==== Sys2Proof/Machine/Loader.lean ====
section
/-! DEFINITION. Starting the VM on a binary object file (spec R270 to R279): the file, its parsing, the load-time
conditions, the initial state, and the `-p` listing. -/

namespace Sys2Proof.Machine

/-- A binary object file as a record (R272). -/
structure Bof where
  /-- The entry point, the initial `PC` (C5). -/
  textStart : Word
  /-- The size of the text section in bytes. -/
  textLength : Word
  /-- The start of the data section, the initial `$gp`. -/
  dataStart : Word
  /-- The size of the int data in bytes. -/
  intsLength : Word
  /-- The size of the float data in bytes (C2). -/
  floatsLength : Word
  /-- The bottom of the runtime stack, the initial `$sp` and `$fp`. -/
  stackBottom : Word
  /-- The bytes of the text section. -/
  text : List Byte
  /-- The bytes of the data section, int data first. -/
  data : List Byte
deriving DecidableEq, Repr

/-- The size of the data section, `ints_length + floats_length`, not wrapped (R274, R275). -/
def Bof.dataLength (b : Bof) : Nat := u32 b.intsLength + u32 b.floatsLength

/-- Whether a load-time condition of R275 holds of a file taken as a record; `magic` and `readable` concern the
file itself (`Bof.parse`, `startFile`). -/
def LoadCondition.holds (c : LoadCondition) (b : Bof) : Bool :=
  match c with
  | .magic => true
  | .readable => true
  | .textLength => decide (u32 b.textLength % 4 = 0)
  | .dataStart => decide (u32 b.dataStart % 4 = 0)
  | .stackBottom => decide (u32 b.stackBottom % 4 = 0 ∧ u32 b.dataStart < u32 b.stackBottom)
  | .textStart => decide (u32 b.textStart % 4 = 0 ∧ u32 b.textStart < u32 b.dataStart)
  | .stackInMemory => decide (u32 b.stackBottom < Config.memorySize)
  | .sectionsFit =>
    decide (u32 b.textLength ≤ u32 b.dataStart ∧ u32 b.dataStart + b.dataLength ≤ Config.memorySize)
  | .fileLength => decide (b.text.length = u32 b.textLength ∧ b.data.length = b.dataLength)

/-- L1 to L8 in the order of R275. -/
def allLoadConditions : List LoadCondition :=
  [.magic, .textLength, .dataStart, .stackBottom, .textStart, .stackInMemory, .sectionsFit, .fileLength]

/-- The first load-time condition that fails (R270 step 1) [17]. -/
def firstUnmet (b : Bof) : Option LoadCondition :=
  allLoadConditions.find? fun c => !c.holds b

/-- The state before anything is loaded: memory, registers, `HI` and `LO` zero, tracing on, the input given (R270
steps 2, 5, 7). -/
def State.blank (input : List Byte) : State where
  regs := Vector.replicate 32 0
  pc := 0
  hi := 0
  lo := 0
  ir := 0
  mem := []
  tracing := true
  stdin := input
  stdout := []
  stderr := []
  status := .running
  stackBottom := 0
  dataLength := 0
  draws := 0

/-- The loaded state: both sections copied, `$gp`, `$sp`, `$fp` and `PC` set from the header (R270 steps 2 to 7, R273,
R274, R36). -/
def load (b : Bof) (input : List Byte) : State :=
  let s := State.blank input
  let mem := (Memory.writeBytes s.mem 0 b.text).writeBytes (u32 b.dataStart) b.data
  let s := ((s.setReg Reg.gp b.dataStart).setReg Reg.sp b.stackBottom).setReg Reg.fp b.stackBottom
  { (s.setMem mem).setPc b.textStart with stackBottom := b.stackBottom, dataLength := b.dataLength }

/-- A file that cannot be loaded: an error before any instruction, nothing on `stdout` (R276). The error is raised before
steps 2 to 7 of R270, so that the spec gives the halted machine no other values: that its registers, `PC`, `HI`, `LO` and
memory are zero, tracing on and the input untouched is a DESIGN CHOICE [40]. -/
def loadFailure (c : LoadCondition) (input : List Byte) (p : Parameters := .default) : State :=
  raise (.loadError c) (State.blank input) p

/-- `start(b, inp)`: the state before the first machine cycle, its invariants checked and its block traced (R270 steps
1 to 9, R224). -/
def start (b : Bof) (input : List Byte) (p : Parameters := .default) : State :=
  match firstUnmet b with
  | some c => loadFailure c input p
  | none => endCycle (load b input) p

/-- The words of a text section with their addresses and the instructions they decode to (R96, R226). A word that
matches no row of the opcode table is listed with no instruction and the listing goes on: DESIGN CHOICE [39], R96, R226
and R279 do not say what `-p` does with one, and the mode executes nothing that could raise `IllegalInstruction`. -/
def listText (addr : Nat) (text : List Byte) (p : Parameters := .default) : List ListedWord :=
  match text with
  | b0 :: b1 :: b2 :: b3 :: rest =>
    let w := wordOfBytes b0 b1 b2 b3
    { addr, word := w, instr := (decodeWith p.fieldOrder w).toOption } :: listText (addr + 4) rest p
  | _ => []

/-- What `-p` prints of a file (R226, R96). -/
def listing (b : Bof) (p : Parameters := .default) : OutItem :=
  .listing (listText 0 b.text p) b.dataStart (u32 b.intsLength) b.data

/-- The `-p` start: the load, the listing, and the exit with code 0, no instruction executed (R226, R279; the code is
decision D22) [21], also when a word of the text is no instruction [39]. -/
def startListing (b : Bof) (input : List Byte) (p : Parameters := .default) : State :=
  match firstUnmet b with
  | some c => loadFailure c input p
  | none => haltNormally ((load b input).emit [listing b p])

/-- The magic bytes `F`, `B`, `F` and a null (R271, C1). -/
def magicBytes : List Byte := [0x46, 0x42, 0x46, 0x00]

/-- The header's six addresses and lengths, each as `BOF_WORD` has it, and the sections after it (R271, R272) [17]. -/
def parseHeader (bs : List Byte) (p : Parameters := .default) : Option Bof := do
  let (textStart, bs) ← p.bofWord bs
  let (textLength, bs) ← p.bofWord bs
  let (dataStart, bs) ← p.bofWord bs
  let (intsLength, bs) ← p.bofWord bs
  let (floatsLength, bs) ← p.bofWord bs
  let (stackBottom, bs) ← p.bofWord bs
  let rest := bs.drop (u32 textLength)
  pure { textStart, textLength, dataStart, intsLength, floatsLength, stackBottom,
         text := bs.take (u32 textLength), data := rest.take (u32 intsLength + u32 floatsLength) }

/-- A file's bytes read as a binary object file (R271, R272): the magic checked (L1), the header whole (L8). -/
def Bof.parse (bs : List Byte) (p : Parameters := .default) : Except LoadCondition Bof :=
  if bs.take 4 ≠ magicBytes then .error .magic
  else
    match parseHeader (bs.drop 4) p with
    | some b => .ok b
    | none => .error .fileLength

/-- What a file holds, `none` being a file that cannot be read (R276). -/
def Bof.ofFile (file : Option (List Byte)) (p : Parameters := .default) : Except LoadCondition Bof :=
  match file with
  | some bs => Bof.parse bs p
  | none => .error .readable

/-- Starting the VM on a file (R226, R270, R276). -/
def startFile (file : Option (List Byte)) (input : List Byte) (p : Parameters := .default) : State :=
  match Bof.ofFile file p with
  | .ok b => start b input p
  | .error c => loadFailure c input p

/-- The `-p` start on a file (R226, R279). -/
def startFileListing (file : Option (List Byte)) (input : List Byte) (p : Parameters := .default) : State :=
  match Bof.ofFile file p with
  | .ok b => startListing b input p
  | .error c => loadFailure c input p

end Sys2Proof.Machine
end

