-- ==== Sys2Proof/Safety.lean ====
section
/-! DEFINITION. What counts as a sound state and a safe run (spec R33, R240, R246). -/

namespace Sys2Proof.Machine

/-- The state's own soundness: the memory canonical, register 0 stored as zero, and the invariants I1 to I11 true of a
machine that still runs (R33, R38). -/
structure State.Sound (s : State) : Prop where
  /-- The memory keeps its canonical form. -/
  memory : s.mem.wf
  /-- Register 0 never holds a value other than 0 (R23). -/
  zero : s.regs[(0 : Reg)] = 0
  /-- At every instruction boundary of a running machine no invariant is violated (R243). -/
  boundary : s.status = .running → firstViolated s = none

/-- The machine has met an error: it has halted with a non-zero exit code (R240, R246). -/
def State.Erred (s : State) : Prop := ∃ exitCode, s.status = .halted exitCode ∧ exitCode ≠ 0

/-- The machine has ended normally (R207, R240). -/
def State.EndedNormally (s : State) : Prop := s.status = .halted 0

/-- `s'` is reached from `s` by steps of the machine. -/
inductive Reaches : State → State → Prop where
  /-- By no step. -/
  | refl (s : State) : Reaches s s
  /-- By one step more. -/
  | step {s s' s'' : State} : Reaches s s' → Sys2Proof.Machine.step s' = .next s'' → Reaches s s''

/-- A run from `s` is safe: no state it reaches has met an error. -/
def SafeFrom (s : State) : Prop := ∀ s', Reaches s s' → ¬ s'.Erred

/-- A register write that is no error: register `d` holds `v` and nothing else changes; a zero written to register 0
changes nothing at all (R23). -/
def AnswersWrite (d : Reg) (v : Word) (s : State) (o : Host.Outcome State Fault Refusal) : Prop :=
  (d ≠ 0 → o = .next { s with regs := s.regs.set d v }) ∧ (d = 0 → v = 0 → o = .next s)

/-- What a floating-point operation with result `r` answers: the datum written, or for a NaN (`none`) some NaN pattern,
whichever the free value gives, and one draw more (R130, R140). -/
def AnswersFloat (d : Reg) (r : Option Word) (s : State) (o : Host.Outcome State Fault Refusal) : Prop :=
  (∀ v, r = some v → AnswersWrite d v s o) ∧
  (r = none → d ≠ 0 →
    ∃ v, f32IsNaN v = true ∧ o = .next { s with regs := s.regs.set d v, draws := s.draws + 1 })

/-- `w` is the value `±n / d`, in units of `2^-149`, rounded as R139 says: of that sign; an infinity exactly from halfway
past the largest finite datum up; else no finite datum has a nearer magnitude, and where one is as near, the fraction of
`w` is even. -/
def IsRounded (sign : Bool) (n d : Nat) (w : Word) : Prop :=
  f32Sign w = sign ∧ f32IsNaN w = false ∧
  (f32IsInf w = true ↔ (2 ^ 25 - 1) * 2 ^ 252 * d ≤ n) ∧
  (f32IsInf w = false → ∀ y : Word, f32IsNaN y = false → f32IsInf y = false →
    ((n : Int) - f32Units w * d).natAbs ≤ ((n : Int) - f32Units y * d).natAbs ∧
    (((n : Int) - f32Units w * d).natAbs = ((n : Int) - f32Units y * d).natAbs →
      f32Units y ≠ f32Units w → f32Fraction w % 2 = 0))

/-- `r` is the sum of `a` and a datum of `b`'s kind that has the sign `sb` and, if it is finite, the value `vb` (R139):
none, a NaN, for a NaN operand and for infinities of unlike signs only; an infinite operand itself; else the exact sum
rounded, an exact zero sum being `-0.0` only when both are negative. -/
def IsSum (r : Option Word) (a b : Word) (sb : Bool) (vb : Int) : Prop :=
  (r = none ↔ f32IsNaN a = true ∨ f32IsNaN b = true ∨ (f32IsInf a = true ∧ f32IsInf b = true ∧ f32Sign a ≠ sb)) ∧
  ∀ w, r = some w →
    (f32IsInf a = true → w = a) ∧
    (f32IsInf a = false → f32IsInf b = true → f32IsInf w = true ∧ f32Sign w = sb) ∧
    (f32IsInf a = false → f32IsInf b = false →
      (f32Value a + vb ≠ 0 → IsRounded (decide (f32Value a + vb < 0)) (f32Value a + vb).natAbs 1 w) ∧
      (f32Value a + vb = 0 → f32IsZero w = true ∧ f32Sign w = (f32Sign a && sb)))

/-- `r` is the product of `a` and `b` (R139): none, a NaN, for a NaN operand and for `0 * inf` only; of the exclusive-or
of the signs (R134); infinite where an operand is; else the exact product rounded. -/
def IsProduct (r : Option Word) (a b : Word) : Prop :=
  (r = none ↔ f32IsNaN a = true ∨ f32IsNaN b = true ∨
    (f32IsInf a = true ∧ f32IsZero b = true) ∨ (f32IsZero a = true ∧ f32IsInf b = true)) ∧
  ∀ w, r = some w →
    f32Sign w = (f32Sign a != f32Sign b) ∧
    (f32IsInf a = true ∨ f32IsInf b = true → f32IsInf w = true) ∧
    (f32IsInf a = false → f32IsInf b = false →
      IsRounded (f32Sign a != f32Sign b) (f32Units a * f32Units b) f32One w)

/-- `r` is the quotient of `a` and `b` (R139, R135): none, a NaN, for a NaN operand, `inf / inf` and `0 / 0` only; of the
exclusive-or of the signs; infinite for an infinite dividend or a zero divisor, zero for an infinite divisor; else the
exact quotient rounded. -/
def IsQuotient (r : Option Word) (a b : Word) : Prop :=
  (r = none ↔ f32IsNaN a = true ∨ f32IsNaN b = true ∨
    (f32IsInf a = true ∧ f32IsInf b = true) ∨ (f32IsZero a = true ∧ f32IsZero b = true)) ∧
  ∀ w, r = some w →
    f32Sign w = (f32Sign a != f32Sign b) ∧
    (f32IsInf a = true ∨ f32IsZero b = true → f32IsInf w = true) ∧
    (f32IsInf b = true → f32IsZero w = true) ∧
    (f32IsInf a = false → f32IsInf b = false → f32IsZero b = false →
      IsRounded (f32Sign a != f32Sign b) (f32Units a * f32One) (f32Units b) w)

/-- `n` is the finite datum `v` rounded to an integer (R137): none is nearer, and of two as near it is the one that
`RND_MODE` names. -/
def IsRoundedInteger (mode : Config.RndMode) (v : Word) (n : Int) : Prop :=
  2 * (n * f32One - f32Value v).natAbs ≤ f32One ∧
  (2 * (n * f32One - f32Value v).natAbs = f32One →
    match mode with
    | .halfAwayFromZero => (f32Value v).natAbs < (n * f32One).natAbs
    | .halfToEven => n % 2 = 0)

/-- Every byte is a decimal digit character. -/
def AreDigits (ds : List Byte) : Prop := ∀ b ∈ ds, 0x30 ≤ b.toNat ∧ b.toNat ≤ 0x39

/-- The number a text of decimal digits denotes. -/
def digitsValue (ds : List Byte) : Nat := ds.foldl (fun n b => 10 * n + (b.toNat - 0x30)) 0

/-- A text is the decimal digits of a number without leading zeros, a single `0` for zero (R210). -/
def IsDecimal (ds : List Byte) (n : Nat) : Prop :=
  ds ≠ [] ∧ AreDigits ds ∧ (ds.head? = some 0x30 → ds = [0x30]) ∧ digitsValue ds = n

/-- White space before a literal (R215), the bytes C's `isspace` names. -/
def AreSpaces (ws : List Byte) : Prop := ∀ b ∈ ws, b = 0x20 ∨ (0x09 ≤ b.toNat ∧ b.toNat ≤ 0x0D)

/-- The sign a literal may begin with, and whether it is a minus (R215). -/
def IsSign (t : List Byte) (negative : Bool) : Prop :=
  (t = [] ∧ negative = false) ∨ (t = [0x2B] ∧ negative = false) ∨ (t = [0x2D] ∧ negative = true)

/-- Every byte is a hexadecimal digit character, in either case. -/
def AreHexDigits (ds : List Byte) : Prop :=
  ∀ b ∈ ds, (0x30 ≤ b.toNat ∧ b.toNat ≤ 0x39) ∨ (0x41 ≤ b.toNat ∧ b.toNat ≤ 0x46) ∨ (0x61 ≤ b.toNat ∧ b.toNat ≤ 0x66)

/-- The number a text of hexadecimal digits denotes. -/
def hexDigitsValue (ds : List Byte) : Nat :=
  ds.foldl (fun n b => 16 * n +
    (if b.toNat ≤ 0x39 then b.toNat - 0x30 else if b.toNat ≤ 0x46 then b.toNat - 0x37 else b.toNat - 0x57)) 0

/-- The exponent part of a literal (R215): nothing, or its letter in either case, a sign and digits. -/
def IsExponent (letter : Byte) (t : List Byte) (e : Int) : Prop :=
  (t = [] ∧ e = 0) ∨
  ∃ (c : Byte) (sign digits : List Byte) (negative : Bool),
    (c = letter ∨ c + 0x20 = letter) ∧ IsSign sign negative ∧ digits ≠ [] ∧ AreDigits digits ∧
    t = c :: (sign ++ digits) ∧ e = if negative then -(digitsValue digits : Int) else (digitsValue digits : Int)

/-- The period of a literal and the digits after it: both absent, or a period and any digits. -/
def IsFractionPart (t fs : List Byte) : Prop := (t = [] ∧ fs = []) ∨ t = 0x2E :: fs

/-- A decimal literal (R215), its sign, and its magnitude `n / d`: an optional sign, digits with an optional period, an
optional exponent of ten. -/
def IsDecimalLiteral (t : List Byte) (negative : Bool) (n d : Nat) : Prop :=
  ∃ (sign ds fs tail ex : List Byte) (e : Int),
    IsSign sign negative ∧ AreDigits ds ∧ AreDigits fs ∧ ds ++ fs ≠ [] ∧ IsFractionPart tail fs ∧
    IsExponent 0x65 ex e ∧ t = sign ++ ds ++ tail ++ ex ∧
    n = digitsValue (ds ++ fs) * 10 ^ e.toNat ∧ d = 10 ^ (fs.length + (-e).toNat)

/-- A hexadecimal literal (R215), its sign, and its magnitude `n / d`: an optional sign, `0x`, hexadecimal digits with an
optional period, an optional exponent of two. -/
def IsHexLiteral (t : List Byte) (negative : Bool) (n d : Nat) : Prop :=
  ∃ (sign ds fs tail ex : List Byte) (x : Byte) (e : Int),
    IsSign sign negative ∧ (x = 0x78 ∨ x = 0x58) ∧ AreHexDigits ds ∧ AreHexDigits fs ∧ ds ++ fs ≠ [] ∧
    IsFractionPart tail fs ∧ IsExponent 0x70 ex e ∧ t = sign ++ [0x30, x] ++ ds ++ tail ++ ex ∧
    n = hexDigitsValue (ds ++ fs) * 2 ^ e.toNat ∧ d = 2 ^ (4 * fs.length + (-e).toNat)

/-- What follows a decimal literal does not go on with it: the end of input, or a byte that is no digit and none of
`.eExX`. -/
def EndsDecimal (rest : List Byte) : Prop :=
  ∀ b ∈ rest.head?, ¬ AreDigits [b] ∧ b ∉ ([0x2E, 0x65, 0x45, 0x78, 0x58] : List Byte)

/-- What follows a hexadecimal literal does not go on with it: the end of input, or a byte that is no hexadecimal digit
and none of `.pP`. -/
def EndsHex (rest : List Byte) : Prop :=
  ∀ b ∈ rest.head?, ¬ AreHexDigits [b] ∧ b ∉ ([0x2E, 0x70, 0x50] : List Byte)

/-- A text is a word in any case, the word being given in lower case. -/
def InAnyCase (t word : List Byte) : Prop := List.Forall₂ (fun b c => b = c ∨ b + 0x20 = c) t word

/-- An error raised and nothing else changed: a message on `stderr`, a non-zero exit code (R246, R247). -/
def AnswersError (e : MachineError) (s : State) (o : Host.Outcome State Fault Refusal) : Prop :=
  o = .next { s with stderr := s.stderr ++ [e], status := .halted Params.errorExitCode }

/-- The machine either has no new error and the status it had, or has halted with one error more. -/
def AtMostOneError (s t : State) : Prop :=
  (t.stderr = s.stderr ∧ t.status = s.status) ∨
  ∃ e, t.stderr = s.stderr ++ [e] ∧ t.status = .halted Params.errorExitCode

/-- Every general register but those in `ds` reads as before, and register 0's storage is untouched. -/
def RegistersKept (ds : List Reg) (s t : State) : Prop :=
  (∀ r, r ∉ ds → t.x r = s.x r) ∧ t.regs[(0 : Reg)] = s.regs[(0 : Reg)]

/-- Every byte of memory reads as before. -/
def MemoryKept (s t : State) : Prop := ∀ a, t.mem.read a = s.mem.read a

/-- `HI` and `LO` are as before. -/
def HiLoKept (s t : State) : Prop := t.hi = s.hi ∧ t.lo = s.lo

/-- The streams and the tracing switch are as before. -/
def StreamsKept (s t : State) : Prop :=
  t.stdin = s.stdin ∧ t.stdout = s.stdout ∧ t.tracing = s.tracing

/-- The general register an instruction that writes one through its encoding names, if it writes one. -/
def destination (i : Instr) : Option Reg :=
  match i with
  | .add _ _ d | .sub _ _ d | .and _ _ d | .bor _ _ d | .nor _ _ d | .xor _ _ d => some d
  | .fadd _ _ d | .fsub _ _ d | .fmul _ _ d | .fdiv _ _ d => some d
  | .sll _ d _ | .srl _ d _ | .cvt _ d | .rnd _ d | .mfhi d | .mflo d => some d
  | .addi _ t _ | .andi _ t _ | .bori _ t _ | .xori _ t _ => some t
  | .lbu _ t _ | .lw _ t _ | .flw _ t _ => some t
  | _ => none

/-- Two states that differ at most in what tracing leaves behind: the switch and the trace on `stdout` (R225). -/
structure SameButTracing (s t : State) : Prop where
  /-- The general registers agree. -/
  regs : t.regs = s.regs
  /-- `PC` agrees. -/
  pc : t.pc = s.pc
  /-- `HI` and `LO` agree. -/
  hiLo : HiLoKept s t
  /-- `IR` agrees. -/
  ir : t.ir = s.ir
  /-- The memory agrees. -/
  mem : t.mem = s.mem
  /-- The input left agrees. -/
  stdin : t.stdin = s.stdin
  /-- The program's output agrees. -/
  out : t.out = s.out
  /-- The error messages agree. -/
  stderr : t.stderr = s.stderr
  /-- The status, and so the exit code, agrees. -/
  status : t.status = s.status
  /-- The file's stack bottom agrees. -/
  stackBottom : t.stackBottom = s.stackBottom
  /-- The length of the file's data section agrees. -/
  dataLength : t.dataLength = s.dataLength
  /-- The free values drawn agree. -/
  draws : t.draws = s.draws

/-- Two outcomes of the same kind, with next states related. -/
def OutcomesRelated (r : State → State → Prop) (o o' : Host.Outcome State Fault Refusal) : Prop :=
  match o, o' with
  | .next s, .next s' => r s s'
  | .fault f, .fault f' => f = f'
  | .refused f, .refused f' => f = f'
  | _, _ => False

end Sys2Proof.Machine
end

