-- ==== Sys2Proof/Certificates/Slice0/Obligations.lean ====
section
/-! DEFINITION. The statements for the provers, each a rule of spec/ or a consequence of several, by family. -/

open Sys2Proof Sys2Proof.Machine

/-! ## Encoding -/

/-- Decoding the word of a well-formed instruction gives the instruction back (R90, R91, R98): no bit of an operand is
lost, at any value its field admits. -/
def Obligations.DecodeOfEncodeIsTheInstruction : Prop :=
  ∀ i : Instr, i.WellFormed = true → decode (encode i) = .ok i

/-- Every word the decoder accepts is a well-formed instruction (R81, R90). -/
def Obligations.DecodedInstructionsAreWellFormed : Prop :=
  ∀ (w : Word) (i : Instr), decode w = .ok i → i.WellFormed = true

/-- The decoder agrees with spec/opcode_table.json (R91): an accepted word selects exactly one row, the one with the
instruction's mnemonic, and a refused word selects none (R90, R97). Words that select no row are refused by the spec's
decision D4, log entry [4]; the rows stand for `FIELD_ORDER = msb_first`, log entry [1]. -/
def Obligations.DecoderAgreesWithTheOpcodeTable : Prop :=
  ∀ w : Word,
    (∀ i, decode w = .ok i →
      ∃ r ∈ opcodeRows, r.mnemonic = i.mnemonic ∧ r.selectedBy w = true ∧
        ∀ r' ∈ opcodeRows, r'.selectedBy w = true → r' = r) ∧
    ((∃ e, decode w = .error e) → ∀ r ∈ opcodeRows, r.selectedBy w = false)

/-- R98: the fields the tables show as "-" do not matter, whatever they hold; the 20 bits of a system call do; and the
encoder emits 0 in an ignored field. -/
def Obligations.DashFieldsDoNotMatter : Prop :=
  (∀ (rs rt rd : Reg) (h h' : Nat), ∀ f ∈ ([4, 5, 16, 18, 25, 27, 33, 35, 36, 37, 38, 39, 41, 43, 49, 51] : List (BitVec 6)),
    decode (registerWord fieldOrder rs rt rd h f) = decode (registerWord fieldOrder rs rt rd h' f)) ∧
  (∀ (rs rt rd rd' : Reg) (h : Nat), ∀ f ∈ ([25, 27] : List (BitVec 6)),
    decode (registerWord fieldOrder rs rt rd h f) = decode (registerWord fieldOrder rs rt rd' h f)) ∧
  (∀ (rs rs' rt rt' rd : Reg) (h : Nat), ∀ f ∈ ([16, 18] : List (BitVec 6)),
    decode (registerWord fieldOrder rs rt rd h f) = decode (registerWord fieldOrder rs' rt' rd h f)) ∧
  (∀ (rs rs' rt rd : Reg) (h : Nat), ∀ f ∈ ([0, 3, 4, 5] : List (BitVec 6)),
    decode (registerWord fieldOrder rs rt rd h f) = decode (registerWord fieldOrder rs' rt rd h f)) ∧
  (∀ c c' : BitVec 20, decode (serviceWord fieldOrder c) = decode (serviceWord fieldOrder c') → c = c') ∧
  (∀ (rs rt rd : Reg) (h : Nat),
    encode (.add rs rt rd) = registerWord fieldOrder rs rt rd 0 33 ∧
    encode (.sub rs rt rd) = registerWord fieldOrder rs rt rd 0 35 ∧
    encode (.and rs rt rd) = registerWord fieldOrder rs rt rd 0 36 ∧
    encode (.bor rs rt rd) = registerWord fieldOrder rs rt rd 0 37 ∧
    encode (.xor rs rt rd) = registerWord fieldOrder rs rt rd 0 38 ∧
    encode (.nor rs rt rd) = registerWord fieldOrder rs rt rd 0 39 ∧
    encode (.fmul rs rt rd) = registerWord fieldOrder rs rt rd 0 41 ∧
    encode (.fdiv rs rt rd) = registerWord fieldOrder rs rt rd 0 43 ∧
    encode (.fadd rs rt rd) = registerWord fieldOrder rs rt rd 0 49 ∧
    encode (.fsub rs rt rd) = registerWord fieldOrder rs rt rd 0 51 ∧
    encode (.mul rs rt) = registerWord fieldOrder rs rt 0 0 25 ∧
    encode (.div rs rt) = registerWord fieldOrder rs rt 0 0 27 ∧
    encode (.mfhi rd) = registerWord fieldOrder 0 0 rd 0 16 ∧
    encode (.mflo rd) = registerWord fieldOrder 0 0 rd 0 18 ∧
    encode (.sll rt rd h) = registerWord fieldOrder 0 rt rd h 0 ∧
    encode (.srl rt rd h) = registerWord fieldOrder 0 rt rd h 3 ∧
    encode (.cvt rt rd) = registerWord fieldOrder 0 rt rd 0 4 ∧
    encode (.rnd rt rd) = registerWord fieldOrder 0 rt rd 0 5)

/-- Words written out in the rules of the instructions decode to them, one or more of each format: sanity. -/
def Obligations.WrittenWordsDecode : Prop :=
  decode 0x01095021 = .ok (.add 8 9 10) ∧ decode 0x0109001B = .ok (.div 8 9) ∧
  decode 0x00095103 = .ok (.srl 9 10 4) ∧ decode 0x03E00008 = .ok (.jr 31) ∧
  decode 0x01095033 = .ok (.fsub 8 9 10) ∧ decode 0x2508FFFF = .ok (.addi 8 8 0xFFFF) ∧
  decode 0x05010002 = .ok (.bgez 8 2) ∧ decode 0x5509FFFE = .ok (.bfne 8 9 0xFFFE) ∧
  decode 0xAFA8FFFF = .ok (.sw 29 8 0xFFFF) ∧ decode 0x0C000005 = .ok (.jal 5) ∧
  decode 0x0000400C = .ok .stra

/-- The operand forms are the numbers R86 to R89 say: sign extension keeps the signed value, zero extension the unsigned
one, an offset is four times its signed field, a jump address keeps the high four bits of the `PC`; with the manual's
own examples. -/
def Obligations.OperandFormsAreTheirNumbers : Prop :=
  (∀ i : BitVec 16, (sgnExt i).toInt = i.toInt ∧ (zeroExt i).toNat = i.toNat ∧
    (formOffset i).toInt = 4 * i.toInt ∧ formOffset i = w32 (4 * i.toInt)) ∧
  (∀ b : Byte, (zeroExtByte b).toNat = b.toNat) ∧
  (∀ (p : Word) (a : BitVec 26), (formAddress p a).toNat = p.toNat / 2 ^ 28 * 2 ^ 28 + 4 * a.toNat) ∧
  sgnExt 0xFFFF = 0xFFFFFFFF ∧ zeroExt 0xFFFF = 0x0000FFFF ∧ formAddress 0xFFFACADE 0xDECADE = 0xF37B2B78

/-! ## Memory -/

/-- Bytes and words see the same memory, little-endian (R52, R53): a word stored is read back whole and byte by byte, a
byte stored changes its byte of the word, and nothing outside the bytes stored changes. -/
def Obligations.MixedWidthAccesses : Prop :=
  ∀ (m : Memory) (a : Nat) (v : Word) (k : Nat) (c : Byte), k < 4 →
    (m.writeWord a v).readWord a = v ∧
    (m.writeWord a v).read (a + k) = byteOfWord k v ∧
    (∀ b, (b < a ∨ a + 4 ≤ b) → (m.writeWord a v).read b = m.read b) ∧
    byteOfWord k ((m.write (a + k) c).readWord a) = c ∧
    (∀ j < 4, j ≠ k → byteOfWord j ((m.write (a + k) c).readWord a) = byteOfWord j (m.readWord a))

/-- The canonical form is canonical: two memories in it that read alike everywhere are the same data (R50). -/
def Obligations.CanonicalMemoriesThatReadAlikeAreEqual : Prop :=
  ∀ m m' : Memory, m.wf → m'.wf → (∀ a, m.read a = m'.read a) → m = m'

/-- R55 with `MISALIGNED_WORD_ACCESS = fault` (decisions D5, D6, log entries [5] and [6]): the range is checked first, then
the alignment of a word; a valid access raises nothing. -/
def Obligations.AccessChecksInOrder : Prop :=
  ∀ addr : Word,
    (65531 < u32 addr → accessError addr 1 = some (.addressOutOfRange addr 1)) ∧
    (u32 addr ≤ 65531 → accessError addr 1 = none) ∧
    (65528 < u32 addr → accessError addr 4 = some (.addressOutOfRange addr 4)) ∧
    (u32 addr ≤ 65528 → u32 addr % 4 ≠ 0 → accessError addr 4 = some (.misalignedAccess addr)) ∧
    (u32 addr ≤ 65528 → u32 addr % 4 = 0 → accessError addr 4 = none)

/-! ## The machine cycle -/

/-- A step runs the decoded instruction (R28): `IR` holds the fetched word, the `PC` is advanced, the `==> addr:` line is
traced if tracing is on, the instruction is executed, and on its next state the invariants are checked and the block
traced. -/
def Obligations.StepRunsTheDecodedInstruction : Prop :=
  ∀ (s t : State) (w : Word) (i : Instr), s.status = .running → fetch s = .ok w → decode w = .ok i →
    exec i (traceInstruction s.pc i { s with ir := w, pc := s.pc + 4 }) = .next t →
    step s = .next (traceAfter (checkInvariants t))

/-- A word that is no instruction halts the machine with `IllegalInstruction`, the `PC` advanced and nothing executed
(R28, R244; decision D4, log entry [4]). That such a word traces no `==> addr:` line, and that a state block may or may not
follow the error, are the model's choices of log entry [20]. -/
def Obligations.IllegalWordsHaltTheMachine : Prop :=
  ∀ (s : State) (w : Word) (e : DecodeError), s.status = .running → fetch s = .ok w → decode w = .error e →
    step s = .next (traceAfter { s with
      ir := w, pc := s.pc + 4, stderr := s.stderr ++ [.illegalInstruction w s.pc],
      status := .halted Params.errorExitCode })

/-- R240: a halted machine takes no step, and there are exactly two ways to halt: `EXIT`, with code 0 and no error, or one
error, with a non-zero code. -/
def Obligations.TheMachineHaltsInExactlyTwoWays : Prop :=
  (∀ (s t : State) (code : Nat), s.status = .halted code → step s ≠ .next t) ∧
  (∀ (s t : State) (code : Nat), step s = .next t → t.status = .halted code →
    (code = 0 ∧ t.stderr = s.stderr ∧ ∃ w, fetch s = .ok w ∧ decode w = .ok .exit) ∨
    (code ≠ 0 ∧ ∃ e, t.stderr = s.stderr ++ [e]))

/-- Every instruction answers a next state in every state, and a running machine always has a next step (R28, R240):
nothing is stuck, refused or faulting. -/
def Obligations.ARunningMachineAlwaysSteps : Prop :=
  (∀ (i : Instr) (s : State), ∃ t, exec i s = .next t) ∧
  (∀ s : State, s.status = .running → ∃ t, step s = .next t)

/-- Every step keeps a state sound: the memory canonical, register 0 zero, and the invariants I1 to I11 true whenever the
machine still runs (R33, R243). -/
def Obligations.EveryStepKeepsTheStateSound : Prop :=
  ∀ s t : State, s.Sound → step s = .next t → t.Sound

/-- The state after reset is sound (R36: "The initial state must itself satisfy the invariants"); its header values are
the model's choice, log entry [26]. -/
def Obligations.ResetIsSound : Prop :=
  State.reset.Sound

/-- Starting the VM. On any file taken as a record, and any input, the state is sound: the load-time conditions imply the
invariants (R270 step 8, R275), and a file that breaks one leaves a halted machine with one `LoadError` and nothing on
`stdout` (R276; decision D25, log entry [17]). On a file's bytes: one that cannot be read, one that does not begin with
`46 42 46 00` (L1; decision D27) and one with no whole header are such errors, with `-p` or without; a header and its
sections are read as the record of R271 and R272 (`BOF_WORD` at its default, decision D18, log entry [17]). And `-p`
performs the load, prints the listing and exits with code 0 (R279; the code is decision D22, log entry [21]): of a text of
instructions the header line and a line for each, its address and its assembly form (R94, R96, R226). The assembly forms
are decision D24, log entry [38]; the two spaces and the newline of a line are the model's choice, log entry [39]. That
a machine halted by a `LoadError` is sound rests on the memory and registers the model gives it, log entry [40]. -/
def Obligations.StartIsSoundOrRefusesTheFile : Prop :=
  (∀ (b : Bof) (input : List Byte),
    (start b input).Sound ∧
    (firstUnmet b = none → (start b input).status = .running) ∧
    (∀ c, firstUnmet b = some c →
      (start b input).status = .halted Params.errorExitCode ∧ (start b input).stderr = [.loadError c] ∧
      (start b input).stdout = [] ∧ startListing b input = start b input)) ∧
  (∀ (file : Option (List Byte)) (input : List Byte) (c : LoadCondition),
    ((file = none ∧ c = .readable) ∨
      (∃ bs, file = some bs ∧ bs.take 4 ≠ [0x46, 0x42, 0x46, 0x00] ∧ c = .magic) ∨
      (∃ bs, file = some bs ∧ bs.take 4 = [0x46, 0x42, 0x46, 0x00] ∧ bs.length < 28 ∧ c = .fileLength)) →
    (startFile file input).Sound ∧ startFileListing file input = startFile file input ∧
    (startFile file input).status = .halted Params.errorExitCode ∧
    (startFile file input).stderr = [.loadError c] ∧ (startFile file input).stdout = []) ∧
  (∀ (b : Bof) (after input : List Byte),
    b.text.length = u32 b.textLength → b.data.length = u32 b.intsLength + u32 b.floatsLength →
    ∀ file, file = [0x46, 0x42, 0x46, 0x00] ++ bytesOfWord b.textStart ++ bytesOfWord b.textLength ++
      bytesOfWord b.dataStart ++ bytesOfWord b.intsLength ++ bytesOfWord b.floatsLength ++ bytesOfWord b.stackBottom ++
      b.text ++ b.data ++ after →
    startFile (some file) input = start b input ∧ startFileListing (some file) input = startListing b input) ∧
  (∀ (b : Bof) (input : List Byte) (is : List Instr), firstUnmet b = none →
    (∃ item, startListing b input = { load b input with stdout := [item], status := .halted 0 }) ∧
    ((∀ i ∈ is, i.WellFormed = true) → b.text = is.flatMap (fun i => bytesOfWord (encode i)) → b.data = [] →
      (startListing b input).stdoutBytes = asmLine "Addr  Instruction" ++
        is.zipIdx.flatMap fun ik => asmLine (toString (4 * ik.2) ++ "  " ++ assembly ik.1)))

/-- In a sound state of a running machine the fetch never raises (R60). -/
def Obligations.FetchSucceedsInSoundStates : Prop :=
  ∀ s : State, s.Sound → s.status = .running → fetch s = .ok (s.mem.readWord (u32 s.pc))

/-- The eleven invariants together are the unsigned conditions of R34, register 0 stored as zero (R33, R34). The one
reported is the first violated in the order I1 to I11, registers read as signed numbers, and the check is made on a
machine that still runs: it changes nothing where none is violated or the machine has halted, and else raises
`InvariantViolation` of that one (R243; order, reading and time are decision D3, log entry [3]). -/
def Obligations.InvariantsAreTheUnsignedConditions : Prop :=
  (∀ s : State, firstViolated s = none ↔
    s.regs[(0 : Reg)] = 0 ∧ u32 s.pc % 4 = 0 ∧ u32 s.pc ≤ 65528 ∧
    u32 (s.x Reg.gp) % 4 = 0 ∧ u32 (s.x Reg.sp) % 4 = 0 ∧ u32 (s.x Reg.fp) % 4 = 0 ∧
    u32 (s.x Reg.gp) < u32 (s.x Reg.sp) ∧ u32 (s.x Reg.sp) ≤ u32 (s.x Reg.fp) ∧ u32 (s.x Reg.fp) ≤ 65528) ∧
  (∀ s : State, firstViolated s =
    if u32 s.pc % 4 ≠ 0 then some .pcAligned
    else if u32 (s.x Reg.gp) % 4 ≠ 0 then some .gpAligned
    else if u32 (s.x Reg.sp) % 4 ≠ 0 then some .spAligned
    else if u32 (s.x Reg.fp) % 4 ≠ 0 then some .fpAligned
    else if s32 (s.x Reg.gp) < 0 then some .gpNonneg
    else if s32 (s.x Reg.sp) ≤ s32 (s.x Reg.gp) then some .gpBelowSp
    else if s32 (s.x Reg.fp) < s32 (s.x Reg.sp) then some .spAtMostFp
    else if 65532 ≤ s32 (s.x Reg.fp) then some .fpInMemory
    else if s32 s.pc < 0 then some .pcNonneg
    else if 65532 ≤ s32 s.pc then some .pcInMemory
    else if s.regs[(0 : Reg)] ≠ 0 then some .zeroRegister
    else none) ∧
  (∀ s : State, (s.status ≠ .running ∨ firstViolated s = none) → checkInvariants s = s) ∧
  (∀ (s : State) (k : Invariant), s.status = .running → firstViolated s = some k →
    checkInvariants s = { s with
      stderr := s.stderr ++ [.invariantViolation k], status := .halted Params.errorExitCode })

/-- R246: error entry appends a message to `stderr` and halts with some non-zero code, and does nothing else. -/
def Obligations.ErrorEntryReportsAndHalts : Prop :=
  ∀ (e : MachineError) (s : State),
    raise e s = { s with stderr := s.stderr ++ [e], status := .halted Params.errorExitCode } ∧
    Params.errorExitCode ≠ 0 ∧
    (raise e s).stderrBytes = s.stderrBytes ++ Config.errorMessage e

/-- Tracing changes nothing (R225): two states that differ at most in the switch and the trace step to states that differ
at most in these, with the same registers, memory, `PC`, `HI`, `LO`, input, program output and exit code. -/
def Obligations.TracingChangesNothingElse : Prop :=
  ∀ s s' : State, SameButTracing s s' → OutcomesRelated SameButTracing (step s) (step s')

/-- What a step traces (R224): the line of the instruction if tracing was on before it, and the block of the state after
it if the machine still runs and tracing is on then; after an error, one block more or none, as the free value of log
entry [20] says (N20). The block holds the `PC`, the registers, `HI` and `LO` if they are not zero, the non-zero bytes of
the data section from `$gp`, absent where the file has none (C10), those from `$sp` through the word at the stack bottom,
and that word (R222); what R222 leaves open of it is the model's choice, log entry [20]. -/
def Obligations.StepTracesTheInstructionAndTheState : Prop :=
  (∀ (s t : State) (w : Word) (i : Instr), s.status = .running → fetch s = .ok w → decode w = .ok i →
    step s = .next t →
    ∃ blocks, t.trace = s.trace ++ (if s.tracing = true then [.instruction s.pc i] else []) ++ blocks ∧
      (t.status = .running → blocks = if t.tracing = true then [.block (stateBlock t)] else []) ∧
      (t.status = .halted 0 → blocks = []) ∧
      (blocks = [] ∨ blocks = [.block (stateBlock t)])) ∧
  (∀ s : State, s.mem.wf →
    (stateBlock s).pc = s.pc ∧ (stateBlock s).regs = s.regs ∧
    (stateBlock s).hi = (if s.hi = 0 then none else some s.hi) ∧
    (stateBlock s).lo = (if s.lo = 0 then none else some s.lo) ∧
    (s.dataLength = 0 → (stateBlock s).data = none) ∧
    (s.dataLength ≠ 0 → ∃ cells, (stateBlock s).data = some cells ∧
      ∀ (a : Nat) (b : Byte), (a, b) ∈ cells ↔
        u32 (s.x Reg.gp) ≤ a ∧ a < u32 (s.x Reg.gp) + s.dataLength ∧ s.mem.read a = b ∧ b ≠ 0) ∧
    (∀ (a : Nat) (b : Byte), (a, b) ∈ (stateBlock s).stack ↔
      u32 (s.x Reg.sp) ≤ a ∧ a < u32 s.stackBottom + 4 ∧ s.mem.read a = b ∧ b ≠ 0) ∧
    (stateBlock s).bottom = (u32 s.stackBottom, s.mem.readWord (u32 s.stackBottom)))

/-- The streams only grow and the input is only consumed (R32, R205): a step appends to `stdout`, appends at most one
message to `stderr` (R248), and leaves an end part of `stdin`. -/
def Obligations.StepsAppendOutputAndConsumeInput : Prop :=
  ∀ s t : State, step s = .next t →
    s.stdout <+: t.stdout ∧ t.stdin <:+ s.stdin ∧ (t.stderr = s.stderr ∨ ∃ e, t.stderr = s.stderr ++ [e])

/-- A word stored is the word fetched from that address afterwards, with nothing in between (R66; decision D17, log entry
[16]). -/
def Obligations.StoredWordsAreFetched : Prop :=
  ∀ (s t : State) (rs rt : Reg) (o : BitVec 16),
    u32 (s.x rs + formOffset o) ≤ 65528 → u32 (s.x rs + formOffset o) % 4 = 0 →
    exec (.sw rs rt o) s = .next t →
    fetch { t with pc := s.x rs + formOffset o } = .ok (s.x rt)

/-! ## Frames -/

/-- An instruction with a destination register changes that register alone (Tables 3 and 4): ADD, SUB, AND, BOR, NOR, XOR,
FADD, FSUB, FMUL, FDIV, SLL, SRL, CVT, RND, MFHI, MFLO, ADDI, ANDI, BORI, XORI, LBU, LW, FLW; an error adds its message
and halts. -/
def Obligations.RegisterInstructionsChangeTheirDestinationOnly : Prop :=
  ∀ (i : Instr) (d : Reg) (s t : State), destination i = some d → exec i s = .next t →
    RegistersKept [d] s t ∧ MemoryKept s t ∧ HiLoKept s t ∧ StreamsKept s t ∧ AtMostOneError s t ∧
    t.pc = s.pc ∧ t.ir = s.ir ∧ t.stackBottom = s.stackBottom ∧ t.dataLength = s.dataLength

/-- MUL and DIV change `HI` and `LO` alone, no general register (R113, R114). -/
def Obligations.MultiplyAndDivideChangeHiAndLoOnly : Prop :=
  ∀ (i : Instr) (s t : State), (∃ rs rt, i = .mul rs rt ∨ i = .div rs rt) → exec i s = .next t →
    RegistersKept [] s t ∧ MemoryKept s t ∧ StreamsKept s t ∧ AtMostOneError s t ∧
    t.pc = s.pc ∧ t.ir = s.ir ∧ t.stackBottom = s.stackBottom ∧ t.dataLength = s.dataLength ∧ t.draws = s.draws

/-- The twelve branches, JMP and JR change the `PC` alone, JAL also `$ra` (R160, R195 to R197, R123). -/
def Obligations.ControlTransfersChangeThePcOnly : Prop :=
  ∀ (i : Instr) (s t : State),
    (∃ (rs rt : Reg) (o : BitVec 16) (a : BitVec 26),
      i ∈ [.beq rs rt o, .bne rs rt o, .bgez rs o, .bgtz rs o, .blez rs o, .bltz rs o, .bfeq rs rt o, .bfne rs rt o,
        .bfgz rs o, .bfgtz rs o, .bflez rs o, .bfltz rs o, .jmp a, .jal a, .jr rs]) →
    exec i s = .next t →
    RegistersKept [Reg.ra] s t ∧ ((∀ a, i ≠ .jal a) → RegistersKept [] s t) ∧
    MemoryKept s t ∧ HiLoKept s t ∧ StreamsKept s t ∧
    t.stderr = s.stderr ∧ t.status = s.status ∧ t.ir = s.ir ∧ t.stackBottom = s.stackBottom ∧
    t.dataLength = s.dataLength ∧ t.draws = s.draws

/-- SB changes the byte at its address alone, SW and FSW the four bytes from theirs, no register (R184 to R186). -/
def Obligations.StoresChangeTheirBytesOnly : Prop :=
  ∀ (i : Instr) (rs rt : Reg) (o : BitVec 16) (width : Nat) (s t : State),
    ((i = .sb rs rt o ∧ width = 1) ∨ ((i = .sw rs rt o ∨ i = .fsw rs rt o) ∧ width = 4)) →
    exec i s = .next t →
    (∀ a, (a < u32 (accessAddress rs o s) ∨ u32 (accessAddress rs o s) + width ≤ a) → t.mem.read a = s.mem.read a) ∧
    RegistersKept [] s t ∧ HiLoKept s t ∧ StreamsKept s t ∧ AtMostOneError s t ∧
    t.pc = s.pc ∧ t.ir = s.ir ∧ t.stackBottom = s.stackBottom ∧ t.dataLength = s.dataLength ∧ t.draws = s.draws

/-- A system call changes no register but `$v0` and no memory, `HI` or `LO` (R208): EXIT, STRA and NOTR change no register
at all, only RCH and RFLT consume input, and only STRA and NOTR change the switch. -/
def Obligations.SystemCallsChangeNoRegisterButV0 : Prop :=
  ∀ (i : Instr) (s t : State),
    i ∈ [.exit, .pstr, .pint, .pflt, .pch, .rch, .rflt, .stra, .notr] → exec i s = .next t →
    RegistersKept [Reg.v0] s t ∧ MemoryKept s t ∧ HiLoKept s t ∧
    t.pc = s.pc ∧ t.ir = s.ir ∧ t.stackBottom = s.stackBottom ∧ t.dataLength = s.dataLength ∧
    (i ∈ [.exit, .stra, .notr] → RegistersKept [] s t ∧ StreamsKept { s with tracing := t.tracing } t ∧
      t.stderr = s.stderr ∧ t.draws = s.draws) ∧
    (i ∉ [.rch, .rflt] → t.stdin = s.stdin) ∧
    (i ∉ [.stra, .notr] → t.tracing = s.tracing) ∧
    (i ∉ [.pstr, .pint, .pflt, .pch] → t.stdout = s.stdout) ∧
    (i ≠ .exit → AtMostOneError s t)

/-! ## Integer instructions -/

/-- AND, BOR, NOR and XOR (R117 to R120): their encodings, whatever the ignored `shift` holds, and their results. -/
def Obligations.BitwiseInstructionsWriteTheirResult : Prop :=
  ∀ (s : State) (rs rt rd : Reg) (h : Nat),
    (decode (registerWord fieldOrder rs rt rd h 36) = .ok (.and rs rt rd) ∧
      AnswersWrite rd (s.x rs &&& s.x rt) s (exec (.and rs rt rd) s)) ∧
    (decode (registerWord fieldOrder rs rt rd h 37) = .ok (.bor rs rt rd) ∧
      AnswersWrite rd (s.x rs ||| s.x rt) s (exec (.bor rs rt rd) s)) ∧
    (decode (registerWord fieldOrder rs rt rd h 39) = .ok (.nor rs rt rd) ∧
      AnswersWrite rd (~~~(s.x rs ||| s.x rt)) s (exec (.nor rs rt rd) s)) ∧
    (decode (registerWord fieldOrder rs rt rd h 38) = .ok (.xor rs rt rd) ∧
      AnswersWrite rd (s.x rs ^^^ s.x rt) s (exec (.xor rs rt rd) s))

/-- ANDI, BORI and XORI (R152 to R154): the immediate is zero-extended and the destination is `rt`. -/
def Obligations.BitwiseImmediatesWriteTheirResult : Prop :=
  ∀ (s : State) (rs rt : Reg) (i : BitVec 16),
    (decode (immediateWord fieldOrder 12 rs rt i) = .ok (.andi rs rt i) ∧
      AnswersWrite rt (s.x rs &&& zeroExt i) s (exec (.andi rs rt i) s)) ∧
    (decode (immediateWord fieldOrder 13 rs rt i) = .ok (.bori rs rt i) ∧
      AnswersWrite rt (s.x rs ||| zeroExt i) s (exec (.bori rs rt i) s)) ∧
    (decode (immediateWord fieldOrder 14 rs rt i) = .ok (.xori rs rt i) ∧
      AnswersWrite rt (s.x rs ^^^ zeroExt i) s (exec (.xori rs rt i) s))

/-- ADD, SUB and ADDI write their result modulo `2^32`, and it is the exact signed result whenever that fits 32 bits (R110
to R112, R151; `INT_OVERFLOW = wrap` is decision D7, log entry [7]). -/
def Obligations.SumsWrapAndAreExactWhenTheyFit : Prop :=
  ∀ (s : State) (rs rt rd : Reg) (i : BitVec 16),
    AnswersWrite rd (s.x rs + s.x rt) s (exec (.add rs rt rd) s) ∧
    AnswersWrite rd (s.x rs - s.x rt) s (exec (.sub rs rt rd) s) ∧
    AnswersWrite rt (s.x rs + sgnExt i) s (exec (.addi rs rt i) s) ∧
    (overflowAdd (s.x rs) (s.x rt) = false → s32 (s.x rs + s.x rt) = s32 (s.x rs) + s32 (s.x rt)) ∧
    (overflowSub (s.x rs) (s.x rt) = false → s32 (s.x rs - s.x rt) = s32 (s.x rs) - s32 (s.x rt)) ∧
    (overflowAdd (s.x rs) (sgnExt i) = false → s32 (s.x rs + sgnExt i) = s32 (s.x rs) + i.toInt)

/-- SRL (R122): a logical shift of the unsigned contents by the 5-bit amount, whatever the ignored `rs` holds. -/
def Obligations.ShiftRightIsLogical : Prop :=
  ∀ (s : State) (rs rt rd : Reg) (h : Nat), h < 32 →
    decode (registerWord fieldOrder rs rt rd h 3) = .ok (.srl rt rd h) ∧
    AnswersWrite rd (BitVec.ofNat 32 (u32 (s.x rt) / 2 ^ h)) s (exec (.srl rt rd h) s)

/-- SLL (R121): zeros enter at bit 0 and the bits shifted past bit 31 are lost (that they are discarded without error is
decision D7, log entry [7]). -/
def Obligations.ShiftLeftLosesTheHighBits : Prop :=
  ∀ (s : State) (rs rt rd : Reg) (h : Nat), h < 32 →
    decode (registerWord fieldOrder rs rt rd h 0) = .ok (.sll rt rd h) ∧
    AnswersWrite rd (BitVec.ofNat 32 (u32 (s.x rt) * 2 ^ h)) s (exec (.sll rt rd h) s)

/-- MUL: `HI` and `LO` together are the exact signed product (R113; that it is the signed one is decision D8, log entry
[9]). -/
def Obligations.MultiplyGivesTheExactSignedProduct : Prop :=
  ∀ (s : State) (rs rt : Reg), ∃ hi lo : Word,
    exec (.mul rs rt) s = .next { s with hi := hi, lo := lo } ∧
    (hi ++ lo).toInt = s32 (s.x rs) * s32 (s.x rt)

/-- DIV: quotient and remainder of C's division (R114, log entry [9]) for every divisor but 0 and every quotient but
`-2^31 / -1`, both exact; there the two errors, `HI` and `LO` unchanged (R242; `DIV_OVERFLOW = fault` is decision D9, log
entry [8]). -/
def Obligations.DivideGivesQuotientAndRemainder : Prop :=
  ∀ (s : State) (rs rt : Reg),
    (s.x rt ≠ 0 → ¬ (s32 (s.x rs) = -2147483648 ∧ s32 (s.x rt) = -1) →
      ∃ hi lo : Word, exec (.div rs rt) s = .next { s with hi := hi, lo := lo } ∧
        s32 (s.x rs) = s32 lo * s32 (s.x rt) + s32 hi ∧
        (s32 hi).natAbs < (s32 (s.x rt)).natAbs ∧
        (0 ≤ s32 (s.x rs) → 0 ≤ s32 hi) ∧ (s32 (s.x rs) ≤ 0 → s32 hi ≤ 0)) ∧
    (s.x rt = 0 → AnswersError (.divideByZero (s.pc - 4)) s (exec (.div rs rt) s)) ∧
    (s32 (s.x rs) = -2147483648 → s32 (s.x rt) = -1 →
      AnswersError (.integerOverflow (s.pc - 4)) s (exec (.div rs rt) s))

/-- MFHI and MFLO (R115, R116): the whole of `HI` or `LO` into the destination, whatever the ignored fields hold. -/
def Obligations.MovesFromHiAndLo : Prop :=
  ∀ (s : State) (rs rt rd : Reg) (h : Nat),
    (decode (registerWord fieldOrder rs rt rd h 16) = .ok (.mfhi rd) ∧ AnswersWrite rd s.hi s (exec (.mfhi rd) s)) ∧
    (decode (registerWord fieldOrder rs rt rd h 18) = .ok (.mflo rd) ∧ AnswersWrite rd s.lo s (exec (.mflo rd) s))

/-- A non-zero value written to register 0 is an `InvariantViolation` and changes nothing else, by each of the register
instructions (R23; `R0_WRITE = fault_if_nonzero` is decision D2, log entry [2]). -/
def Obligations.NonzeroWritesToRegisterZeroAreErrors : Prop :=
  ∀ (s : State) (rs rt : Reg) (i : BitVec 16) (h : Nat),
    ((s.x rs + s.x rt) ≠ 0 → AnswersError (.invariantViolation .zeroRegister) s (exec (.add rs rt 0) s)) ∧
    ((s.x rs - s.x rt) ≠ 0 → AnswersError (.invariantViolation .zeroRegister) s (exec (.sub rs rt 0) s)) ∧
    ((s.x rs &&& s.x rt) ≠ 0 → AnswersError (.invariantViolation .zeroRegister) s (exec (.and rs rt 0) s)) ∧
    ((s.x rs ||| s.x rt) ≠ 0 → AnswersError (.invariantViolation .zeroRegister) s (exec (.bor rs rt 0) s)) ∧
    (~~~(s.x rs ||| s.x rt) ≠ 0 → AnswersError (.invariantViolation .zeroRegister) s (exec (.nor rs rt 0) s)) ∧
    ((s.x rs ^^^ s.x rt) ≠ 0 → AnswersError (.invariantViolation .zeroRegister) s (exec (.xor rs rt 0) s)) ∧
    ((s.x rt <<< h) ≠ 0 → AnswersError (.invariantViolation .zeroRegister) s (exec (.sll rt 0 h) s)) ∧
    ((s.x rt >>> h) ≠ 0 → AnswersError (.invariantViolation .zeroRegister) s (exec (.srl rt 0 h) s)) ∧
    (s.hi ≠ 0 → AnswersError (.invariantViolation .zeroRegister) s (exec (.mfhi 0) s)) ∧
    (s.lo ≠ 0 → AnswersError (.invariantViolation .zeroRegister) s (exec (.mflo 0) s)) ∧
    ((s.x rs + sgnExt i) ≠ 0 → AnswersError (.invariantViolation .zeroRegister) s (exec (.addi rs 0 i) s)) ∧
    ((s.x rs &&& zeroExt i) ≠ 0 → AnswersError (.invariantViolation .zeroRegister) s (exec (.andi rs 0 i) s)) ∧
    ((s.x rs ||| zeroExt i) ≠ 0 → AnswersError (.invariantViolation .zeroRegister) s (exec (.bori rs 0 i) s)) ∧
    ((s.x rs ^^^ zeroExt i) ≠ 0 → AnswersError (.invariantViolation .zeroRegister) s (exec (.xori rs 0 i) s))

/-- A non-zero result of a floating-point instruction, a conversion or a load with destination register 0 is an
`InvariantViolation` too (R23; decision D2, log entry [2]); so is a NaN, which also draws its pattern (R140, log entry
[13]). -/
def Obligations.NonzeroFloatsAndLoadsIntoRegisterZeroAreErrors : Prop :=
  ∀ (s : State) (rs rt : Reg) (o : BitVec 16),
    (∀ p ∈ [(numerics.add (s.x rs) (s.x rt), Instr.fadd rs rt 0), (numerics.sub (s.x rs) (s.x rt), .fsub rs rt 0),
        (numerics.mul (s.x rs) (s.x rt), .fmul rs rt 0), (numerics.div (s.x rs) (s.x rt), .fdiv rs rt 0)],
      (p.2 = .fdiv rs rt 0 → numerics.isZero (s.x rt) = false) →
      (∀ v, p.1 = some v → v ≠ 0 → AnswersError (.invariantViolation .zeroRegister) s (exec p.2 s)) ∧
      (p.1 = none →
        AnswersError (.invariantViolation .zeroRegister) { s with draws := s.draws + 1 } (exec p.2 s))) ∧
    (s.x rt ≠ 0 → AnswersError (.invariantViolation .zeroRegister) s (exec (.cvt rt 0) s)) ∧
    (∀ v, numerics.toIntRounded Params.rndMode (s.x rt) = some v → v ≠ 0 →
      AnswersError (.invariantViolation .zeroRegister) s (exec (.rnd rt 0) s)) ∧
    (u32 (s.x rs + formOffset o) ≤ 65531 → s.mem.read (u32 (s.x rs + formOffset o)) ≠ 0 →
      AnswersError (.invariantViolation .zeroRegister) s (exec (.lbu rs 0 o) s)) ∧
    (u32 (s.x rs + formOffset o) ≤ 65528 → u32 (s.x rs + formOffset o) % 4 = 0 →
      s.mem.readWord (u32 (s.x rs + formOffset o)) ≠ 0 →
      ∀ i ∈ [Instr.lw rs 0 o, .flw rs 0 o],
        AnswersError (.invariantViolation .zeroRegister) s (exec i s))

/-! ## Floating-point instructions -/

/-- FADD, FSUB and FMUL (R132 to R134): the numerics' result in the destination, for a NaN some NaN pattern; and that result
is the sum, the difference, the product of R139: a NaN exactly for a NaN operand or an invalid operation, the infinities
and the signs of zeros as it says, and of finite operands the exact result rounded to nearest, ties to even (the default
numerics are decision D10, log entry [10]; the pattern of a NaN is free, log entry [13]). -/
def Obligations.FloatArithmeticWritesTheNumericsResult : Prop :=
  (∀ (s : State) (rs rt rd : Reg) (h : Nat),
    (decode (registerWord fieldOrder rs rt rd h 49) = .ok (.fadd rs rt rd) ∧
      AnswersFloat rd (numerics.add (s.x rs) (s.x rt)) s (exec (.fadd rs rt rd) s)) ∧
    (decode (registerWord fieldOrder rs rt rd h 51) = .ok (.fsub rs rt rd) ∧
      AnswersFloat rd (numerics.sub (s.x rs) (s.x rt)) s (exec (.fsub rs rt rd) s)) ∧
    (decode (registerWord fieldOrder rs rt rd h 41) = .ok (.fmul rs rt rd) ∧
      AnswersFloat rd (numerics.mul (s.x rs) (s.x rt)) s (exec (.fmul rs rt rd) s))) ∧
  (∀ a b : Word,
    IsSum (numerics.add a b) a b (f32Sign b) (f32Value b) ∧
    IsSum (numerics.sub a b) a b (!f32Sign b) (-f32Value b) ∧
    IsProduct (numerics.mul a b) a b)

/-- FDIV: the numerics' quotient for every divisor but a zero, and `DivideByZero` for a zero of either sign (R135, R242;
`FDIV_BY_ZERO = fault` is decision D11, log entry [11]); and that quotient is the one of R139, of finite operands the
exact one rounded (the default numerics are decision D10, log entry [10]). -/
def Obligations.FloatDivideWritesTheQuotient : Prop :=
  (∀ (s : State) (rs rt rd : Reg),
    (numerics.isZero (s.x rt) = false →
      AnswersFloat rd (numerics.div (s.x rs) (s.x rt)) s (exec (.fdiv rs rt rd) s)) ∧
    (numerics.isZero (s.x rt) = true → AnswersError (.divideByZero (s.pc - 4)) s (exec (.fdiv rs rt rd) s)) ∧
    (numerics.isZero (s.x rt) = true ↔ s.x rt = 0 ∨ s.x rt = 0x80000000)) ∧
  (∀ a b : Word, IsQuotient (numerics.div a b) a b)

/-- CVT writes the datum nearest the signed integer (R136; that a tie goes to the even fraction is decision D13, log entry
[10]): no finite datum is nearer, one as near has an odd fraction where the result's is even, every integer of magnitude
up to `2^24` converts exactly, and the spec's corner cases are as it lists them. -/
def Obligations.ConvertGivesTheNearestDatum : Prop :=
  (∀ (s : State) (rt rd : Reg), AnswersWrite rd (numerics.ofInt (s.x rt)) s (exec (.cvt rt rd) s)) ∧
  (∀ v y : Word, numerics.isNaN y = false → f32IsInf y = false →
    (s32 v * f32One - f32Value (numerics.ofInt v)).natAbs ≤ (s32 v * f32One - f32Value y).natAbs ∧
    ((s32 v * f32One - f32Value (numerics.ofInt v)).natAbs = (s32 v * f32One - f32Value y).natAbs →
      f32Value y ≠ f32Value (numerics.ofInt v) → f32Fraction (numerics.ofInt v) % 2 = 0)) ∧
  (∀ v : Word, (s32 v).natAbs ≤ 2 ^ 24 → f32Value (numerics.ofInt v) = s32 v * f32One) ∧
  (∀ v : Word, numerics.isNaN (numerics.ofInt v) = false ∧ f32IsInf (numerics.ofInt v) = false) ∧
  numerics.ofInt 16777217 = 0x4B800000 ∧ numerics.ofInt 16777219 = 0x4B800002 ∧
  numerics.ofInt 0x7FFFFFFF = 0x4F000000 ∧ numerics.ofInt 0x80000000 = 0xCF000000 ∧ numerics.ofInt 0 = 0

/-- RND (R137): a datum that is no NaN and no infinity rounds to one integer, the nearest, an exact half being rounded
away from zero; where that integer lies in `-2^31 .. 2^31 - 1` the instruction writes it, and everywhere else, for a NaN
and an infinity too, it is `FloatToIntRange` (the tie rule and the error are decision D12, log entry [12]). The numerics
give that integer, or none, under either tie rule. -/
def Obligations.RoundGivesTheNearestIntegerOrAnError : Prop :=
  Params.rndMode = .halfAwayFromZero ∧
  (∀ (v : Word) (mode : Config.RndMode), numerics.isNaN v = true ∨ f32IsInf v = true →
    numerics.toIntRounded mode v = none) ∧
  (∀ (v : Word) (mode : Config.RndMode), numerics.isNaN v = false → f32IsInf v = false →
    ∃ n : Int, IsRoundedInteger mode v n ∧ (∀ m, IsRoundedInteger mode v m → m = n) ∧
      numerics.toIntRounded mode v = if -2147483648 ≤ n ∧ n ≤ 2147483647 then some (w32 n) else none) ∧
  (∀ (s : State) (rt rd : Reg) (n : Int), numerics.isNaN (s.x rt) = false → f32IsInf (s.x rt) = false →
    IsRoundedInteger .halfAwayFromZero (s.x rt) n →
    (-2147483648 ≤ n → n ≤ 2147483647 → AnswersWrite rd (w32 n) s (exec (.rnd rt rd) s)) ∧
    (n < -2147483648 ∨ 2147483647 < n → AnswersError (.floatToIntRange (s.pc - 4)) s (exec (.rnd rt rd) s))) ∧
  (∀ (s : State) (rt rd : Reg), numerics.isNaN (s.x rt) = true ∨ f32IsInf (s.x rt) = true →
    AnswersError (.floatToIntRange (s.pc - 4)) s (exec (.rnd rt rd) s))

/-- The rounding of the default numerics, `f32Round` (R139, log entry [10]): a result is an infinity exactly from halfway
past the largest finite datum up; else no finite datum of the sign is nearer the exact value, and one as near has an odd
fraction where the result's is even. -/
def Obligations.RoundingIsToNearestEven : Prop :=
  ∀ (sign : Bool) (n d : Nat), 0 < d →
    f32Sign (f32Round sign n d) = sign ∧ f32IsNaN (f32Round sign n d) = false ∧
    (f32IsInf (f32Round sign n d) = true ↔ (2 ^ 25 - 1) * 2 ^ 252 * d ≤ n) ∧
    (f32IsInf (f32Round sign n d) = false → ∀ y : Word, f32IsNaN y = false → f32IsInf y = false →
      ((n : Int) - f32Units (f32Round sign n d) * d).natAbs ≤ ((n : Int) - f32Units y * d).natAbs ∧
      (((n : Int) - f32Units (f32Round sign n d) * d).natAbs = ((n : Int) - f32Units y * d).natAbs →
        f32Units y ≠ f32Units (f32Round sign n d) → f32Fraction (f32Round sign n d) % 2 = 0))

/-- Comparison of data (R141, log entry [14]): of two data that are no NaNs, less, less-or-equal and equal are those of
their values on the extended line, on which the infinities lie beyond every finite datum; so equal means that the
patterns agree or both are zeros, exactly one of less, equal and greater holds, and less is transitive. Nothing holds of
a NaN. -/
def Obligations.FloatComparisonsOrderTheData : Prop :=
  (∀ a b : Word,
    (numerics.eq a b = true ↔ numerics.isNaN a = false ∧ numerics.isNaN b = false ∧
      (a = b ∨ (numerics.isZero a = true ∧ numerics.isZero b = true))) ∧
    (numerics.isNaN a = true ∨ numerics.isNaN b = true →
      numerics.eq a b = false ∧ numerics.lt a b = false ∧ numerics.le a b = false) ∧
    (numerics.isNaN a = false → numerics.isNaN b = false →
      (numerics.eq a b = true ↔ f32Value a = f32Value b) ∧
      (numerics.lt a b = true ↔ f32Value a < f32Value b) ∧
      (numerics.le a b = true ↔ f32Value a ≤ f32Value b) ∧
      numerics.le a b = (numerics.lt a b || numerics.eq a b) ∧
      ((numerics.lt a b = true ∧ numerics.eq a b = false ∧ numerics.lt b a = false) ∨
       (numerics.lt a b = false ∧ numerics.eq a b = true ∧ numerics.lt b a = false) ∨
       (numerics.lt a b = false ∧ numerics.eq a b = false ∧ numerics.lt b a = true)))) ∧
  (∀ a b c : Word, numerics.lt a b = true → numerics.lt b c = true → numerics.lt a c = true) ∧
  (∀ b : Word, numerics.isNaN b = false → f32IsInf b = false →
    f32Value 0xFF800000 < f32Value b ∧ f32Value b < f32Value 0x7F800000)

/-! ## Control flow -/

/-- The six integer branches (R162 to R167): the `PC` moves by the offset from the advanced `PC` exactly when the signed
comparison holds. -/
def Obligations.IntegerBranchesCompareSignedContents : Prop :=
  ∀ (s : State) (rs rt : Reg) (o : BitVec 16),
    (decode (immediateWord fieldOrder 4 rs rt o) = .ok (.beq rs rt o) ∧
      exec (.beq rs rt o) s = .next { s with pc := if s.x rs = s.x rt then s.pc + formOffset o else s.pc }) ∧
    (decode (immediateWord fieldOrder 1 rs 1 o) = .ok (.bgez rs o) ∧
      exec (.bgez rs o) s = .next { s with pc := if 0 ≤ s32 (s.x rs) then s.pc + formOffset o else s.pc }) ∧
    (decode (immediateWord fieldOrder 7 rs 0 o) = .ok (.bgtz rs o) ∧
      exec (.bgtz rs o) s = .next { s with pc := if 0 < s32 (s.x rs) then s.pc + formOffset o else s.pc }) ∧
    (decode (immediateWord fieldOrder 6 rs 0 o) = .ok (.blez rs o) ∧
      exec (.blez rs o) s = .next { s with pc := if s32 (s.x rs) ≤ 0 then s.pc + formOffset o else s.pc }) ∧
    (decode (immediateWord fieldOrder 8 rs 0 o) = .ok (.bltz rs o) ∧
      exec (.bltz rs o) s = .next { s with pc := if s32 (s.x rs) < 0 then s.pc + formOffset o else s.pc }) ∧
    (decode (immediateWord fieldOrder 5 rs rt o) = .ok (.bne rs rt o) ∧
      exec (.bne rs rt o) s = .next { s with pc := if s.x rs ≠ s.x rt then s.pc + formOffset o else s.pc })

/-- The six floating-point branches (R169 to R174): as the integer ones, with the numerics' comparisons and `+0.0`. -/
def Obligations.FloatBranchesCompareData : Prop :=
  ∀ (s : State) (rs rt : Reg) (o : BitVec 16),
    (decode (immediateWord fieldOrder 20 rs rt o) = .ok (.bfeq rs rt o) ∧
      exec (.bfeq rs rt o) s =
        .next { s with pc := if numerics.eq (s.x rs) (s.x rt) = true then s.pc + formOffset o else s.pc }) ∧
    (decode (immediateWord fieldOrder 17 rs 1 o) = .ok (.bfgz rs o) ∧
      exec (.bfgz rs o) s =
        .next { s with pc := if numerics.le numerics.zero (s.x rs) = true then s.pc + formOffset o else s.pc }) ∧
    (decode (immediateWord fieldOrder 23 rs 0 o) = .ok (.bfgtz rs o) ∧
      exec (.bfgtz rs o) s =
        .next { s with pc := if numerics.lt numerics.zero (s.x rs) = true then s.pc + formOffset o else s.pc }) ∧
    (decode (immediateWord fieldOrder 22 rs 0 o) = .ok (.bflez rs o) ∧
      exec (.bflez rs o) s =
        .next { s with pc := if numerics.le (s.x rs) numerics.zero = true then s.pc + formOffset o else s.pc }) ∧
    (decode (immediateWord fieldOrder 24 rs 0 o) = .ok (.bfltz rs o) ∧
      exec (.bfltz rs o) s =
        .next { s with pc := if numerics.lt (s.x rs) numerics.zero = true then s.pc + formOffset o else s.pc }) ∧
    (decode (immediateWord fieldOrder 21 rs rt o) = .ok (.bfne rs rt o) ∧
      exec (.bfne rs rt o) s =
        .next { s with pc := if numerics.eq (s.x rs) (s.x rt) = true then s.pc else s.pc + formOffset o })

/-- JMP, JAL and JR (R196, R197, R123): the `PC` set at once, and by JAL the advanced `PC` in `$ra`; nothing else. -/
def Obligations.JumpsSetThePc : Prop :=
  ∀ (s : State) (a : BitVec 26) (rs : Reg),
    (decode (jumpWord fieldOrder 2 a) = .ok (.jmp a) ∧
      exec (.jmp a) s = .next { s with pc := s.pc.extractLsb' 28 4 ++ a ++ 0#2 }) ∧
    (decode (jumpWord fieldOrder 3 a) = .ok (.jal a) ∧
      exec (.jal a) s =
        .next ({ s with pc := s.pc.extractLsb' 28 4 ++ a ++ 0#2 }.setReg 31 s.pc)) ∧
    (decode (registerWord fieldOrder rs 0 0 0 8) = .ok (.jr rs) ∧ exec (.jr rs) s = .next { s with pc := s.x rs })

/-! ## Loads and stores -/

/-- LBU, LW and FLW at a valid address (R181 to R183): the byte zero-extended, or the little-endian word, in `rt`; FLW does
what LW does. -/
def Obligations.LoadsWriteWhatMemoryHolds : Prop :=
  ∀ (s : State) (rs rt : Reg) (o : BitVec 16),
    (u32 (s.x rs + formOffset o) ≤ 65531 →
      AnswersWrite rt (zeroExtByte (s.mem.read (u32 (s.x rs + formOffset o)))) s (exec (.lbu rs rt o) s)) ∧
    (u32 (s.x rs + formOffset o) ≤ 65528 → u32 (s.x rs + formOffset o) % 4 = 0 →
      ∀ i ∈ [Instr.lw rs rt o, .flw rs rt o], AnswersWrite rt
        (s.mem.read (u32 (s.x rs + formOffset o) + 3) ++ s.mem.read (u32 (s.x rs + formOffset o) + 2) ++
          s.mem.read (u32 (s.x rs + formOffset o) + 1) ++ s.mem.read (u32 (s.x rs + formOffset o)))
        s (exec i s)) ∧
    exec (.flw rs rt o) s = exec (.lw rs rt o) s

/-- SB, SW and FSW at a valid address (R184 to R186): a next state with the low byte, or the word least significant byte
first, in memory and every other byte and every register as it was; FSW does what SW does. -/
def Obligations.StoresPutTheRegisterInMemory : Prop :=
  ∀ (s : State) (rs rt : Reg) (o : BitVec 16),
    (u32 (s.x rs + formOffset o) ≤ 65531 →
      ∃ m, exec (.sb rs rt o) s = .next { s with mem := m } ∧
        m.read (u32 (s.x rs + formOffset o)) = (s.x rt).extractLsb' 0 8 ∧
        ∀ a, a ≠ u32 (s.x rs + formOffset o) → m.read a = s.mem.read a) ∧
    (u32 (s.x rs + formOffset o) ≤ 65528 → u32 (s.x rs + formOffset o) % 4 = 0 →
      ∀ i ∈ [Instr.sw rs rt o, .fsw rs rt o], ∃ m, exec i s = .next { s with mem := m } ∧
        (∀ k < 4, m.read (u32 (s.x rs + formOffset o) + k) = (s.x rt).extractLsb' (8 * k) 8) ∧
        ∀ a, (a < u32 (s.x rs + formOffset o) ∨ u32 (s.x rs + formOffset o) + 4 ≤ a) → m.read a = s.mem.read a) ∧
    exec (.fsw rs rt o) s = exec (.sw rs rt o) s

/-- A load or store at an address outside the memory, or a word access off a word boundary, is an error before any effect
(R245; decisions D5 and D6, log entries [5] and [6]). -/
def Obligations.InvalidAccessesHaltBeforeAnyEffect : Prop :=
  ∀ (s : State) (rs rt : Reg) (o : BitVec 16),
    (65531 < u32 (s.x rs + formOffset o) →
      AnswersError (.addressOutOfRange (s.x rs + formOffset o) 1) s (exec (.lbu rs rt o) s) ∧
      AnswersError (.addressOutOfRange (s.x rs + formOffset o) 1) s (exec (.sb rs rt o) s)) ∧
    (65528 < u32 (s.x rs + formOffset o) →
      ∀ i ∈ [Instr.lw rs rt o, .flw rs rt o, .sw rs rt o, .fsw rs rt o],
        AnswersError (.addressOutOfRange (s.x rs + formOffset o) 4) s (exec i s)) ∧
    (u32 (s.x rs + formOffset o) ≤ 65528 → u32 (s.x rs + formOffset o) % 4 ≠ 0 →
      ∀ i ∈ [Instr.lw rs rt o, .flw rs rt o, .sw rs rt o, .fsw rs rt o],
        AnswersError (.misalignedAccess (s.x rs + formOffset o)) s (exec i s))

/-! ## System calls -/

/-- EXIT halts with code 0 and changes nothing else (R207); STRA and NOTR set and clear the tracing switch and change
nothing else (R216, R217). -/
def Obligations.ExitHaltsAndTracingCallsSwitch : Prop :=
  ∀ s : State,
    (decode (serviceWord fieldOrder 10) = .ok .exit ∧ exec .exit s = .next { s with status := .halted 0 }) ∧
    (decode (serviceWord fieldOrder 256) = .ok .stra ∧ exec .stra s = .next { s with tracing := true } ∧
      (s.tracing = true → exec .stra s = .next s)) ∧
    (decode (serviceWord fieldOrder 257) = .ok .notr ∧ exec .notr s = .next { s with tracing := false } ∧
      (s.tracing = false → exec .notr s = .next s))

/-- PINT, PFLT and PCH write their text to `stdout` and its length, or the character, to `$v0`, and change nothing else
(R210 to R212; what the C library returns and prints is the spec's general knowledge, log entries [24] and [25]). The
text of an integer is a minus sign for a negative one and the digits of its magnitude, without leading zeros; that of a
finite datum a minus sign for a negative sign bit, digits, a period and six digits, within half a millionth of the datum;
an infinity is `inf` or `-inf`, a NaN `nan` or `-nan`. -/
def Obligations.PrintingCallsWriteTheirText : Prop :=
  (∀ s : State,
    exec .pint s = .next ({ s with
      stdout := s.stdout ++ (formatInt (s32 (s.x 4))).map OutItem.program }.setReg 2
        (w32 (formatInt (s32 (s.x 4))).length)) ∧
    exec .pflt s = .next ({ s with
      stdout := s.stdout ++ (formatFloat (s.x 4)).map OutItem.program }.setReg 2 (w32 (formatFloat (s.x 4)).length)) ∧
    exec .pch s = .next ({ s with
      stdout := s.stdout ++ [OutItem.program ((s.x 4).extractLsb' 0 8)] }.setReg 2
        (((s.x 4).extractLsb' 0 8).setWidth 32))) ∧
  (∀ n : Int, ∃ ds, IsDecimal ds n.natAbs ∧ formatInt n = if n < 0 then 0x2D :: ds else ds) ∧
  (∀ v : Word, 1 ≤ (formatInt (s32 v)).length ∧ (formatInt (s32 v)).length ≤ 11) ∧
  (∀ v : Word, f32IsNaN v = false → f32IsInf v = false → ∃ (n : Nat) (ds fs : List Byte),
    IsDecimal ds n ∧ AreDigits fs ∧ fs.length = 6 ∧
    formatFloat v = (if f32Sign v = true then [0x2D] else []) ++ ds ++ [0x2E] ++ fs ∧
    2 * (((n * 1000000 + digitsValue fs) * f32One : Int) - f32Units v * 1000000).natAbs ≤ f32One) ∧
  formatFloat 0x7F800000 = [0x69, 0x6E, 0x66] ∧ formatFloat 0xFF800000 = [0x2D, 0x69, 0x6E, 0x66] ∧
  (∀ v : Word, f32IsNaN v = true →
    formatFloat v = [0x6E, 0x61, 0x6E] ∨ formatFloat v = [0x2D, 0x6E, 0x61, 0x6E])

/-- PSTR on a terminated string writes the bytes before the first zero byte and their count, and changes nothing else
(R209; that `printf` returns the count is the spec's general knowledge, log entry [24]). -/
def Obligations.PrintStringWritesTheBytesBeforeTheZero : Prop :=
  ∀ (s : State) (n : Nat),
    u32 (s.x 4) + n < 65532 → (∀ k < n, s.mem.read (u32 (s.x 4) + k) ≠ 0) → s.mem.read (u32 (s.x 4) + n) = 0 →
    exec .pstr s = .next ({ s with
      stdout := s.stdout ++ (List.range n).map fun k => OutItem.program (s.mem.read (u32 (s.x 4) + k)) }.setReg 2 (w32 n))

/-- PSTR on a string that no zero byte ends is `AddressOutOfRange`, with some part of the string from its start written, as
much as the free value says (R209; decision D28, log entry [23]). -/
def Obligations.PrintStringUnterminatedIsAnError : Prop :=
  ∀ s : State, (∀ a, u32 (s.x 4) ≤ a → a < 65532 → s.mem.read a ≠ 0) →
    ∃ n, exec .pstr s = .next { s with
      stdout := s.stdout ++ (List.range n).map fun k => OutItem.program (s.mem.read (u32 (s.x 4) + k)),
      stderr := s.stderr ++ [.addressOutOfRange (if u32 (s.x 4) < 65532 then 65532 else s.x 4) 1],
      status := .halted Params.errorExitCode,
      draws := s.draws + 1 } ∧
    n ≤ 65532 - u32 (s.x 4)

/-- RCH takes one byte of input into `$v0`, and at the end of input puts a negative value there and takes nothing (R213;
the value -1 is decision D19, log entry [18]). -/
def Obligations.ReadCharacterConsumesOneByte : Prop :=
  ∀ s : State,
    (∀ c rest, s.stdin = c :: rest →
      exec .rch s = .next ({ s with stdin := rest }.setReg 2 (c.setWidth 32))) ∧
    (s.stdin = [] → exec .rch s = .next (s.setReg 2 0xFFFFFFFF))

/-- RFLT puts the number read, or some NaN for `nan`, or, where none is read, some value into `$v0`, and takes from the
input what was examined (R215; the syntax is decision D20, log entry [19]). -/
def Obligations.ReadFloatTakesTheNumberRead : Prop :=
  ∀ (s : State) (rest : List Byte),
    (∀ v, parseFloat s.stdin = (.datum v, rest) →
      exec .rflt s = .next ({ s with stdin := rest }.setReg 2 v)) ∧
    (parseFloat s.stdin = (.nan, rest) → ∃ v, f32IsNaN v = true ∧
      exec .rflt s = .next ({ s with stdin := rest, draws := s.draws + 1 }.setReg 2 v)) ∧
    (parseFloat s.stdin = (.nothing, rest) → ∃ v,
      exec .rflt s = .next ({ s with stdin := rest, draws := s.draws + 1 }.setReg 2 v))

/-- ParseFloat (R215; its syntax is decision D20, log entry [19]). White space is skipped; a decimal or a hexadecimal
literal gives the datum nearest its value, rounded as R139 has it, and the rest of the input is left; `inf` and `infinity`
give an infinity and `nan` a NaN, in any case; a byte that begins no literal, and the end of input, give nothing. That a
tie goes to the even fraction and a magnitude too large to an infinity, and that the mere start of a literal is consumed
for nothing, are the model's choices of log entry [19]. So the text of an integer reads back whole, as the datum nearest
it (R210, log entry [24]). -/
def Obligations.ParseFloatReadsLiterals : Prop :=
  (∀ (ws t rest : List Byte) (negative : Bool) (n d : Nat), AreSpaces ws →
    (IsDecimalLiteral t negative n d ∧ EndsDecimal rest) ∨ (IsHexLiteral t negative n d ∧ EndsHex rest) →
    ∃ w, parseFloat (ws ++ t ++ rest) = (.datum w, rest) ∧ IsRounded negative (n * f32One) d w) ∧
  (∀ (ws sign t rest : List Byte) (negative : Bool), AreSpaces ws → IsSign sign negative →
    (InAnyCase t [0x69, 0x6E, 0x66] → (∀ b ∈ rest.head?, b ≠ 0x69 ∧ b ≠ 0x49) →
      parseFloat (ws ++ sign ++ t ++ rest) = (.datum (if negative then 0xFF800000 else 0x7F800000), rest)) ∧
    (InAnyCase t [0x69, 0x6E, 0x66, 0x69, 0x6E, 0x69, 0x74, 0x79] →
      parseFloat (ws ++ sign ++ t ++ rest) = (.datum (if negative then 0xFF800000 else 0x7F800000), rest)) ∧
    (InAnyCase t [0x6E, 0x61, 0x6E] → parseFloat (ws ++ sign ++ t ++ rest) = (.nan, rest))) ∧
  (∀ ws : List Byte, AreSpaces ws → parseFloat ws = (.nothing, [])) ∧
  (∀ (ws : List Byte) (b : Byte) (rest : List Byte), AreSpaces ws → ¬ AreSpaces [b] → ¬ AreDigits [b] →
    b ∉ ([0x2B, 0x2D, 0x2E, 0x69, 0x49, 0x6E, 0x4E] : List Byte) →
    parseFloat (ws ++ b :: rest) = (.nothing, b :: rest)) ∧
  (∀ (ws t : List Byte) (c : Byte) (negative : Bool) (n d : Nat), AreSpaces ws →
    IsDecimalLiteral t negative n d → 0x65 ∉ t → 0x45 ∉ t → (c = 0x65 ∨ c = 0x45) →
    parseFloat (ws ++ t ++ [c]) = (.nothing, [])) ∧
  (∀ n : Int, ∃ w, parseFloat (formatInt n) = (.datum w, []) ∧
    IsRounded (decide (n < 0)) (n.natAbs * f32One) 1 w)

/-! ## Reset and loading -/

/-- What the table of R36 gives without a header, in the reset state: memory all zero, every register zero but `$gp`, `$sp`
and `$fp`, `HI` and `LO` zero, tracing on, nothing written, the machine running; and that state is the load of a file
with the header values of R37 and empty sections, the model's choice of log entry [26]. -/
def Obligations.ResetIsTheSpecsTable : Prop :=
  (∀ a, State.reset.mem.read a = 0) ∧
  (∀ r : Reg, r ∉ [Reg.gp, Reg.sp, Reg.fp] → State.reset.x r = 0) ∧
  State.reset.hi = 0 ∧ State.reset.lo = 0 ∧ State.reset.tracing = true ∧
  State.reset.stdout = [] ∧ State.reset.stderr = [] ∧ State.reset.status = .running ∧
  State.reset = load
    { textStart := 0, textLength := 0, dataStart := 1024, intsLength := 0, floatsLength := 0, stackBottom := 4096,
      text := [], data := [] } []

/-- Loading copies both sections byte for byte, leaves every other byte zero, and sets `$gp`, `$sp`, `$fp` and `PC` from the
header (R273, R274, R36, R270). The premise and the lengths are the load conditions of R275, the spec's decision D25, log
entry [17]. `HI` and `LO` are zero, tracing is on, the input is the one given and nothing is written (R36); and the start
changes nothing of this state but that its trace begins with the block of it (R270, R224, R225; what a block holds is
log entry [20]). -/
def Obligations.LoadCopiesTheSections : Prop :=
  ∀ (b : Bof) (input : List Byte), firstUnmet b = none →
    (∀ i < b.text.length, (load b input).mem.read i = b.text.getD i 0) ∧
    (∀ i < b.data.length, (load b input).mem.read (u32 b.dataStart + i) = b.data.getD i 0) ∧
    (∀ a, b.text.length ≤ a → (a < u32 b.dataStart ∨ u32 b.dataStart + b.data.length ≤ a) →
      (load b input).mem.read a = 0) ∧
    (load b input).x Reg.gp = b.dataStart ∧ (load b input).x Reg.sp = b.stackBottom ∧
    (load b input).x Reg.fp = b.stackBottom ∧ (load b input).pc = b.textStart ∧
    (∀ r : Reg, r ∉ [Reg.gp, Reg.sp, Reg.fp] → (load b input).x r = 0) ∧
    b.text.length = u32 b.textLength ∧ b.data.length = u32 b.intsLength + u32 b.floatsLength ∧
    (load b input).hi = 0 ∧ (load b input).lo = 0 ∧ (load b input).tracing = true ∧
    (load b input).stdin = input ∧ (load b input).stdout = [] ∧ (load b input).stderr = [] ∧
    (load b input).status = .running ∧
    start b input = { load b input with stdout := [.trace (.block (stateBlock (load b input)))] }

/-! ## The parameters -/

/-- R8: the parameters are arguments of the model. The machine is the one at their defaults, and on the machine of any
record of them each that has more than one value decides its case as its rule says: `FIELD_ORDER` (R85), by the bits at
which every word's fields stand under either order, the round trip, and the step, which executes what the fetched word
decodes to under the record's order and raises `IllegalInstruction` where it decodes to nothing (R28, R244, decision D4,
log entry [4]; what such a word traces is log entry [20]); `R0_WRITE` (R23), for the twelve forms that write register 0
and raise nothing else; `MISALIGNED_WORD_ACCESS` (R55) for LW, FLW, SW, FSW; `INT_OVERFLOW` (R110) for ADD, SUB, ADDI;
`DIV_OVERFLOW` (R114); `Float` (R130) for FADD, FSUB, FMUL, FDIV, CVT, RND and the six floating-point branches (R168);
`FDIV_BY_ZERO` (R135); `RND_MODE` and `RND_OUT_OF_RANGE` (R137); `EOF_VALUE` (R213); `FormatInt` and `FormatFloat` (R210,
R211); `ParseFloat` (R215); `BOF_WORD` (R272); `ERROR_EXIT_CODE` (R246). The parameters are the spec's own, log entry
[37]. -/
def Obligations.ParametersDecideTheirCases : Prop :=
  ∀ (p : Parameters) (s : State) (rs rt rd : Reg) (h : Nat) (o : BitVec 16),
    (∀ i, execWith .default i s = exec i s) ∧ stepWith .default s = step s ∧ Parameters.default.Allowed ∧
    (∀ w : Word, (fun f : Fields =>
      f.op.toNat = u32 w / 2 ^ 26 ∧ f.rs.val = u32 w / 2 ^ 21 % 32 ∧ f.rt.val = u32 w / 2 ^ 16 % 32 ∧
      f.rd.val = u32 w / 2 ^ 11 % 32 ∧ f.shift = u32 w / 2 ^ 6 % 32 ∧ f.func.toNat = u32 w % 64 ∧
      f.code.toNat = u32 w / 2 ^ 6 % 2 ^ 20 ∧ f.immed.toNat = u32 w % 2 ^ 16 ∧ f.addr.toNat = u32 w % 2 ^ 26)
      (fieldsOf .msbFirst w)) ∧
    (∀ w : Word, (fun f : Fields =>
      f.op.toNat = u32 w % 64 ∧ f.rs.val = u32 w / 2 ^ 6 % 32 ∧ f.rt.val = u32 w / 2 ^ 11 % 32 ∧
      f.rd.val = u32 w / 2 ^ 16 % 32 ∧ f.shift = u32 w / 2 ^ 21 % 32 ∧ f.func.toNat = u32 w / 2 ^ 26 ∧
      f.code.toNat = u32 w / 2 ^ 6 % 2 ^ 20 ∧ f.immed.toNat = u32 w / 2 ^ 16 ∧ f.addr.toNat = u32 w / 2 ^ 6)
      (fieldsOf .lsbFirst w)) ∧
    (∀ w : Word, decodeWith p.fieldOrder w = decodeFields (fieldsOf p.fieldOrder w)) ∧
    (∀ i : Instr, i.WellFormed = true → decodeWith p.fieldOrder (encodeWith p.fieldOrder i) = .ok i) ∧
    (∀ w : Word, s.status = .running → fetch s p = .ok w →
      (∀ (i : Instr) (t : State), decodeWith p.fieldOrder w = .ok i →
        execWith p i (traceInstruction s.pc i { s with ir := w, pc := s.pc + 4 }) = .next t →
        stepWith p s = .next (traceAfter (checkInvariants t p))) ∧
      (∀ e : DecodeError, decodeWith p.fieldOrder w = .error e →
        stepWith p s = .next (traceAfter
          (raise (.illegalInstruction w s.pc) { s with ir := w, pc := s.pc + 4 } p)))) ∧
    (∀ e, raise e s p = { s with stderr := s.stderr ++ [e], status := .halted p.errorExitCode }) ∧
    (∀ iv ∈ [(Instr.and rs rt 0, s.x rs &&& s.x rt), (.bor rs rt 0, s.x rs ||| s.x rt),
        (.nor rs rt 0, ~~~(s.x rs ||| s.x rt)), (.xor rs rt 0, s.x rs ^^^ s.x rt), (.sll rt 0 h, s.x rt <<< h),
        (.srl rt 0 h, s.x rt >>> h), (.mfhi 0, s.hi), (.mflo 0, s.lo), (.andi rs 0 o, s.x rs &&& zeroExt o),
        (.bori rs 0 o, s.x rs ||| zeroExt o), (.xori rs 0 o, s.x rs ^^^ zeroExt o),
        (.cvt rt 0, p.numerics.ofInt (s.x rt))],
      (p.r0Write = .discard → execWith p iv.1 s = .next s) ∧
      (p.r0Write = .faultIfNonzero → iv.2 ≠ 0 →
        execWith p iv.1 s = .next (raise (.invariantViolation .zeroRegister) s p))) ∧
    (u32 (s.x rs + formOffset o) ≤ 65528 →
      (p.misalignedWordAccess = .splitLittleEndian →
        (∀ i ∈ [Instr.lw rs rt o, .flw rs rt o], AnswersWrite rt
          (s.mem.read (u32 (s.x rs + formOffset o) + 3) ++ s.mem.read (u32 (s.x rs + formOffset o) + 2) ++
            s.mem.read (u32 (s.x rs + formOffset o) + 1) ++ s.mem.read (u32 (s.x rs + formOffset o)))
          s (execWith p i s)) ∧
        (∀ i ∈ [Instr.sw rs rt o, .fsw rs rt o], ∃ m, execWith p i s = .next { s with mem := m } ∧
          (∀ k < 4, m.read (u32 (s.x rs + formOffset o) + k) = (s.x rt).extractLsb' (8 * k) 8) ∧
          ∀ a, (a < u32 (s.x rs + formOffset o) ∨ u32 (s.x rs + formOffset o) + 4 ≤ a) →
            m.read a = s.mem.read a)) ∧
      (p.misalignedWordAccess = .fault → u32 (s.x rs + formOffset o) % 4 ≠ 0 →
        ∀ i ∈ [Instr.lw rs rt o, .flw rs rt o, .sw rs rt o, .fsw rs rt o],
          execWith p i s = .next (raise (.misalignedAccess (s.x rs + formOffset o)) s p))) ∧
    (∀ ivd ∈ [(Instr.add rs rt rd, overflowAdd (s.x rs) (s.x rt), s.x rs + s.x rt, rd),
        (.sub rs rt rd, overflowSub (s.x rs) (s.x rt), s.x rs - s.x rt, rd),
        (.addi rs rt o, overflowAdd (s.x rs) (sgnExt o), s.x rs + sgnExt o, rt)],
      (p.intOverflow = .wrap ∨ ivd.2.1 = false → AnswersWrite ivd.2.2.2 ivd.2.2.1 s (execWith p ivd.1 s)) ∧
      (p.intOverflow = .fault → ivd.2.1 = true →
        execWith p ivd.1 s = .next (raise (.integerOverflow (s.pc - 4)) s p))) ∧
    (s32 (s.x rs) = -2147483648 → s32 (s.x rt) = -1 →
      (p.divOverflow = .wrap → execWith p (.div rs rt) s = .next { s with hi := 0, lo := 0x80000000 }) ∧
      (p.divOverflow = .fault →
        execWith p (.div rs rt) s = .next (raise (.integerOverflow (s.pc - 4)) s p))) ∧
    (AnswersFloat rd (p.numerics.add (s.x rs) (s.x rt)) s (execWith p (.fadd rs rt rd) s) ∧
      AnswersFloat rd (p.numerics.sub (s.x rs) (s.x rt)) s (execWith p (.fsub rs rt rd) s) ∧
      AnswersFloat rd (p.numerics.mul (s.x rs) (s.x rt)) s (execWith p (.fmul rs rt rd) s) ∧
      AnswersWrite rd (p.numerics.ofInt (s.x rt)) s (execWith p (.cvt rt rd) s)) ∧
    (∀ ic ∈ [(Instr.bfeq rs rt o, p.numerics.eq (s.x rs) (s.x rt)), (.bfne rs rt o, !p.numerics.eq (s.x rs) (s.x rt)),
        (.bfgz rs o, p.numerics.le p.numerics.zero (s.x rs)), (.bfgtz rs o, p.numerics.lt p.numerics.zero (s.x rs)),
        (.bflez rs o, p.numerics.le (s.x rs) p.numerics.zero), (.bfltz rs o, p.numerics.lt (s.x rs) p.numerics.zero)],
      execWith p ic.1 s = .next { s with pc := if ic.2 = true then s.pc + formOffset o else s.pc }) ∧
    (p.fdivByZero = .ieee ∨ p.numerics.isZero (s.x rt) = false →
      AnswersFloat rd (p.numerics.div (s.x rs) (s.x rt)) s (execWith p (.fdiv rs rt rd) s)) ∧
    (p.fdivByZero = .fault → p.numerics.isZero (s.x rt) = true →
      execWith p (.fdiv rs rt rd) s = .next (raise (.divideByZero (s.pc - 4)) s p)) ∧
    (∀ v, p.numerics.toIntRounded p.rndMode (s.x rt) = some v →
      AnswersWrite rd v s (execWith p (.rnd rt rd) s)) ∧
    (p.numerics.toIntRounded p.rndMode (s.x rt) = none →
      (p.rndOutOfRange = .fault →
        execWith p (.rnd rt rd) s = .next (raise (.floatToIntRange (s.pc - 4)) s p)) ∧
      (p.rndOutOfRange = .anyValue → rd ≠ 0 →
        ∃ v, execWith p (.rnd rt rd) s = .next ({ s with draws := s.draws + 1 }.setReg rd v))) ∧
    (s.stdin = [] → execWith p .rch s = .next (s.setReg 2 p.eofValue)) ∧
    (∀ it ∈ [(Instr.pint, p.formatInt (s32 (s.x 4))), (.pflt, p.formatFloat (s.x 4))],
      execWith p it.1 s = .next ({ s with
        stdout := s.stdout ++ it.2.map OutItem.program }.setReg 2 (w32 it.2.length))) ∧
    (∀ v rest, p.parseFloat s.stdin = (.datum v, rest) →
      execWith p .rflt s = .next ({ s with stdin := rest }.setReg 2 v)) ∧
    (∀ rest, p.parseFloat s.stdin = (.nan, rest) ∨ p.parseFloat s.stdin = (.nothing, rest) → ∃ v,
      execWith p .rflt s = .next ({ s with stdin := rest, draws := s.draws + 1 }.setReg 2 v)) ∧
    (∀ (bs : List Byte) (textStart textLength dataStart intsLength floatsLength stackBottom : Word)
        (bs1 bs2 bs3 bs4 bs5 rest : List Byte),
      p.bofWord bs = some (textStart, bs1) → p.bofWord bs1 = some (textLength, bs2) →
      p.bofWord bs2 = some (dataStart, bs3) → p.bofWord bs3 = some (intsLength, bs4) →
      p.bofWord bs4 = some (floatsLength, bs5) → p.bofWord bs5 = some (stackBottom, rest) →
      Bof.parse ([0x46, 0x42, 0x46, 0x00] ++ bs) p = .ok
        { textStart, textLength, dataStart, intsLength, floatsLength, stackBottom,
          text := rest.take (u32 textLength),
          data := (rest.drop (u32 textLength)).take (u32 intsLength + u32 floatsLength) })
end

