-- ==== Sys2Proof/Laws/Decode.lean ====
section
/-! SUPPORT. The fields of a written word are the fields it was written from: words and their fields as numbers, under
`FIELD_ORDER = msb_first` (spec R81 to R85). -/

namespace Sys2Proof

/-- Concatenation as arithmetic, the first operand in the more significant position (R9). -/
theorem toNat_append_eq {a b : Nat} (x : BitVec a) (y : BitVec b) :
    (x ++ y).toNat = x.toNat * 2 ^ b + y.toNat := by
  rw [BitVec.toNat_append, ← Nat.shiftLeft_add_eq_or_of_lt y.isLt, Nat.shiftLeft_eq]

/-- A field of a word as a number. -/
theorem toNat_bitField (lo n : Nat) (w : Word) : (bitField lo n w).toNat = w.toNat / 2 ^ lo % 2 ^ n := by
  simp [bitField, Nat.shiftRight_eq_div_pow]

/-- A register field of a word as a number. -/
theorem val_regField (lo : Nat) (w : Word) : (regField lo w).val = w.toNat / 2 ^ lo % 32 := by
  simpa [regField] using toNat_bitField lo 5 w

/-- A word of the register format as a number (R81). -/
theorem toNat_registerWord (rs rt rd : Reg) (h : Nat) (f : BitVec 6) :
    (registerWord .msbFirst rs rt rd h f).toNat =
      rs.val * 2097152 + rt.val * 65536 + rd.val * 2048 + h % 32 * 64 + f.toNat := by
  have e : (0#6 ++ (BitVec.ofFin rs : BitVec 5) ++ (BitVec.ofFin rt : BitVec 5) ++ (BitVec.ofFin rd : BitVec 5) ++
      BitVec.ofNat 5 h ++ f).toNat =
      rs.val * 2097152 + rt.val * 65536 + rd.val * 2048 + h % 32 * 64 + f.toNat := by
    simp only [toNat_append_eq, BitVec.toNat_ofNat, BitVec.toNat_ofFin]
    omega
  exact e

/-- A word of the system-call format as a number (R82). -/
theorem toNat_serviceWord (code : BitVec 20) :
    (serviceWord .msbFirst code).toNat = code.toNat * 64 + 12 := by
  have e : (0#6 ++ code ++ 12#6).toNat = code.toNat * 64 + 12 := by
    simp only [toNat_append_eq, BitVec.toNat_ofNat]
    omega
  exact e

/-- A word of the immediate format as a number (R83). -/
theorem toNat_immediateWord (op : BitVec 6) (rs rt : Reg) (i : BitVec 16) :
    (immediateWord .msbFirst op rs rt i).toNat =
      op.toNat * 67108864 + rs.val * 2097152 + rt.val * 65536 + i.toNat := by
  have e : (op ++ (BitVec.ofFin rs : BitVec 5) ++ (BitVec.ofFin rt : BitVec 5) ++ i).toNat =
      op.toNat * 67108864 + rs.val * 2097152 + rt.val * 65536 + i.toNat := by
    simp only [toNat_append_eq, BitVec.toNat_ofFin]
    omega
  exact e

/-- A word of the jump format as a number (R84). -/
theorem toNat_jumpWord (op : BitVec 6) (a : BitVec 26) :
    (jumpWord .msbFirst op a).toNat = op.toNat * 67108864 + a.toNat := by
  have e : (op ++ a).toNat = op.toNat * 67108864 + a.toNat := by
    simp only [toNat_append_eq]
    omega
  exact e

/-- The fields a register-format word was written from (R81). -/
theorem fieldsOf_registerWord (rs rt rd : Reg) (h : Nat) (f : BitVec 6) :
    (fieldsOf .msbFirst (registerWord .msbFirst rs rt rd h f)).op = 0 ∧
    (fieldsOf .msbFirst (registerWord .msbFirst rs rt rd h f)).rs = rs ∧
    (fieldsOf .msbFirst (registerWord .msbFirst rs rt rd h f)).rt = rt ∧
    (fieldsOf .msbFirst (registerWord .msbFirst rs rt rd h f)).rd = rd ∧
    (fieldsOf .msbFirst (registerWord .msbFirst rs rt rd h f)).shift = h % 32 ∧
    (fieldsOf .msbFirst (registerWord .msbFirst rs rt rd h f)).func = f := by
  have hf := f.isLt
  refine ⟨BitVec.eq_of_toNat_eq ?_, Fin.ext ?_, Fin.ext ?_, Fin.ext ?_, ?_, BitVec.eq_of_toNat_eq ?_⟩ <;>
    simp only [fieldsOf, toNat_bitField, val_regField, toNat_registerWord, BitVec.ofNat_eq_ofNat,
      BitVec.toNat_ofNat] <;> omega

/-- The fields a system-call word was written from (R82). -/
theorem fieldsOf_serviceWord (code : BitVec 20) :
    (fieldsOf .msbFirst (serviceWord .msbFirst code)).op = 0 ∧
    (fieldsOf .msbFirst (serviceWord .msbFirst code)).func = 12 ∧
    (fieldsOf .msbFirst (serviceWord .msbFirst code)).code = code := by
  have hc := code.isLt
  refine ⟨BitVec.eq_of_toNat_eq ?_, BitVec.eq_of_toNat_eq ?_, BitVec.eq_of_toNat_eq ?_⟩ <;>
    simp only [fieldsOf, toNat_bitField, toNat_serviceWord, BitVec.ofNat_eq_ofNat, BitVec.toNat_ofNat] <;> omega

/-- The fields an immediate-format word was written from (R83). -/
theorem fieldsOf_immediateWord (op : BitVec 6) (rs rt : Reg) (i : BitVec 16) :
    (fieldsOf .msbFirst (immediateWord .msbFirst op rs rt i)).op = op ∧
    (fieldsOf .msbFirst (immediateWord .msbFirst op rs rt i)).rs = rs ∧
    (fieldsOf .msbFirst (immediateWord .msbFirst op rs rt i)).rt = rt ∧
    (fieldsOf .msbFirst (immediateWord .msbFirst op rs rt i)).immed = i := by
  have ho := op.isLt
  have hi := i.isLt
  refine ⟨BitVec.eq_of_toNat_eq ?_, Fin.ext ?_, Fin.ext ?_, BitVec.eq_of_toNat_eq ?_⟩ <;>
    simp only [fieldsOf, toNat_bitField, val_regField, toNat_immediateWord] <;> omega

/-- The fields a jump-format word was written from (R84). -/
theorem fieldsOf_jumpWord (op : BitVec 6) (a : BitVec 26) :
    (fieldsOf .msbFirst (jumpWord .msbFirst op a)).op = op ∧
    (fieldsOf .msbFirst (jumpWord .msbFirst op a)).addr = a := by
  have ho := op.isLt
  have ha := a.isLt
  refine ⟨BitVec.eq_of_toNat_eq ?_, BitVec.eq_of_toNat_eq ?_⟩ <;>
    simp only [fieldsOf, toNat_bitField, toNat_jumpWord] <;> omega

end Sys2Proof
end

