-- ==== Sys2Proof/Laws/Memory.lean ====
section
/-! SUPPORT. The laws of the memory (spec R52 to R57): a byte read after a byte written, and the canonical form, which
every memory operation keeps. -/

namespace Sys2Proof.Machine

/-- An erased address reads as an unlisted one, every other as before. -/
theorem Memory.read_erase (m : Memory) (a b : Nat) :
    (m.erase a).read b = if b = a then Memory.unlisted else m.read b := by
  induction m with
  | nil => simp [Memory.erase, Memory.read]
  | cons c m ih =>
    obtain ⟨k, v⟩ := c
    simp only [Memory.erase, Memory.read]
    split
    · rw [ih]; split <;> simp_all
      intro h; simp_all
    · simp only [Memory.read, ih]
      split <;> simp_all

/-- Erasing only removes entries. -/
theorem Memory.mem_of_mem_erase {m : Memory} {a : Nat} {c : Host.Cell} (h : c ∈ m.erase a) : c ∈ m ∧ c.1 ≠ a := by
  induction m with
  | nil => simp [Memory.erase] at h
  | cons d m ih =>
    obtain ⟨k, v⟩ := d
    simp only [Memory.erase] at h
    split at h
    · exact ⟨List.mem_cons_of_mem _ (ih h).1, (ih h).2⟩
    · rcases List.mem_cons.mp h with rfl | h'
      · exact ⟨List.mem_cons_self, by assumption⟩
      · exact ⟨List.mem_cons_of_mem _ (ih h').1, (ih h').2⟩

/-- An inserted entry is read at its address, if no entry stood there; every other address reads as before. -/
theorem Memory.read_insert (m : Memory) (a b : Nat) (v : Byte) (h : ∀ c ∈ m, c.1 ≠ a) :
    (m.insert a v).read b = if b = a then v else m.read b := by
  induction m with
  | nil =>
    simp only [Memory.insert, Memory.read, eq_comm (a := a)]
  | cons c m ih =>
    obtain ⟨k, w⟩ := c
    have hk : k ≠ a := h (k, w) List.mem_cons_self
    have ih' := ih fun c hc => h c (List.mem_cons_of_mem _ hc)
    simp only [Memory.insert]
    by_cases hb : b = a
    · subst hb
      split <;> simp [Memory.read, hk, ih']
    · have hb' : a ≠ b := fun e => hb e.symm
      split <;> simp [Memory.read, hb, hb', ih']

/-- A byte read after a byte written: the new byte at its address, the old one everywhere else (R57). -/
theorem Memory.read_write (m : Memory) (a b : Nat) (v : Byte) :
    (m.write a v).read b = if b = a then v else m.read b := by
  unfold Memory.write
  split
  · rw [Memory.read_erase]; simp_all
  · rw [Memory.read_insert _ _ _ _ fun c hc => (Memory.mem_of_mem_erase hc).2, Memory.read_erase]
    split <;> rfl

/-- Erasing keeps the canonical form. -/
theorem Memory.wf_erase {m : Memory} (a : Nat) (h : m.wf) : (m.erase a).wf := by
  refine ⟨?_, fun c hc => h.2 c (Memory.mem_of_mem_erase hc).1⟩
  have hs := h.1
  clear h
  induction m with
  | nil => simp [Memory.erase]
  | cons c m ih =>
    obtain ⟨k, v⟩ := c
    simp only [Memory.erase]
    rw [List.pairwise_cons] at hs
    split
    · exact ih hs.2
    · exact List.pairwise_cons.mpr ⟨fun d hd => hs.1 d (Memory.mem_of_mem_erase hd).1, ih hs.2⟩

/-- What an insertion's entries are. -/
theorem Memory.mem_insert {m : Memory} {a : Nat} {v : Byte} {c : Host.Cell} (h : c ∈ m.insert a v) :
    c = (a, v) ∨ c ∈ m := by
  induction m with
  | nil => simpa [Memory.insert] using h
  | cons d m ih =>
    obtain ⟨k, w⟩ := d
    simp only [Memory.insert] at h
    split at h
    · simpa using h
    · rcases List.mem_cons.mp h with rfl | h'
      · exact .inr List.mem_cons_self
      · exact (ih h').imp id (List.mem_cons_of_mem _)

/-- Inserting where no entry stands keeps the canonical form. -/
theorem Memory.wf_insert {m : Memory} {a : Nat} {v : Byte} (h : m.wf) (ha : a < Config.memorySize)
    (hv : v ≠ Memory.unlisted) (hn : ∀ c ∈ m, c.1 ≠ a) : (m.insert a v).wf := by
  refine ⟨?_, fun c hc => ?_⟩
  · have hs := h.1
    clear h
    induction m with
    | nil => simp [Memory.insert]
    | cons c m ih =>
      obtain ⟨k, w⟩ := c
      have hk : k ≠ a := hn (k, w) List.mem_cons_self
      simp only [Memory.insert]
      split
      · refine List.pairwise_cons.mpr ⟨fun d hd => ?_, hs⟩
        rcases List.mem_cons.mp hd with rfl | hd'
        · assumption
        · have := (List.pairwise_cons.mp hs).1 d hd'
          simp only at this ⊢
          omega
      · refine List.pairwise_cons.mpr
          ⟨fun d hd => ?_, ih (fun c hc => hn c (List.mem_cons_of_mem _ hc)) (List.pairwise_cons.mp hs).2⟩
        rcases Memory.mem_insert hd with rfl | hd'
        · simp only; omega
        · exact (List.pairwise_cons.mp hs).1 d hd'
  · rcases Memory.mem_insert hc with rfl | hc'
    · exact ⟨hv, ha⟩
    · exact h.2 c hc'

/-- A byte written in memory keeps the canonical form. -/
theorem Memory.wf_write {m : Memory} {a : Nat} (v : Byte) (h : m.wf) (ha : a < Config.memorySize) :
    (m.write a v).wf := by
  unfold Memory.write
  split
  · exact Memory.wf_erase a h
  · exact Memory.wf_insert (Memory.wf_erase a h) ha (by assumption) fun c hc => (Memory.mem_of_mem_erase hc).2

/-- Bytes written in memory keep the canonical form. -/
theorem Memory.wf_writeBytes {m : Memory} {a : Nat} (bs : List Byte) (h : m.wf)
    (ha : a + bs.length ≤ Config.memorySize) : (m.writeBytes a bs).wf := by
  induction bs generalizing m a with
  | nil => exact h
  | cons b bs ih =>
    simp only [List.length_cons] at ha
    exact ih (Memory.wf_write b h (by omega)) (by omega)

/-- A word written in memory keeps the canonical form. -/
theorem Memory.wf_writeWord {m : Memory} {a : Nat} (v : Word) (h : m.wf) (ha : a + 4 ≤ Config.memorySize) :
    (m.writeWord a v).wf :=
  Memory.wf_writeBytes _ h (by simpa [bytesOfWord] using ha)

/-- A byte read after bytes written: the new one inside the range, the old one outside it (R57). -/
theorem Memory.read_writeBytes (m : Memory) (a b : Nat) (bs : List Byte) :
    (m.writeBytes a bs).read b = if a ≤ b then bs.getD (b - a) (m.read b) else m.read b := by
  induction bs generalizing m a with
  | nil => simp [Memory.writeBytes]
  | cons c bs ih =>
    simp only [Memory.writeBytes, ih, Memory.read_write]
    rcases Nat.lt_trichotomy b a with h | h | h
    · have h1 : ¬ a + 1 ≤ b := by omega
      have h2 : ¬ a ≤ b := by omega
      have h3 : b ≠ a := by omega
      simp [h1, h2, h3]
    · subst h
      simp
    · have h1 : a + 1 ≤ b := by omega
      have h2 : a ≤ b := by omega
      have h3 : b ≠ a := by omega
      obtain ⟨n, rfl⟩ : ∃ n, b = a + 1 + n := ⟨b - (a + 1), by omega⟩
      have h4 : a + 1 + n - (a + 1) = n := by omega
      have h5 : a + 1 + n - a = n + 1 := by omega
      simp [h2, h3, h5]

/-- The reset memory is canonical. -/
theorem Memory.wf_nil : Memory.wf [] := ⟨List.Pairwise.nil, by simp⟩

/-- The state right after reset has its memory in canonical form. -/
theorem reset_memory_wf : State.reset.mem.wf := Memory.wf_nil

end Sys2Proof.Machine
end

