-- ==== Sys2Proof/Laws/State.lean ====
section
/-! SUPPORT. What each plain update of the state leaves in each field: one lemma per field per update, so that no later
proof unfolds a record update. -/

namespace Sys2Proof.Machine

section fields

variable (s : State)

@[simp] theorem State.setPc_regs (target : Word) : (s.setPc target).regs = s.regs := rfl
@[simp] theorem State.setPc_pc (target : Word) : (s.setPc target).pc = target := rfl
@[simp] theorem State.setPc_hi (target : Word) : (s.setPc target).hi = s.hi := rfl
@[simp] theorem State.setPc_lo (target : Word) : (s.setPc target).lo = s.lo := rfl
@[simp] theorem State.setPc_ir (target : Word) : (s.setPc target).ir = s.ir := rfl
@[simp] theorem State.setPc_mem (target : Word) : (s.setPc target).mem = s.mem := rfl
@[simp] theorem State.setPc_tracing (target : Word) : (s.setPc target).tracing = s.tracing := rfl
@[simp] theorem State.setPc_stdin (target : Word) : (s.setPc target).stdin = s.stdin := rfl
@[simp] theorem State.setPc_stdout (target : Word) : (s.setPc target).stdout = s.stdout := rfl
@[simp] theorem State.setPc_stderr (target : Word) : (s.setPc target).stderr = s.stderr := rfl
@[simp] theorem State.setPc_status (target : Word) : (s.setPc target).status = s.status := rfl
@[simp] theorem State.setPc_stackBottom (target : Word) : (s.setPc target).stackBottom = s.stackBottom := rfl
@[simp] theorem State.setPc_dataLength (target : Word) : (s.setPc target).dataLength = s.dataLength := rfl
@[simp] theorem State.setPc_draws (target : Word) : (s.setPc target).draws = s.draws := rfl

@[simp] theorem State.setHiLo_regs (hi lo : Word) : (s.setHiLo hi lo).regs = s.regs := rfl
@[simp] theorem State.setHiLo_pc (hi lo : Word) : (s.setHiLo hi lo).pc = s.pc := rfl
@[simp] theorem State.setHiLo_hi (hi lo : Word) : (s.setHiLo hi lo).hi = hi := rfl
@[simp] theorem State.setHiLo_lo (hi lo : Word) : (s.setHiLo hi lo).lo = lo := rfl
@[simp] theorem State.setHiLo_ir (hi lo : Word) : (s.setHiLo hi lo).ir = s.ir := rfl
@[simp] theorem State.setHiLo_mem (hi lo : Word) : (s.setHiLo hi lo).mem = s.mem := rfl
@[simp] theorem State.setHiLo_tracing (hi lo : Word) : (s.setHiLo hi lo).tracing = s.tracing := rfl
@[simp] theorem State.setHiLo_stdin (hi lo : Word) : (s.setHiLo hi lo).stdin = s.stdin := rfl
@[simp] theorem State.setHiLo_stdout (hi lo : Word) : (s.setHiLo hi lo).stdout = s.stdout := rfl
@[simp] theorem State.setHiLo_stderr (hi lo : Word) : (s.setHiLo hi lo).stderr = s.stderr := rfl
@[simp] theorem State.setHiLo_status (hi lo : Word) : (s.setHiLo hi lo).status = s.status := rfl
@[simp] theorem State.setHiLo_stackBottom (hi lo : Word) : (s.setHiLo hi lo).stackBottom = s.stackBottom := rfl
@[simp] theorem State.setHiLo_dataLength (hi lo : Word) : (s.setHiLo hi lo).dataLength = s.dataLength := rfl
@[simp] theorem State.setHiLo_draws (hi lo : Word) : (s.setHiLo hi lo).draws = s.draws := rfl

@[simp] theorem State.setMem_regs (m : Memory) : (s.setMem m).regs = s.regs := rfl
@[simp] theorem State.setMem_pc (m : Memory) : (s.setMem m).pc = s.pc := rfl
@[simp] theorem State.setMem_hi (m : Memory) : (s.setMem m).hi = s.hi := rfl
@[simp] theorem State.setMem_lo (m : Memory) : (s.setMem m).lo = s.lo := rfl
@[simp] theorem State.setMem_ir (m : Memory) : (s.setMem m).ir = s.ir := rfl
@[simp] theorem State.setMem_mem (m : Memory) : (s.setMem m).mem = m := rfl
@[simp] theorem State.setMem_tracing (m : Memory) : (s.setMem m).tracing = s.tracing := rfl
@[simp] theorem State.setMem_stdin (m : Memory) : (s.setMem m).stdin = s.stdin := rfl
@[simp] theorem State.setMem_stdout (m : Memory) : (s.setMem m).stdout = s.stdout := rfl
@[simp] theorem State.setMem_stderr (m : Memory) : (s.setMem m).stderr = s.stderr := rfl
@[simp] theorem State.setMem_status (m : Memory) : (s.setMem m).status = s.status := rfl
@[simp] theorem State.setMem_stackBottom (m : Memory) : (s.setMem m).stackBottom = s.stackBottom := rfl
@[simp] theorem State.setMem_dataLength (m : Memory) : (s.setMem m).dataLength = s.dataLength := rfl
@[simp] theorem State.setMem_draws (m : Memory) : (s.setMem m).draws = s.draws := rfl

@[simp] theorem State.setTracing_regs (on : Bool) : (s.setTracing on).regs = s.regs := rfl
@[simp] theorem State.setTracing_pc (on : Bool) : (s.setTracing on).pc = s.pc := rfl
@[simp] theorem State.setTracing_hi (on : Bool) : (s.setTracing on).hi = s.hi := rfl
@[simp] theorem State.setTracing_lo (on : Bool) : (s.setTracing on).lo = s.lo := rfl
@[simp] theorem State.setTracing_ir (on : Bool) : (s.setTracing on).ir = s.ir := rfl
@[simp] theorem State.setTracing_mem (on : Bool) : (s.setTracing on).mem = s.mem := rfl
@[simp] theorem State.setTracing_tracing (on : Bool) : (s.setTracing on).tracing = on := rfl
@[simp] theorem State.setTracing_stdin (on : Bool) : (s.setTracing on).stdin = s.stdin := rfl
@[simp] theorem State.setTracing_stdout (on : Bool) : (s.setTracing on).stdout = s.stdout := rfl
@[simp] theorem State.setTracing_stderr (on : Bool) : (s.setTracing on).stderr = s.stderr := rfl
@[simp] theorem State.setTracing_status (on : Bool) : (s.setTracing on).status = s.status := rfl
@[simp] theorem State.setTracing_stackBottom (on : Bool) : (s.setTracing on).stackBottom = s.stackBottom := rfl
@[simp] theorem State.setTracing_dataLength (on : Bool) : (s.setTracing on).dataLength = s.dataLength := rfl
@[simp] theorem State.setTracing_draws (on : Bool) : (s.setTracing on).draws = s.draws := rfl

@[simp] theorem State.setStdin_regs (bs : List Byte) : (s.setStdin bs).regs = s.regs := rfl
@[simp] theorem State.setStdin_pc (bs : List Byte) : (s.setStdin bs).pc = s.pc := rfl
@[simp] theorem State.setStdin_hi (bs : List Byte) : (s.setStdin bs).hi = s.hi := rfl
@[simp] theorem State.setStdin_lo (bs : List Byte) : (s.setStdin bs).lo = s.lo := rfl
@[simp] theorem State.setStdin_ir (bs : List Byte) : (s.setStdin bs).ir = s.ir := rfl
@[simp] theorem State.setStdin_mem (bs : List Byte) : (s.setStdin bs).mem = s.mem := rfl
@[simp] theorem State.setStdin_tracing (bs : List Byte) : (s.setStdin bs).tracing = s.tracing := rfl
@[simp] theorem State.setStdin_stdin (bs : List Byte) : (s.setStdin bs).stdin = bs := rfl
@[simp] theorem State.setStdin_stdout (bs : List Byte) : (s.setStdin bs).stdout = s.stdout := rfl
@[simp] theorem State.setStdin_stderr (bs : List Byte) : (s.setStdin bs).stderr = s.stderr := rfl
@[simp] theorem State.setStdin_status (bs : List Byte) : (s.setStdin bs).status = s.status := rfl
@[simp] theorem State.setStdin_stackBottom (bs : List Byte) : (s.setStdin bs).stackBottom = s.stackBottom := rfl
@[simp] theorem State.setStdin_dataLength (bs : List Byte) : (s.setStdin bs).dataLength = s.dataLength := rfl
@[simp] theorem State.setStdin_draws (bs : List Byte) : (s.setStdin bs).draws = s.draws := rfl

@[simp] theorem State.setReg_regs (d : Reg) (v : Word) : (s.setReg d v).regs = s.regs.set d v := rfl
@[simp] theorem State.setReg_pc (d : Reg) (v : Word) : (s.setReg d v).pc = s.pc := rfl
@[simp] theorem State.setReg_hi (d : Reg) (v : Word) : (s.setReg d v).hi = s.hi := rfl
@[simp] theorem State.setReg_lo (d : Reg) (v : Word) : (s.setReg d v).lo = s.lo := rfl
@[simp] theorem State.setReg_ir (d : Reg) (v : Word) : (s.setReg d v).ir = s.ir := rfl
@[simp] theorem State.setReg_mem (d : Reg) (v : Word) : (s.setReg d v).mem = s.mem := rfl
@[simp] theorem State.setReg_tracing (d : Reg) (v : Word) : (s.setReg d v).tracing = s.tracing := rfl
@[simp] theorem State.setReg_stdin (d : Reg) (v : Word) : (s.setReg d v).stdin = s.stdin := rfl
@[simp] theorem State.setReg_stdout (d : Reg) (v : Word) : (s.setReg d v).stdout = s.stdout := rfl
@[simp] theorem State.setReg_stderr (d : Reg) (v : Word) : (s.setReg d v).stderr = s.stderr := rfl
@[simp] theorem State.setReg_status (d : Reg) (v : Word) : (s.setReg d v).status = s.status := rfl
@[simp] theorem State.setReg_stackBottom (d : Reg) (v : Word) : (s.setReg d v).stackBottom = s.stackBottom := rfl
@[simp] theorem State.setReg_dataLength (d : Reg) (v : Word) : (s.setReg d v).dataLength = s.dataLength := rfl
@[simp] theorem State.setReg_draws (d : Reg) (v : Word) : (s.setReg d v).draws = s.draws := rfl

@[simp] theorem State.emit_regs (items : List OutItem) : (s.emit items).regs = s.regs := rfl
@[simp] theorem State.emit_pc (items : List OutItem) : (s.emit items).pc = s.pc := rfl
@[simp] theorem State.emit_hi (items : List OutItem) : (s.emit items).hi = s.hi := rfl
@[simp] theorem State.emit_lo (items : List OutItem) : (s.emit items).lo = s.lo := rfl
@[simp] theorem State.emit_ir (items : List OutItem) : (s.emit items).ir = s.ir := rfl
@[simp] theorem State.emit_mem (items : List OutItem) : (s.emit items).mem = s.mem := rfl
@[simp] theorem State.emit_tracing (items : List OutItem) : (s.emit items).tracing = s.tracing := rfl
@[simp] theorem State.emit_stdin (items : List OutItem) : (s.emit items).stdin = s.stdin := rfl
@[simp] theorem State.emit_stdout (items : List OutItem) : (s.emit items).stdout = s.stdout ++ items := rfl
@[simp] theorem State.emit_stderr (items : List OutItem) : (s.emit items).stderr = s.stderr := rfl
@[simp] theorem State.emit_status (items : List OutItem) : (s.emit items).status = s.status := rfl
@[simp] theorem State.emit_stackBottom (items : List OutItem) : (s.emit items).stackBottom = s.stackBottom := rfl
@[simp] theorem State.emit_dataLength (items : List OutItem) : (s.emit items).dataLength = s.dataLength := rfl
@[simp] theorem State.emit_draws (items : List OutItem) : (s.emit items).draws = s.draws := rfl

@[simp] theorem State.halt_regs (code : Nat) : (s.halt code).regs = s.regs := rfl
@[simp] theorem State.halt_pc (code : Nat) : (s.halt code).pc = s.pc := rfl
@[simp] theorem State.halt_hi (code : Nat) : (s.halt code).hi = s.hi := rfl
@[simp] theorem State.halt_lo (code : Nat) : (s.halt code).lo = s.lo := rfl
@[simp] theorem State.halt_ir (code : Nat) : (s.halt code).ir = s.ir := rfl
@[simp] theorem State.halt_mem (code : Nat) : (s.halt code).mem = s.mem := rfl
@[simp] theorem State.halt_tracing (code : Nat) : (s.halt code).tracing = s.tracing := rfl
@[simp] theorem State.halt_stdin (code : Nat) : (s.halt code).stdin = s.stdin := rfl
@[simp] theorem State.halt_stdout (code : Nat) : (s.halt code).stdout = s.stdout := rfl
@[simp] theorem State.halt_stderr (code : Nat) : (s.halt code).stderr = s.stderr := rfl
@[simp] theorem State.halt_status (code : Nat) : (s.halt code).status = .halted code := rfl
@[simp] theorem State.halt_stackBottom (code : Nat) : (s.halt code).stackBottom = s.stackBottom := rfl
@[simp] theorem State.halt_dataLength (code : Nat) : (s.halt code).dataLength = s.dataLength := rfl
@[simp] theorem State.halt_draws (code : Nat) : (s.halt code).draws = s.draws := rfl

@[simp] theorem State.report_regs (e : MachineError) : (s.report e).regs = s.regs := rfl
@[simp] theorem State.report_pc (e : MachineError) : (s.report e).pc = s.pc := rfl
@[simp] theorem State.report_hi (e : MachineError) : (s.report e).hi = s.hi := rfl
@[simp] theorem State.report_lo (e : MachineError) : (s.report e).lo = s.lo := rfl
@[simp] theorem State.report_ir (e : MachineError) : (s.report e).ir = s.ir := rfl
@[simp] theorem State.report_mem (e : MachineError) : (s.report e).mem = s.mem := rfl
@[simp] theorem State.report_tracing (e : MachineError) : (s.report e).tracing = s.tracing := rfl
@[simp] theorem State.report_stdin (e : MachineError) : (s.report e).stdin = s.stdin := rfl
@[simp] theorem State.report_stdout (e : MachineError) : (s.report e).stdout = s.stdout := rfl
@[simp] theorem State.report_stderr (e : MachineError) : (s.report e).stderr = s.stderr ++ [e] := rfl
@[simp] theorem State.report_status (e : MachineError) : (s.report e).status = s.status := rfl
@[simp] theorem State.report_stackBottom (e : MachineError) : (s.report e).stackBottom = s.stackBottom := rfl
@[simp] theorem State.report_dataLength (e : MachineError) : (s.report e).dataLength = s.dataLength := rfl
@[simp] theorem State.report_draws (e : MachineError) : (s.report e).draws = s.draws := rfl

@[simp] theorem State.nextDraw_regs : (s.nextDraw).regs = s.regs := rfl
@[simp] theorem State.nextDraw_pc : (s.nextDraw).pc = s.pc := rfl
@[simp] theorem State.nextDraw_hi : (s.nextDraw).hi = s.hi := rfl
@[simp] theorem State.nextDraw_lo : (s.nextDraw).lo = s.lo := rfl
@[simp] theorem State.nextDraw_ir : (s.nextDraw).ir = s.ir := rfl
@[simp] theorem State.nextDraw_mem : (s.nextDraw).mem = s.mem := rfl
@[simp] theorem State.nextDraw_tracing : (s.nextDraw).tracing = s.tracing := rfl
@[simp] theorem State.nextDraw_stdin : (s.nextDraw).stdin = s.stdin := rfl
@[simp] theorem State.nextDraw_stdout : (s.nextDraw).stdout = s.stdout := rfl
@[simp] theorem State.nextDraw_stderr : (s.nextDraw).stderr = s.stderr := rfl
@[simp] theorem State.nextDraw_status : (s.nextDraw).status = s.status := rfl
@[simp] theorem State.nextDraw_stackBottom : (s.nextDraw).stackBottom = s.stackBottom := rfl
@[simp] theorem State.nextDraw_dataLength : (s.nextDraw).dataLength = s.dataLength := rfl
@[simp] theorem State.nextDraw_draws : (s.nextDraw).draws = s.draws + 1 := rfl

@[simp] theorem raise_regs (e : MachineError) (p : Parameters) : (raise e s p).regs = s.regs := rfl
@[simp] theorem raise_pc (e : MachineError) (p : Parameters) : (raise e s p).pc = s.pc := rfl
@[simp] theorem raise_hi (e : MachineError) (p : Parameters) : (raise e s p).hi = s.hi := rfl
@[simp] theorem raise_lo (e : MachineError) (p : Parameters) : (raise e s p).lo = s.lo := rfl
@[simp] theorem raise_ir (e : MachineError) (p : Parameters) : (raise e s p).ir = s.ir := rfl
@[simp] theorem raise_mem (e : MachineError) (p : Parameters) : (raise e s p).mem = s.mem := rfl
@[simp] theorem raise_tracing (e : MachineError) (p : Parameters) : (raise e s p).tracing = s.tracing := rfl
@[simp] theorem raise_stdin (e : MachineError) (p : Parameters) : (raise e s p).stdin = s.stdin := rfl
@[simp] theorem raise_stdout (e : MachineError) (p : Parameters) : (raise e s p).stdout = s.stdout := rfl
@[simp] theorem raise_stderr (e : MachineError) (p : Parameters) : (raise e s p).stderr = s.stderr ++ [e] := rfl
@[simp] theorem raise_status (e : MachineError) (p : Parameters) : (raise e s p).status = .halted p.errorExitCode := rfl
@[simp] theorem raise_stackBottom (e : MachineError) (p : Parameters) : (raise e s p).stackBottom = s.stackBottom := rfl
@[simp] theorem raise_dataLength (e : MachineError) (p : Parameters) : (raise e s p).dataLength = s.dataLength := rfl
@[simp] theorem raise_draws (e : MachineError) (p : Parameters) : (raise e s p).draws = s.draws := rfl

@[simp] theorem haltNormally_regs : (haltNormally s).regs = s.regs := rfl
@[simp] theorem haltNormally_pc : (haltNormally s).pc = s.pc := rfl
@[simp] theorem haltNormally_hi : (haltNormally s).hi = s.hi := rfl
@[simp] theorem haltNormally_lo : (haltNormally s).lo = s.lo := rfl
@[simp] theorem haltNormally_ir : (haltNormally s).ir = s.ir := rfl
@[simp] theorem haltNormally_mem : (haltNormally s).mem = s.mem := rfl
@[simp] theorem haltNormally_tracing : (haltNormally s).tracing = s.tracing := rfl
@[simp] theorem haltNormally_stdin : (haltNormally s).stdin = s.stdin := rfl
@[simp] theorem haltNormally_stdout : (haltNormally s).stdout = s.stdout := rfl
@[simp] theorem haltNormally_stderr : (haltNormally s).stderr = s.stderr := rfl
@[simp] theorem haltNormally_status : (haltNormally s).status = .halted 0 := rfl
@[simp] theorem haltNormally_stackBottom : (haltNormally s).stackBottom = s.stackBottom := rfl
@[simp] theorem haltNormally_dataLength : (haltNormally s).dataLength = s.dataLength := rfl
@[simp] theorem haltNormally_draws : (haltNormally s).draws = s.draws := rfl

@[simp] theorem advance_regs (ir : Word) : (advance ir s).regs = s.regs := rfl
@[simp] theorem advance_pc (ir : Word) : (advance ir s).pc = s.pc + 4 := rfl
@[simp] theorem advance_hi (ir : Word) : (advance ir s).hi = s.hi := rfl
@[simp] theorem advance_lo (ir : Word) : (advance ir s).lo = s.lo := rfl
@[simp] theorem advance_ir (ir : Word) : (advance ir s).ir = ir := rfl
@[simp] theorem advance_mem (ir : Word) : (advance ir s).mem = s.mem := rfl
@[simp] theorem advance_tracing (ir : Word) : (advance ir s).tracing = s.tracing := rfl
@[simp] theorem advance_stdin (ir : Word) : (advance ir s).stdin = s.stdin := rfl
@[simp] theorem advance_stdout (ir : Word) : (advance ir s).stdout = s.stdout := rfl
@[simp] theorem advance_stderr (ir : Word) : (advance ir s).stderr = s.stderr := rfl
@[simp] theorem advance_status (ir : Word) : (advance ir s).status = s.status := rfl
@[simp] theorem advance_stackBottom (ir : Word) : (advance ir s).stackBottom = s.stackBottom := rfl
@[simp] theorem advance_dataLength (ir : Word) : (advance ir s).dataLength = s.dataLength := rfl
@[simp] theorem advance_draws (ir : Word) : (advance ir s).draws = s.draws := rfl

@[simp] theorem outBytes_regs (bs : List Byte) : (outBytes bs s).regs = s.regs := rfl
@[simp] theorem outBytes_pc (bs : List Byte) : (outBytes bs s).pc = s.pc := rfl
@[simp] theorem outBytes_hi (bs : List Byte) : (outBytes bs s).hi = s.hi := rfl
@[simp] theorem outBytes_lo (bs : List Byte) : (outBytes bs s).lo = s.lo := rfl
@[simp] theorem outBytes_ir (bs : List Byte) : (outBytes bs s).ir = s.ir := rfl
@[simp] theorem outBytes_mem (bs : List Byte) : (outBytes bs s).mem = s.mem := rfl
@[simp] theorem outBytes_tracing (bs : List Byte) : (outBytes bs s).tracing = s.tracing := rfl
@[simp] theorem outBytes_stdin (bs : List Byte) : (outBytes bs s).stdin = s.stdin := rfl
@[simp] theorem outBytes_stdout (bs : List Byte) : (outBytes bs s).stdout = s.stdout ++ bs.map OutItem.program := rfl
@[simp] theorem outBytes_stderr (bs : List Byte) : (outBytes bs s).stderr = s.stderr := rfl
@[simp] theorem outBytes_status (bs : List Byte) : (outBytes bs s).status = s.status := rfl
@[simp] theorem outBytes_stackBottom (bs : List Byte) : (outBytes bs s).stackBottom = s.stackBottom := rfl
@[simp] theorem outBytes_dataLength (bs : List Byte) : (outBytes bs s).dataLength = s.dataLength := rfl
@[simp] theorem outBytes_draws (bs : List Byte) : (outBytes bs s).draws = s.draws := rfl

end fields

section defaults

@[simp] theorem Parameters.default_fieldOrder : Parameters.default.fieldOrder = Sys2Proof.fieldOrder := rfl
@[simp] theorem Parameters.default_r0Write : Parameters.default.r0Write = .faultIfNonzero := rfl
@[simp] theorem Parameters.default_misalignedWordAccess : Parameters.default.misalignedWordAccess = .fault := rfl
@[simp] theorem Parameters.default_intOverflow : Parameters.default.intOverflow = .wrap := rfl
@[simp] theorem Parameters.default_divOverflow : Parameters.default.divOverflow = .fault := rfl
@[simp] theorem Parameters.default_numerics : Parameters.default.numerics = Machine.numerics := rfl
@[simp] theorem Parameters.default_fdivByZero : Parameters.default.fdivByZero = .fault := rfl
@[simp] theorem Parameters.default_rndMode : Parameters.default.rndMode = Params.rndMode := rfl
@[simp] theorem Parameters.default_rndOutOfRange : Parameters.default.rndOutOfRange = .fault := rfl
@[simp] theorem Parameters.default_eofValue : Parameters.default.eofValue = 0xFFFFFFFF := rfl
@[simp] theorem Parameters.default_errorExitCode : Parameters.default.errorExitCode = Params.errorExitCode := rfl
@[simp] theorem Parameters.default_formatInt : Parameters.default.formatInt = Machine.formatInt := rfl
@[simp] theorem Parameters.default_formatFloat : Parameters.default.formatFloat = Machine.formatFloat := rfl
@[simp] theorem Parameters.default_parseFloat : Parameters.default.parseFloat = Machine.parseFloat := rfl
@[simp] theorem Parameters.default_bofWord : Parameters.default.bofWord = takeWord := rfl

/-- R8 allows its own defaults. -/
theorem Parameters.default_allowed : Parameters.default.Allowed := ⟨by decide, by decide⟩

end defaults

/-- Register reads look at the registers' storage only (R22). -/
theorem State.x_congr {s t : State} (h : t.regs = s.regs) (r : Reg) : t.x r = s.x r := by
  simp [State.x, h]

/-- Register 0 reads zero (R22). -/
@[simp] theorem State.x_zero (s : State) : s.x 0 = 0 := rfl

/-- Every other register reads what is stored in it. -/
theorem State.x_of_ne {s : State} {r : Reg} (h : r ≠ 0) : s.x r = s.regs[r] := by
  simp [State.x, h]

/-- A register written reads its new value, register 0 excepted (R23). -/
@[simp] theorem State.setReg_x_same (s : State) (d : Reg) (v : Word) :
    (s.setReg d v).x d = if d = 0 then 0 else v := by
  unfold State.x State.setReg
  split <;> simp

/-- Every other register is as it was. -/
@[simp] theorem State.setReg_x_other (s : State) {d r : Reg} (v : Word) (h : r ≠ d) :
    (s.setReg d v).x r = s.x r := by
  unfold State.x State.setReg
  have : (d : Nat) ≠ r := fun e => h (Fin.ext e.symm)
  split <;> simp [this]

@[simp] theorem State.setPc_x (s : State) (target : Word) (r : Reg) : (s.setPc target).x r = s.x r := rfl
@[simp] theorem State.setHiLo_x (s : State) (hi lo : Word) (r : Reg) : (s.setHiLo hi lo).x r = s.x r := rfl
@[simp] theorem State.setMem_x (s : State) (m : Memory) (r : Reg) : (s.setMem m).x r = s.x r := rfl
@[simp] theorem State.setTracing_x (s : State) (on : Bool) (r : Reg) : (s.setTracing on).x r = s.x r := rfl
@[simp] theorem State.setStdin_x (s : State) (bs : List Byte) (r : Reg) : (s.setStdin bs).x r = s.x r := rfl
@[simp] theorem State.emit_x (s : State) (items : List OutItem) (r : Reg) : (s.emit items).x r = s.x r := rfl
@[simp] theorem State.halt_x (s : State) (code : Nat) (r : Reg) : (s.halt code).x r = s.x r := rfl
@[simp] theorem State.report_x (s : State) (e : MachineError) (r : Reg) : (s.report e).x r = s.x r := rfl
@[simp] theorem State.nextDraw_x (s : State) (r : Reg) : (s.nextDraw).x r = s.x r := rfl
@[simp] theorem raise_x (s : State) (e : MachineError) (p : Parameters) (r : Reg) : (raise e s p).x r = s.x r := rfl
@[simp] theorem haltNormally_x (s : State) (r : Reg) : (haltNormally s).x r = s.x r := rfl
@[simp] theorem advance_x (s : State) (ir : Word) (r : Reg) : (advance ir s).x r = s.x r := rfl
@[simp] theorem outBytes_x (s : State) (bs : List Byte) (r : Reg) : (outBytes bs s).x r = s.x r := rfl

end Sys2Proof.Machine
end

