-- ==== Sys2Proof/Laws/Ops.lean ====
section
/-! SUPPORT. One lemma per shared operation that says once everything it can do, for later proofs to cite instead of
unfolding it. -/

namespace Sys2Proof.Machine

/-- What a register write does: the whole register, nothing for a zero into register 0, an error or, as `R0_WRITE` has
it, nothing for any other value into register 0 (R23). -/
theorem writeReg_cases (d : Reg) (v : Word) (s : State) (p : Parameters) :
    (d ≠ 0 ∧ writeReg d v s p = s.setReg d v) ∨
    (d = 0 ∧ (v = 0 ∨ p.r0Write = .discard) ∧ writeReg d v s p = s) ∨
    (d = 0 ∧ v ≠ 0 ∧ p.r0Write = .faultIfNonzero ∧
      writeReg d v s p = raise (.invariantViolation .zeroRegister) s p) := by
  unfold writeReg
  by_cases hd : d = 0
  · by_cases hv : v = 0
    · exact .inr (.inl ⟨hd, .inl hv, by rw [if_pos hd, if_pos hv]⟩)
    · rw [if_pos hd, if_neg hv]
      cases hp : p.r0Write with
      | faultIfNonzero => exact .inr (.inr ⟨hd, hv, rfl, rfl⟩)
      | discard => exact .inr (.inl ⟨hd, .inr rfl, rfl⟩)
  · simp [hd]

/-- A write to a register other than register 0. -/
theorem writeReg_of_ne {d : Reg} (h : d ≠ 0) (v : Word) (s : State) (p : Parameters) :
    writeReg d v s p = s.setReg d v := by
  simp [writeReg, h]

/-- A zero written to register 0 has no effect. -/
@[simp] theorem writeReg_zero_zero (s : State) (p : Parameters) : writeReg 0 0#32 s p = s := by simp [writeReg]

/-- A non-zero value written to register 0 is an error under `R0_WRITE = fault_if_nonzero`. -/
theorem writeReg_zero_of_ne {v : Word} (h : v ≠ 0) (s : State) {p : Parameters} (hp : p.r0Write = .faultIfNonzero) :
    writeReg 0 v s p = raise (.invariantViolation .zeroRegister) s p := by
  unfold writeReg
  rw [if_pos rfl, if_neg h, hp]

/-- Any value written to register 0 has no effect under `R0_WRITE = discard`. -/
theorem writeReg_zero_of_discard (v : Word) (s : State) {p : Parameters} (hp : p.r0Write = .discard) :
    writeReg 0 v s p = s := by
  unfold writeReg
  rw [if_pos rfl, hp]
  exact ite_self s

/-- A register write changes no field but the registers, and, for an error, `stderr` and the status. -/
theorem writeReg_keeps (d : Reg) (v : Word) (s : State) (p : Parameters) :
    (writeReg d v s p).pc = s.pc ∧ (writeReg d v s p).hi = s.hi ∧ (writeReg d v s p).lo = s.lo ∧
    (writeReg d v s p).ir = s.ir ∧ (writeReg d v s p).mem = s.mem ∧ (writeReg d v s p).tracing = s.tracing ∧
    (writeReg d v s p).stdin = s.stdin ∧ (writeReg d v s p).stdout = s.stdout ∧
    (writeReg d v s p).stackBottom = s.stackBottom ∧ (writeReg d v s p).dataLength = s.dataLength ∧
    (writeReg d v s p).draws = s.draws := by
  rcases writeReg_cases d v s p with ⟨_, h⟩ | ⟨_, _, h⟩ | ⟨_, _, _, h⟩ <;> simp [h]

/-- When a byte access is valid (R55). -/
theorem accessError_byte (addr : Word) (p : Parameters) :
    accessError addr 1 p = none ↔ u32 addr < Config.memorySize := by
  unfold accessError
  split
  · cases p.outOfRangeAccess
    simp
    omega
  · simp
    omega

/-- When a word access is valid, as `MISALIGNED_WORD_ACCESS` has it (R55). -/
theorem accessError_word (addr : Word) (p : Parameters) :
    accessError addr 4 p = none ↔
      u32 addr + 4 ≤ Config.memorySize ∧ (u32 addr % 4 = 0 ∨ p.misalignedWordAccess = .splitLittleEndian) := by
  unfold accessError
  split
  · cases p.outOfRangeAccess
    simp
    omega
  · split
    · cases hp : p.misalignedWordAccess <;> simp <;> omega
    · simp
      omega

/-- A valid byte read gives the byte (R56). -/
theorem memReadByte_valid {addr : Word} {p : Parameters} (h : accessError addr 1 p = none) (s : State) :
    memReadByte addr s p = .ok (s.mem.read (u32 addr)) := by
  simp [memReadByte, h]

/-- A valid word read gives the four bytes (R56). -/
theorem memReadWord_valid {addr : Word} {p : Parameters} (h : accessError addr 4 p = none) (s : State) :
    memReadWord addr s p = .ok (s.mem.readWord (u32 addr)) := by
  simp [memReadWord, h]

/-- What a byte write does (R57). -/
theorem memWriteByte_cases (addr : Word) (v : Byte) (s : State) (p : Parameters) :
    (accessError addr 1 p = none ∧ memWriteByte addr v s p = s.setMem (s.mem.write (u32 addr) v)) ∨
    ∃ e, accessError addr 1 p = some e ∧ memWriteByte addr v s p = raise e s p := by
  unfold memWriteByte
  cases h : accessError addr 1 p <;> simp

/-- What a word write does (R57). -/
theorem memWriteWord_cases (addr v : Word) (s : State) (p : Parameters) :
    (accessError addr 4 p = none ∧ memWriteWord addr v s p = s.setMem (s.mem.writeWord (u32 addr) v)) ∨
    ∃ e, accessError addr 4 p = some e ∧ memWriteWord addr v s p = raise e s p := by
  unfold memWriteWord
  cases h : accessError addr 4 p <;> simp

/-- A read that succeeded is written to its destination. -/
@[simp] theorem writeRegOrRaise_ok (d : Reg) (v : Word) (s : State) (p : Parameters) :
    writeRegOrRaise d (.ok v) s p = writeReg d v s p :=
  rfl

/-- A read that failed raises, its destination left as it was (R245). -/
@[simp] theorem writeRegOrRaise_error (d : Reg) (e : MachineError) (s : State) (p : Parameters) :
    writeRegOrRaise d (.error e) s p = raise e s p :=
  rfl

/-- A floating-point result that is no NaN is written as it is. -/
@[simp] theorem writeFloat_some (d : Reg) (v : Word) (s : State) (p : Parameters) :
    writeFloat d (some v) s p = writeReg d v s p :=
  rfl

/-- A NaN's pattern is drawn (R140). -/
theorem writeFloat_none (d : Reg) (s : State) (p : Parameters) :
    writeFloat d none s p = writeReg d (nanOfFree (Config.freeWord s.draws)) s.nextDraw p :=
  rfl

/-- What writing a sum does: the result modulo `2^32`, or an `IntegerOverflow` where it overflows and `INT_OVERFLOW` has
it an error (R110). -/
theorem writeSum_cases (d : Reg) (overflows : Bool) (v : Word) (s : State) (p : Parameters) :
    ((p.intOverflow = .wrap ∨ overflows = false) ∧ writeSum d overflows v s p = writeReg d v s p) ∨
    (p.intOverflow = .fault ∧ overflows = true ∧
      writeSum d overflows v s p = raise (.integerOverflow (instructionAddress s)) s p) := by
  unfold writeSum
  cases p.intOverflow <;> cases overflows <;> simp

/-- A sum is written modulo `2^32` at the default, `INT_OVERFLOW = wrap` (R110). -/
theorem writeSum_eq (d : Reg) (overflows : Bool) (v : Word) (s : State) :
    writeSum d overflows v s = writeReg d v s :=
  rfl

/-- A taken branch (R160). -/
@[simp] theorem branchIf_true (o : BitVec 16) (s : State) : branchIf true o s = s.setPc (branchTarget s.pc o) := rfl

/-- A branch not taken (R160). -/
@[simp] theorem branchIf_false (o : BitVec 16) (s : State) : branchIf false o s = s := rfl

/-- A branch changes nothing but the `PC` (R160). -/
theorem branchIf_eq_setPc (c : Bool) (o : BitVec 16) (s : State) :
    branchIf c o s = s.setPc (if c then branchTarget s.pc o else s.pc) := by
  cases c <;> rfl

/-- A printing service writes its text and its length (R208); `$v0` is not register 0. -/
theorem printText_eq (text : List Byte) (s : State) (p : Parameters) :
    printText text s p = (outBytes text s).setReg Reg.v0 (w32 text.length) :=
  writeReg_of_ne (by decide) _ _ _

/-- A pattern made for a NaN is one (R140). -/
theorem f32IsNaN_nanOfFree (w : Word) : f32IsNaN (nanOfFree w) = true := by
  unfold nanOfFree
  split
  · assumption
  · have he : (w ||| 0x7FC00000#32).extractLsb' 23 8 = 255#8 := by
      rw [BitVec.extractLsb'_or, show (0x7FC00000#32).extractLsb' 23 8 = 255#8 from by decide]
      exact BitVec.or_allOnes
    have hf : (w ||| 0x7FC00000#32).extractLsb' 0 23 ≠ 0#23 := by
      intro h
      have hb := congrArg (fun x => x.getLsbD 22) h
      simp at hb
    have he' : f32Exponent (w ||| 0x7FC00000#32) = 255 := congrArg BitVec.toNat he
    have hf' : f32Fraction (w ||| 0x7FC00000#32) ≠ 0 := fun h => hf (BitVec.eq_of_toNat_eq h)
    exact Bool.and_eq_true_iff.mpr ⟨beq_iff_eq.mpr he', bne_iff_ne.mpr hf'⟩

/-- Appended program bytes are appended to `out` (R225). -/
@[simp] theorem outBytes_out (bs : List Byte) (s : State) : (outBytes bs s).out = s.out ++ bs := by
  simp [State.out, outBytes, State.emit, List.filterMap_map]

/-- Appended trace items change nothing in `out` (R225). -/
@[simp] theorem emit_trace_out (ts : List TraceItem) (s : State) :
    (s.emit (ts.map OutItem.trace)).out = s.out := by
  simp [State.out, State.emit, List.filterMap_map]

/-- Tracing before an instruction appends trace items and does nothing else (R224, R225). -/
theorem traceInstruction_eq_emit (addr : Word) (i : Instr) (s : State) :
    ∃ ts : List TraceItem, traceInstruction addr i s = s.emit (ts.map OutItem.trace) := by
  unfold traceInstruction
  split
  · exact ⟨[_], rfl⟩
  · exact ⟨[], by simp [State.emit]⟩

/-- Tracing after an instruction appends trace items and does nothing else (R224, R225). -/
theorem traceAfter_eq_emit (s : State) : ∃ ts : List TraceItem, traceAfter s = s.emit (ts.map OutItem.trace) :=
  ⟨blocksAfter s, rfl⟩

/-- The blocks traced after an instruction on a machine that still runs (R224). -/
theorem blocksAfter_running {s : State} (h : s.status = .running) : blocksAfter s = blocksShown s := by
  simp [blocksAfter, h]

/-- After `EXIT` no block is traced (R224). -/
theorem blocksAfter_exit {s : State} (h : s.status = .halted 0) : blocksAfter s = [] := by
  simp [blocksAfter, h]

/-- At most one block is traced after an instruction, the state's own (R224). -/
theorem blocksAfter_cases (s : State) : blocksAfter s = [] ∨ blocksAfter s = [.block (stateBlock s)] := by
  unfold blocksAfter blocksShown
  split
  · split <;> simp
  · split
    · split <;> simp
    · simp

/-- What the invariant check does (R243). -/
theorem checkInvariants_cases (s : State) (p : Parameters) :
    checkInvariants s p = s ∨
    ∃ k, s.status = .running ∧ firstViolated s = some k ∧ checkInvariants s p = raise (.invariantViolation k) s p := by
  unfold checkInvariants
  cases hs : s.status with
  | halted => simp
  | running => cases hv : firstViolated s <;> simp

/-- After the check, a machine that still runs violates no invariant (R243). -/
theorem firstViolated_checkInvariants {s : State} {p : Parameters} (h : (checkInvariants s p).status = .running) :
    firstViolated (checkInvariants s p) = none := by
  unfold checkInvariants at h ⊢
  split at h
  · simp_all
  · split at h
    · simp at h
    · rename_i hn
      simp [*]

/-- The invariants look at the registers and the `PC` only (R33). -/
theorem firstViolated_congr {s t : State} (hr : t.regs = s.regs) (hp : t.pc = s.pc) :
    firstViolated t = firstViolated s := by
  have : (fun k : Invariant => !k.holds t) = fun k => !k.holds s := by
    funext k
    cases k <;> simp [Invariant.holds, State.x_congr hr, hr, hp]
  simp [firstViolated, this]

end Sys2Proof.Machine
end

