-- ==== Sys2Proof/Laws/PerInstr.lean ====
section
/-! SUPPORT. Statements about every instruction, made constructor by constructor. Family `Encoding`: the encoder's word
of a well-formed instruction selects the instruction's own row of spec/opcode_table.json (spec R91). -/

namespace Sys2Proof.Laws

/-- A register-format word under the mask of `op` and `func` (R91). -/
theorem registerWord_and (rs rt rd : Reg) (h : Nat) (f : BitVec 6) :
    registerWord .msbFirst rs rt rd h f &&& 0xFC00003F = registerWord .msbFirst 0 0 0 0 f := by
  have e : (0#6 ++ (BitVec.ofFin rs : BitVec 5) ++ (BitVec.ofFin rt : BitVec 5) ++ (BitVec.ofFin rd : BitVec 5) ++
      BitVec.ofNat 5 h ++ f) &&& (63#6 ++ 0#5 ++ 0#5 ++ 0#5 ++ 0#5 ++ 63#6) =
      0#6 ++ 0#5 ++ 0#5 ++ 0#5 ++ 0#5 ++ f := by
    have hf : ∀ y : BitVec 6, y &&& 63#6 = y := by decide
    simp only [BitVec.and_append, hf, BitVec.and_zero]
  exact e

/-- A register-format word under the mask that also takes the constant fields of `JR` (R91). -/
theorem registerWord_and_constants (rs : Reg) (f : BitVec 6) :
    registerWord .msbFirst rs 0 0 0 f &&& 0xFC1FFFFF = registerWord .msbFirst 0 0 0 0 f := by
  have e : (0#6 ++ (BitVec.ofFin rs : BitVec 5) ++ 0#5 ++ 0#5 ++ 0#5 ++ f) &&&
      (63#6 ++ 0#5 ++ 31#5 ++ 31#5 ++ 31#5 ++ 63#6) = 0#6 ++ 0#5 ++ 0#5 ++ 0#5 ++ 0#5 ++ f := by
    have hf : ∀ y : BitVec 6, y &&& 63#6 = y := by decide
    simp only [BitVec.and_append, hf, BitVec.and_zero, BitVec.zero_and]
  exact e

/-- An immediate-format word under the mask of `op` (R91). -/
theorem immediateWord_and (op : BitVec 6) (rs rt : Reg) (i : BitVec 16) :
    immediateWord .msbFirst op rs rt i &&& 0xFC000000 = immediateWord .msbFirst op 0 0 0 := by
  have e : (op ++ (BitVec.ofFin rs : BitVec 5) ++ (BitVec.ofFin rt : BitVec 5) ++ i) &&&
      (63#6 ++ 0#5 ++ 0#5 ++ 0#16) = op ++ 0#5 ++ 0#5 ++ 0#16 := by
    have hf : ∀ y : BitVec 6, y &&& 63#6 = y := by decide
    simp only [BitVec.and_append, hf, BitVec.and_zero]
  exact e

/-- An immediate-format word under the mask of `op` and a constant `rt` (R91). -/
theorem immediateWord_and_constant (op : BitVec 6) (rs rt : Reg) (i : BitVec 16) :
    immediateWord .msbFirst op rs rt i &&& 0xFC1F0000 = immediateWord .msbFirst op 0 rt 0 := by
  have e : (op ++ (BitVec.ofFin rs : BitVec 5) ++ (BitVec.ofFin rt : BitVec 5) ++ i) &&&
      (63#6 ++ 0#5 ++ 31#5 ++ 0#16) = op ++ 0#5 ++ (BitVec.ofFin rt : BitVec 5) ++ 0#16 := by
    have hf : ∀ y : BitVec 6, y &&& 63#6 = y := by decide
    have ht : ∀ y : BitVec 5, y &&& 31#5 = y := by decide
    simp only [BitVec.and_append, hf, ht, BitVec.and_zero]
  exact e

/-- A jump-format word under the mask of `op` (R91). -/
theorem jumpWord_and (op : BitVec 6) (a : BitVec 26) :
    jumpWord .msbFirst op a &&& 0xFC000000 = jumpWord .msbFirst op 0 := by
  have e : (op ++ a) &&& (63#6 ++ 0#26) = op ++ 0#26 := by
    have hf : ∀ y : BitVec 6, y &&& 63#6 = y := by decide
    simp only [BitVec.and_append, hf, BitVec.and_zero]
  exact e

/-- A well-formed instruction's word selects a row of the opcode table that has the instruction's mnemonic (R91). -/
def Encoding.Statement (i : Instr) : Prop :=
  i.WellFormed = true → ∃ r ∈ opcodeRows, r.mnemonic = i.mnemonic ∧ r.selectedBy (encode i) = true

theorem Encoding.add (rs rt rd : Reg) : Encoding.Statement (.add rs rt rd) := by
  refine fun _ => ⟨⟨"ADD", 0xFC00003F, 0x00000021⟩, by decide, rfl, ?_⟩
  simp only [OpcodeRow.selectedBy, encode, fieldOrder, encodeWith, registerWord_and]
  decide

theorem Encoding.fadd (rs rt rd : Reg) : Encoding.Statement (.fadd rs rt rd) := by
  refine fun _ => ⟨⟨"FADD", 0xFC00003F, 0x00000031⟩, by decide, rfl, ?_⟩
  simp only [OpcodeRow.selectedBy, encode, fieldOrder, encodeWith, registerWord_and]
  decide

theorem Encoding.sub (rs rt rd : Reg) : Encoding.Statement (.sub rs rt rd) := by
  refine fun _ => ⟨⟨"SUB", 0xFC00003F, 0x00000023⟩, by decide, rfl, ?_⟩
  simp only [OpcodeRow.selectedBy, encode, fieldOrder, encodeWith, registerWord_and]
  decide

theorem Encoding.fsub (rs rt rd : Reg) : Encoding.Statement (.fsub rs rt rd) := by
  refine fun _ => ⟨⟨"FSUB", 0xFC00003F, 0x00000033⟩, by decide, rfl, ?_⟩
  simp only [OpcodeRow.selectedBy, encode, fieldOrder, encodeWith, registerWord_and]
  decide

theorem Encoding.mul (rs rt : Reg) : Encoding.Statement (.mul rs rt) := by
  refine fun _ => ⟨⟨"MUL", 0xFC00003F, 0x00000019⟩, by decide, rfl, ?_⟩
  simp only [OpcodeRow.selectedBy, encode, fieldOrder, encodeWith, registerWord_and]
  decide

theorem Encoding.fmul (rs rt rd : Reg) : Encoding.Statement (.fmul rs rt rd) := by
  refine fun _ => ⟨⟨"FMUL", 0xFC00003F, 0x00000029⟩, by decide, rfl, ?_⟩
  simp only [OpcodeRow.selectedBy, encode, fieldOrder, encodeWith, registerWord_and]
  decide

theorem Encoding.div (rs rt : Reg) : Encoding.Statement (.div rs rt) := by
  refine fun _ => ⟨⟨"DIV", 0xFC00003F, 0x0000001B⟩, by decide, rfl, ?_⟩
  simp only [OpcodeRow.selectedBy, encode, fieldOrder, encodeWith, registerWord_and]
  decide

theorem Encoding.fdiv (rs rt rd : Reg) : Encoding.Statement (.fdiv rs rt rd) := by
  refine fun _ => ⟨⟨"FDIV", 0xFC00003F, 0x0000002B⟩, by decide, rfl, ?_⟩
  simp only [OpcodeRow.selectedBy, encode, fieldOrder, encodeWith, registerWord_and]
  decide

theorem Encoding.mfhi (rd : Reg) : Encoding.Statement (.mfhi rd) := by
  refine fun _ => ⟨⟨"MFHI", 0xFC00003F, 0x00000010⟩, by decide, rfl, ?_⟩
  simp only [OpcodeRow.selectedBy, encode, fieldOrder, encodeWith, registerWord_and]
  decide

theorem Encoding.mflo (rd : Reg) : Encoding.Statement (.mflo rd) := by
  refine fun _ => ⟨⟨"MFLO", 0xFC00003F, 0x00000012⟩, by decide, rfl, ?_⟩
  simp only [OpcodeRow.selectedBy, encode, fieldOrder, encodeWith, registerWord_and]
  decide

theorem Encoding.and (rs rt rd : Reg) : Encoding.Statement (.and rs rt rd) := by
  refine fun _ => ⟨⟨"AND", 0xFC00003F, 0x00000024⟩, by decide, rfl, ?_⟩
  simp only [OpcodeRow.selectedBy, encode, fieldOrder, encodeWith, registerWord_and]
  decide

theorem Encoding.bor (rs rt rd : Reg) : Encoding.Statement (.bor rs rt rd) := by
  refine fun _ => ⟨⟨"BOR", 0xFC00003F, 0x00000025⟩, by decide, rfl, ?_⟩
  simp only [OpcodeRow.selectedBy, encode, fieldOrder, encodeWith, registerWord_and]
  decide

theorem Encoding.nor (rs rt rd : Reg) : Encoding.Statement (.nor rs rt rd) := by
  refine fun _ => ⟨⟨"NOR", 0xFC00003F, 0x00000027⟩, by decide, rfl, ?_⟩
  simp only [OpcodeRow.selectedBy, encode, fieldOrder, encodeWith, registerWord_and]
  decide

theorem Encoding.xor (rs rt rd : Reg) : Encoding.Statement (.xor rs rt rd) := by
  refine fun _ => ⟨⟨"XOR", 0xFC00003F, 0x00000026⟩, by decide, rfl, ?_⟩
  simp only [OpcodeRow.selectedBy, encode, fieldOrder, encodeWith, registerWord_and]
  decide

theorem Encoding.sll (rt rd : Reg) (shift : Nat) : Encoding.Statement (.sll rt rd shift) := by
  refine fun _ => ⟨⟨"SLL", 0xFC00003F, 0x00000000⟩, by decide, rfl, ?_⟩
  simp only [OpcodeRow.selectedBy, encode, fieldOrder, encodeWith, registerWord_and]
  decide

theorem Encoding.srl (rt rd : Reg) (shift : Nat) : Encoding.Statement (.srl rt rd shift) := by
  refine fun _ => ⟨⟨"SRL", 0xFC00003F, 0x00000003⟩, by decide, rfl, ?_⟩
  simp only [OpcodeRow.selectedBy, encode, fieldOrder, encodeWith, registerWord_and]
  decide

theorem Encoding.cvt (rt rd : Reg) : Encoding.Statement (.cvt rt rd) := by
  refine fun _ => ⟨⟨"CVT", 0xFC00003F, 0x00000004⟩, by decide, rfl, ?_⟩
  simp only [OpcodeRow.selectedBy, encode, fieldOrder, encodeWith, registerWord_and]
  decide

theorem Encoding.rnd (rt rd : Reg) : Encoding.Statement (.rnd rt rd) := by
  refine fun _ => ⟨⟨"RND", 0xFC00003F, 0x00000005⟩, by decide, rfl, ?_⟩
  simp only [OpcodeRow.selectedBy, encode, fieldOrder, encodeWith, registerWord_and]
  decide

theorem Encoding.jr (rs : Reg) : Encoding.Statement (.jr rs) := by
  refine fun _ => ⟨⟨"JR", 0xFC1FFFFF, 0x00000008⟩, by decide, rfl, ?_⟩
  simp only [OpcodeRow.selectedBy, encode, fieldOrder, encodeWith, registerWord_and_constants]
  decide

theorem Encoding.exit : Encoding.Statement .exit := by
  exact fun _ => ⟨⟨"EXIT", 0xFFFFFFFF, 0x0000028C⟩, by decide, rfl, by decide⟩

theorem Encoding.pstr : Encoding.Statement .pstr := by
  exact fun _ => ⟨⟨"PSTR", 0xFFFFFFFF, 0x0000010C⟩, by decide, rfl, by decide⟩

theorem Encoding.pint : Encoding.Statement .pint := by
  exact fun _ => ⟨⟨"PINT", 0xFFFFFFFF, 0x0000014C⟩, by decide, rfl, by decide⟩

theorem Encoding.pflt : Encoding.Statement .pflt := by
  exact fun _ => ⟨⟨"PFLT", 0xFFFFFFFF, 0x0000018C⟩, by decide, rfl, by decide⟩

theorem Encoding.pch : Encoding.Statement .pch := by
  exact fun _ => ⟨⟨"PCH", 0xFFFFFFFF, 0x000002CC⟩, by decide, rfl, by decide⟩

theorem Encoding.rch : Encoding.Statement .rch := by
  exact fun _ => ⟨⟨"RCH", 0xFFFFFFFF, 0x0000030C⟩, by decide, rfl, by decide⟩

theorem Encoding.rflt : Encoding.Statement .rflt := by
  exact fun _ => ⟨⟨"RFLT", 0xFFFFFFFF, 0x0000034C⟩, by decide, rfl, by decide⟩

theorem Encoding.stra : Encoding.Statement .stra := by
  exact fun _ => ⟨⟨"STRA", 0xFFFFFFFF, 0x0000400C⟩, by decide, rfl, by decide⟩

theorem Encoding.notr : Encoding.Statement .notr := by
  exact fun _ => ⟨⟨"NOTR", 0xFFFFFFFF, 0x0000404C⟩, by decide, rfl, by decide⟩

theorem Encoding.addi (rs rt : Reg) (immed : BitVec 16) : Encoding.Statement (.addi rs rt immed) := by
  refine fun _ => ⟨⟨"ADDI", 0xFC000000, 0x24000000⟩, by decide, rfl, ?_⟩
  simp only [OpcodeRow.selectedBy, encode, fieldOrder, encodeWith, immediateWord_and]
  decide

theorem Encoding.andi (rs rt : Reg) (immed : BitVec 16) : Encoding.Statement (.andi rs rt immed) := by
  refine fun _ => ⟨⟨"ANDI", 0xFC000000, 0x30000000⟩, by decide, rfl, ?_⟩
  simp only [OpcodeRow.selectedBy, encode, fieldOrder, encodeWith, immediateWord_and]
  decide

theorem Encoding.bori (rs rt : Reg) (immed : BitVec 16) : Encoding.Statement (.bori rs rt immed) := by
  refine fun _ => ⟨⟨"BORI", 0xFC000000, 0x34000000⟩, by decide, rfl, ?_⟩
  simp only [OpcodeRow.selectedBy, encode, fieldOrder, encodeWith, immediateWord_and]
  decide

theorem Encoding.xori (rs rt : Reg) (immed : BitVec 16) : Encoding.Statement (.xori rs rt immed) := by
  refine fun _ => ⟨⟨"XORI", 0xFC000000, 0x38000000⟩, by decide, rfl, ?_⟩
  simp only [OpcodeRow.selectedBy, encode, fieldOrder, encodeWith, immediateWord_and]
  decide

theorem Encoding.beq (rs rt : Reg) (immed : BitVec 16) : Encoding.Statement (.beq rs rt immed) := by
  refine fun _ => ⟨⟨"BEQ", 0xFC000000, 0x10000000⟩, by decide, rfl, ?_⟩
  simp only [OpcodeRow.selectedBy, encode, fieldOrder, encodeWith, immediateWord_and]
  decide

theorem Encoding.bgez (rs : Reg) (immed : BitVec 16) : Encoding.Statement (.bgez rs immed) := by
  refine fun _ => ⟨⟨"BGEZ", 0xFC1F0000, 0x04010000⟩, by decide, rfl, ?_⟩
  simp only [OpcodeRow.selectedBy, encode, fieldOrder, encodeWith, immediateWord_and_constant]
  decide

theorem Encoding.bgtz (rs : Reg) (immed : BitVec 16) : Encoding.Statement (.bgtz rs immed) := by
  refine fun _ => ⟨⟨"BGTZ", 0xFC1F0000, 0x1C000000⟩, by decide, rfl, ?_⟩
  simp only [OpcodeRow.selectedBy, encode, fieldOrder, encodeWith, immediateWord_and_constant]
  decide

theorem Encoding.blez (rs : Reg) (immed : BitVec 16) : Encoding.Statement (.blez rs immed) := by
  refine fun _ => ⟨⟨"BLEZ", 0xFC1F0000, 0x18000000⟩, by decide, rfl, ?_⟩
  simp only [OpcodeRow.selectedBy, encode, fieldOrder, encodeWith, immediateWord_and_constant]
  decide

theorem Encoding.bltz (rs : Reg) (immed : BitVec 16) : Encoding.Statement (.bltz rs immed) := by
  refine fun _ => ⟨⟨"BLTZ", 0xFC1F0000, 0x20000000⟩, by decide, rfl, ?_⟩
  simp only [OpcodeRow.selectedBy, encode, fieldOrder, encodeWith, immediateWord_and_constant]
  decide

theorem Encoding.bne (rs rt : Reg) (immed : BitVec 16) : Encoding.Statement (.bne rs rt immed) := by
  refine fun _ => ⟨⟨"BNE", 0xFC000000, 0x14000000⟩, by decide, rfl, ?_⟩
  simp only [OpcodeRow.selectedBy, encode, fieldOrder, encodeWith, immediateWord_and]
  decide

theorem Encoding.bfeq (rs rt : Reg) (immed : BitVec 16) : Encoding.Statement (.bfeq rs rt immed) := by
  refine fun _ => ⟨⟨"BFEQ", 0xFC000000, 0x50000000⟩, by decide, rfl, ?_⟩
  simp only [OpcodeRow.selectedBy, encode, fieldOrder, encodeWith, immediateWord_and]
  decide

theorem Encoding.bfgz (rs : Reg) (immed : BitVec 16) : Encoding.Statement (.bfgz rs immed) := by
  refine fun _ => ⟨⟨"BFGZ", 0xFC1F0000, 0x44010000⟩, by decide, rfl, ?_⟩
  simp only [OpcodeRow.selectedBy, encode, fieldOrder, encodeWith, immediateWord_and_constant]
  decide

theorem Encoding.bfgtz (rs : Reg) (immed : BitVec 16) : Encoding.Statement (.bfgtz rs immed) := by
  refine fun _ => ⟨⟨"BFGTZ", 0xFC1F0000, 0x5C000000⟩, by decide, rfl, ?_⟩
  simp only [OpcodeRow.selectedBy, encode, fieldOrder, encodeWith, immediateWord_and_constant]
  decide

theorem Encoding.bflez (rs : Reg) (immed : BitVec 16) : Encoding.Statement (.bflez rs immed) := by
  refine fun _ => ⟨⟨"BFLEZ", 0xFC1F0000, 0x58000000⟩, by decide, rfl, ?_⟩
  simp only [OpcodeRow.selectedBy, encode, fieldOrder, encodeWith, immediateWord_and_constant]
  decide

theorem Encoding.bfltz (rs : Reg) (immed : BitVec 16) : Encoding.Statement (.bfltz rs immed) := by
  refine fun _ => ⟨⟨"BFLTZ", 0xFC1F0000, 0x60000000⟩, by decide, rfl, ?_⟩
  simp only [OpcodeRow.selectedBy, encode, fieldOrder, encodeWith, immediateWord_and_constant]
  decide

theorem Encoding.bfne (rs rt : Reg) (immed : BitVec 16) : Encoding.Statement (.bfne rs rt immed) := by
  refine fun _ => ⟨⟨"BFNE", 0xFC000000, 0x54000000⟩, by decide, rfl, ?_⟩
  simp only [OpcodeRow.selectedBy, encode, fieldOrder, encodeWith, immediateWord_and]
  decide

theorem Encoding.lbu (rs rt : Reg) (immed : BitVec 16) : Encoding.Statement (.lbu rs rt immed) := by
  refine fun _ => ⟨⟨"LBU", 0xFC000000, 0x90000000⟩, by decide, rfl, ?_⟩
  simp only [OpcodeRow.selectedBy, encode, fieldOrder, encodeWith, immediateWord_and]
  decide

theorem Encoding.lw (rs rt : Reg) (immed : BitVec 16) : Encoding.Statement (.lw rs rt immed) := by
  refine fun _ => ⟨⟨"LW", 0xFC000000, 0x8C000000⟩, by decide, rfl, ?_⟩
  simp only [OpcodeRow.selectedBy, encode, fieldOrder, encodeWith, immediateWord_and]
  decide

theorem Encoding.flw (rs rt : Reg) (immed : BitVec 16) : Encoding.Statement (.flw rs rt immed) := by
  refine fun _ => ⟨⟨"FLW", 0xFC000000, 0xA4000000⟩, by decide, rfl, ?_⟩
  simp only [OpcodeRow.selectedBy, encode, fieldOrder, encodeWith, immediateWord_and]
  decide

theorem Encoding.sb (rs rt : Reg) (immed : BitVec 16) : Encoding.Statement (.sb rs rt immed) := by
  refine fun _ => ⟨⟨"SB", 0xFC000000, 0xA0000000⟩, by decide, rfl, ?_⟩
  simp only [OpcodeRow.selectedBy, encode, fieldOrder, encodeWith, immediateWord_and]
  decide

theorem Encoding.sw (rs rt : Reg) (immed : BitVec 16) : Encoding.Statement (.sw rs rt immed) := by
  refine fun _ => ⟨⟨"SW", 0xFC000000, 0xAC000000⟩, by decide, rfl, ?_⟩
  simp only [OpcodeRow.selectedBy, encode, fieldOrder, encodeWith, immediateWord_and]
  decide

theorem Encoding.fsw (rs rt : Reg) (immed : BitVec 16) : Encoding.Statement (.fsw rs rt immed) := by
  refine fun _ => ⟨⟨"FSW", 0xFC000000, 0xA8000000⟩, by decide, rfl, ?_⟩
  simp only [OpcodeRow.selectedBy, encode, fieldOrder, encodeWith, immediateWord_and]
  decide

theorem Encoding.jmp (addr : BitVec 26) : Encoding.Statement (.jmp addr) := by
  refine fun _ => ⟨⟨"JMP", 0xFC000000, 0x08000000⟩, by decide, rfl, ?_⟩
  simp only [OpcodeRow.selectedBy, encode, fieldOrder, encodeWith, jumpWord_and]
  decide

theorem Encoding.jal (addr : BitVec 26) : Encoding.Statement (.jal addr) := by
  refine fun _ => ⟨⟨"JAL", 0xFC000000, 0x0C000000⟩, by decide, rfl, ?_⟩
  simp only [OpcodeRow.selectedBy, encode, fieldOrder, encodeWith, jumpWord_and]
  decide

end Sys2Proof.Laws
end

