-- ==== Sys2Proof/Laws/Step.lean ====
section
/-! SUPPORT. What a step can do, said once (spec R28, R240). -/

namespace Sys2Proof.Machine

/-- The machine at the default parameters runs the meanings that `exec` names (R8). -/
theorem execWith_default (i : Instr) (s : State) : execWith .default i s = exec i s := by
  cases i <;> rfl

/-- The machine at the default parameters is the machine (R8). -/
theorem stepWith_default (s : State) : stepWith .default s = step s := by
  have h : execWith .default = exec := funext fun i => funext fun s => execWith_default i s
  simp [stepWith, step, h]

/-- A step that answers a next state is one of a running machine: the fetch raised, or the word fetched is no
instruction, or the instruction it decodes to was executed (R28). -/
theorem stepOf_cases {run : Instr → State → Host.Outcome State Fault Refusal} {p : Parameters} {s t : State}
    (h : stepOf run s p = .next t) :
    s.status = .running ∧
    ((∃ e, fetch s p = .error e ∧ t = traceAfter (raise e s p)) ∨
     ∃ ir, fetch s p = .ok ir ∧
      ((∃ e, decodeWith p.fieldOrder ir = .error e ∧
          t = traceAfter (raise (.illegalInstruction ir s.pc) (advance ir s) p)) ∨
       ∃ i u, decodeWith p.fieldOrder ir = .ok i ∧ run i (traceInstruction s.pc i (advance ir s)) = .next u ∧
        t = endCycle u p)) := by
  unfold stepOf at h
  split at h
  · rename_i hs
    refine ⟨hs, ?_⟩
    unfold cycle at h
    split at h
    · rename_i ir hf
      refine .inr ⟨ir, hf, ?_⟩
      unfold execute at h
      split at h
      · rename_i i hd
        unfold finish at h
        split at h
        · rename_i u he
          exact .inr ⟨i, u, hd, he, (Host.Outcome.next.inj h).symm⟩
        · cases h
        · cases h
      · rename_i e hd
        exact .inl ⟨e, hd, (Host.Outcome.next.inj h).symm⟩
    · rename_i e hf
      exact .inl ⟨e, hf, (Host.Outcome.next.inj h).symm⟩
  · cases h

/-- `stepOf_cases` at the default parameters (R28). -/
theorem step_cases {s t : State} (h : step s = .next t) :
    s.status = .running ∧
    ((∃ e, fetch s = .error e ∧ t = traceAfter (raise e s)) ∨
     ∃ ir, fetch s = .ok ir ∧
      ((∃ e, decode ir = .error e ∧ t = traceAfter (raise (.illegalInstruction ir s.pc) (advance ir s))) ∨
       ∃ i u, decode ir = .ok i ∧ exec i (traceInstruction s.pc i (advance ir s)) = .next u ∧ t = endCycle u)) :=
  stepOf_cases h

/-- The end of a cycle is the invariant check and the trace (R243, R224). -/
theorem endCycle_eq (s : State) (p : Parameters) : endCycle s p = traceAfter (checkInvariants s p) := rfl

/-- The end of a cycle keeps every field but `stdout`, `stderr` and the status (R243, R247). -/
theorem endCycle_keeps (s : State) (p : Parameters) :
    (endCycle s p).regs = s.regs ∧ (endCycle s p).pc = s.pc ∧ (endCycle s p).hi = s.hi ∧ (endCycle s p).lo = s.lo ∧
    (endCycle s p).ir = s.ir ∧ (endCycle s p).mem = s.mem ∧ (endCycle s p).tracing = s.tracing ∧
    (endCycle s p).stdin = s.stdin ∧ (endCycle s p).stackBottom = s.stackBottom ∧
    (endCycle s p).dataLength = s.dataLength ∧ (endCycle s p).draws = s.draws := by
  obtain ⟨ts, ht⟩ := traceAfter_eq_emit (checkInvariants s p)
  rw [endCycle_eq, ht]
  rcases checkInvariants_cases s p with h | ⟨k, _, _, h⟩ <;> simp [h]

/-- A machine that still runs at the end of a cycle violates no invariant (R243). -/
theorem firstViolated_endCycle {s : State} {p : Parameters} (h : (endCycle s p).status = .running) :
    firstViolated (endCycle s p) = none := by
  obtain ⟨ts, ht⟩ := traceAfter_eq_emit (checkInvariants s p)
  rw [endCycle_eq, ht] at h ⊢
  exact (firstViolated_congr rfl rfl).trans (firstViolated_checkInvariants (by simpa using h))

end Sys2Proof.Machine
end

