-- ==== Sys2Proof/Machine/RecordStep.lean ====
section
/-! DEFINITION. The machine over the record of R38 and nothing else: what `State` holds beside the record is given to a
step from outside, the file's two numbers as constants of the run (R222, C10) and the free values as the input that R16
calls a draw, and `IR` "lives within one cycle only and need not be stored between steps" (R32). Laws/RecordStep.lean
proves that it is the machine of `step`. -/

namespace Sys2Proof.Machine

/-- What a step of the record's machine is given beside the record [28]. -/
structure Given where
  /-- The stack bottom address of the file the VM was started on (R222). -/
  stackBottom : Word
  /-- The length of that file's data section (C10). -/
  dataLength : Nat
  /-- The place of the next free value among the draws (R16). -/
  draws : Nat
deriving DecidableEq, Repr

/-- What a state holds beside the record of R38 and beyond one cycle. -/
def State.given (s : State) : Given :=
  { stackBottom := s.stackBottom, dataLength := s.dataLength, draws := s.draws }

/-- The record as a state of the model. `IR` is not meaningful before a fetch (R36), so that any word may stand in it
[27]. -/
def Record.withGiven (r : Record) (g : Given) : State :=
  { r with ir := 0, stackBottom := g.stackBottom, dataLength := g.dataLength, draws := g.draws }

/-- An outcome seen through its record alone. -/
def recordOutcome (o : Host.Outcome State Fault Refusal) : Host.Outcome Record Fault Refusal :=
  match o with
  | .next t => .next t.toRecord
  | .fault e => .fault e
  | .refused e => .refused e

/-- One step of the machine whose state is the record of R38 and nothing else (R28, R38). -/
def Record.step (g : Given) (r : Record) : Host.Outcome Record Fault Refusal :=
  recordOutcome (Machine.step (r.withGiven g))

end Sys2Proof.Machine
end

