-- ==== Sys2Proof/Laws/RecordStep.lean ====
section
/-! SUPPORT. The machine over the record of R38 is the machine of `step`, and the file's two numbers are constants of a
run (R38, R32, R222). -/

namespace Sys2Proof.Machine

@[simp] theorem Record.withGiven_toRecord (r : Record) (g : Given) : (r.withGiven g).toRecord = r := rfl
@[simp] theorem Record.withGiven_given (r : Record) (g : Given) : (r.withGiven g).given = g := rfl

/-- A state is its record with what it holds beside it, but for `IR`. -/
theorem State.withGiven_given (s : State) : s.toRecord.withGiven s.given = { s with ir := 0 } := rfl

/-- No step reads the `IR` an earlier cycle left (R32): seen through the record, the outcome is the same whatever it is. -/
theorem recordOutcome_step_ir (s : State) (w : Word) :
    recordOutcome (step { s with ir := w }) = recordOutcome (step s) := by
  unfold step stepOf
  cases hs : s.status with
  | halted exitCode => rfl
  | running =>
    show recordOutcome (cycle exec { s with ir := w }) = recordOutcome (cycle exec s)
    unfold cycle
    rw [show fetch { s with ir := w } = fetch s from rfl]
    cases fetch s with
    | ok ir => rfl
    | error e => rfl

/-- The machine over the record is the machine: a step of the one, seen through the record, is the step of the other
(R38). -/
theorem Record.step_eq (s : State) : Record.step s.given s.toRecord = recordOutcome (Machine.step s) :=
  recordOutcome_step_ir s 0

/-- The two numbers of the file the VM was started on, which only the trace shows (R222, C10). -/
def State.file (s : State) : Word × Nat := (s.stackBottom, s.dataLength)

section
variable (d : Reg) (v : Word) (s : State) (p : Parameters)

@[simp] theorem State.setPc_file (target : Word) : (s.setPc target).file = s.file := rfl
@[simp] theorem State.setHiLo_file (hi lo : Word) : (s.setHiLo hi lo).file = s.file := rfl
@[simp] theorem State.setMem_file (m : Memory) : (s.setMem m).file = s.file := rfl
@[simp] theorem State.setTracing_file (on : Bool) : (s.setTracing on).file = s.file := rfl
@[simp] theorem State.setStdin_file (bs : List Byte) : (s.setStdin bs).file = s.file := rfl
@[simp] theorem State.setReg_file : (s.setReg d v).file = s.file := rfl
@[simp] theorem State.emit_file (items : List OutItem) : (s.emit items).file = s.file := rfl
@[simp] theorem State.nextDraw_file : s.nextDraw.file = s.file := rfl
@[simp] theorem outBytes_file (bs : List Byte) : (outBytes bs s).file = s.file := rfl
@[simp] theorem raise_file (e : MachineError) : (raise e s p).file = s.file := rfl
@[simp] theorem haltNormally_file : (haltNormally s).file = s.file := rfl
@[simp] theorem advance_file (ir : Word) : (advance ir s).file = s.file := rfl

@[simp] theorem writeReg_file : (writeReg d v s p).file = s.file := by
  rcases writeReg_cases d v s p with ⟨_, h⟩ | ⟨_, _, h⟩ | ⟨_, _, _, h⟩ <;> simp [h]

@[simp] theorem writeRegOrRaise_file (r : Except MachineError Word) : (writeRegOrRaise d r s p).file = s.file := by
  cases r <;> simp

@[simp] theorem writeFloat_file (r : Option Word) : (writeFloat d r s p).file = s.file := by
  cases r <;> simp [writeFloat_none]

@[simp] theorem writeDraw_file : (writeDraw d s p).file = s.file := by simp [writeDraw]

@[simp] theorem writeSum_file (overflows : Bool) : (writeSum d overflows v s p).file = s.file := by
  rcases writeSum_cases d overflows v s p with ⟨_, h⟩ | ⟨_, _, h⟩ <;> simp [h]

@[simp] theorem printText_file (text : List Byte) : (printText text s p).file = s.file := by simp [printText]

@[simp] theorem branchIf_file (c : Bool) (o : BitVec 16) : (branchIf c o s).file = s.file := by cases c <;> rfl

@[simp] theorem memWriteByte_file (addr : Word) (b : Byte) : (memWriteByte addr b s p).file = s.file := by
  rcases memWriteByte_cases addr b s p with ⟨_, h⟩ | ⟨e, _, h⟩ <;> simp [h]

@[simp] theorem memWriteWord_file (addr : Word) : (memWriteWord addr v s p).file = s.file := by
  rcases memWriteWord_cases addr v s p with ⟨_, h⟩ | ⟨e, _, h⟩ <;> simp [h]

@[simp] theorem traceInstruction_file (addr : Word) (i : Instr) : (traceInstruction addr i s).file = s.file := by
  unfold traceInstruction
  split <;> rfl

@[simp] theorem traceAfter_file : (traceAfter s).file = s.file := rfl

@[simp] theorem endCycle_file : (endCycle s p).file = s.file := by
  obtain ⟨_, _, _, _, _, _, _, _, hb, hl, _⟩ := endCycle_keeps s p
  simp [State.file, hb, hl]

end

/-- No instruction changes the file's two numbers (R222, C10). -/
theorem exec_keeps_file {i : Instr} {s t : State} (h : exec i s = .next t) : t.file = s.file := by
  cases i with
  | div rs rt =>
    change execDiv rs rt s = .next t at h
    unfold execDiv at h
    dsimp only at h
    (repeat' split at h) <;> cases h <;> simp
  | fdiv rs rt rd =>
    change execFdiv rs rt rd s = .next t at h
    unfold execFdiv at h
    split at h <;> cases h <;> simp
  | rnd rt rd =>
    change execRnd rt rd s = .next t at h
    unfold execRnd at h
    (repeat' split at h) <;> cases h <;> simp
  | pstr =>
    change execPstr s = .next t at h
    unfold execPstr at h
    dsimp only at h
    (repeat' split at h) <;> cases h <;> simp
  | rch =>
    change execRch s = .next t at h
    unfold execRch at h
    (repeat' split at h) <;> cases h <;> simp
  | rflt =>
    change execRflt s = .next t at h
    unfold execRflt at h
    dsimp only at h
    (repeat' split at h) <;> cases h <;> simp
  | lw | flw | sw | fsw => cases h; simp [loadWord, storeWord]
  | _ => cases h; simp

/-- The file's two numbers are constants of a run (R222, C10): no step changes them. -/
theorem step_keeps_file {s t : State} (h : step s = .next t) : t.file = s.file := by
  obtain ⟨_, ⟨e, _, rfl⟩ | ⟨ir, _, ⟨e, _, rfl⟩ | ⟨i, u, _, hu, rfl⟩⟩⟩ := step_cases h
  · simp
  · simp
  · simp [exec_keeps_file hu]

end Sys2Proof.Machine
end

