-- ==== Sys2Proof/Tests/Slice0.lean ====
section
/-! SUPPORT. The model's own tests: words and results written out in spec/95_test_vectors.md and in the instruction
rules, and, for every statement with hypotheses, a state and operands that meet them. -/

namespace Sys2Proof.Tests

open Sys2Proof Sys2Proof.Machine

/-! ## Well-formedness -/

theorem test_sll_shift_32_refused : (Instr.sll 9 10 32).WellFormed = false := by decide
theorem test_srl_shift_32_refused : (Instr.srl 9 10 32).WellFormed = false := by decide
theorem test_shift_31_accepted : (Instr.sll 9 10 31).WellFormed = true ∧ (Instr.srl 9 10 31).WellFormed = true := by
  decide

/-! ## Decoding: the words of the rules -/

/-- Register-format words, from the examples of R111 to R123 and R132 to R137. -/
def registerWords : List (Word × Instr) :=
  [(0x01095021, .add 8 9 10), (0x01095031, .fadd 8 9 10), (0x01095023, .sub 8 9 10), (0x01095033, .fsub 8 9 10),
   (0x01090019, .mul 8 9), (0x01095029, .fmul 8 9 10), (0x0109001B, .div 8 9), (0x0109502B, .fdiv 8 9 10),
   (0x00005010, .mfhi 10), (0x00005012, .mflo 10), (0x01095024, .and 8 9 10), (0x01095025, .bor 8 9 10),
   (0x01095027, .nor 8 9 10), (0x01095026, .xor 8 9 10), (0x00095100, .sll 9 10 4), (0x00095103, .srl 9 10 4),
   (0x00095004, .cvt 9 10), (0x00095005, .rnd 9 10), (0x03E00008, .jr 31), (0x000957C0, .sll 9 10 31)]

/-- System-call words, from R207 to R217. -/
def serviceWords : List (Word × Instr) :=
  [(0x0000028C, .exit), (0x0000010C, .pstr), (0x0000014C, .pint), (0x0000018C, .pflt), (0x000002CC, .pch),
   (0x0000030C, .rch), (0x0000034C, .rflt), (0x0000400C, .stra), (0x0000404C, .notr)]

/-- Immediate-format words, from R151 to R154, R162 to R174 and R181 to R186. -/
def immediateWords : List (Word × Instr) :=
  [(0x2508FFFF, .addi 8 8 0xFFFF), (0x3109FF0F, .andi 8 9 0xFF0F), (0x3509FF0F, .bori 8 9 0xFF0F),
   (0x3909FFFF, .xori 8 9 0xFFFF), (0x11090003, .beq 8 9 3), (0x05010002, .bgez 8 2), (0x1D000002, .bgtz 8 2),
   (0x19000002, .blez 8 2), (0x21000002, .bltz 8 2), (0x1509FFFE, .bne 8 9 0xFFFE), (0x51090003, .bfeq 8 9 3),
   (0x45010002, .bfgz 8 2), (0x5D000002, .bfgtz 8 2), (0x59000002, .bflez 8 2), (0x61000002, .bfltz 8 2),
   (0x5509FFFE, .bfne 8 9 0xFFFE), (0x93880001, .lbu 28 8 1), (0x8F880002, .lw 28 8 2), (0xA7880002, .flw 28 8 2),
   (0xA3880001, .sb 28 8 1), (0xAFA8FFFF, .sw 29 8 0xFFFF), (0xAB880002, .fsw 28 8 2)]

/-- Jump-format words, from R196 and R197 and §2.6 of the vectors. -/
def jumpWords : List (Word × Instr) :=
  [(0x08000005, .jmp 5), (0x0C000005, .jal 5), (0x0BFFFFFF, .jmp 0x3FFFFFF)]

theorem test_register_words : ∀ p ∈ registerWords, decode p.1 = .ok p.2 ∧ encode p.2 = p.1 := by decide
theorem test_service_words : ∀ p ∈ serviceWords, decode p.1 = .ok p.2 ∧ encode p.2 = p.1 := by decide
theorem test_immediate_words : ∀ p ∈ immediateWords, decode p.1 = .ok p.2 ∧ encode p.2 = p.1 := by decide
theorem test_jump_words : ∀ p ∈ jumpWords, decode p.1 = .ok p.2 ∧ encode p.2 = p.1 := by decide

/-- Ignored fields all ones (R98): ADD with `shift` 31, MFHI with `rs`, `rt` and `shift` 31. -/
theorem test_ignored_fields : decode 0x03FFFFE1 = .ok (.add 31 31 31) ∧ decode 0x03FF57D0 = .ok (.mfhi 10) := by
  decide

/-- The illegal words of §2.1, §2.4, §2.7 and §2.8 of the vectors, each by its reason. -/
theorem test_illegal_words :
    decode 0x03E10008 = .error (.badConstant 0 8) ∧ decode 0x05000002 = .error (.badConstant 1 2) ∧
    decode 0x0000004C = .error (.unknownService 1) ∧ decode 0x00000001 = .error (.unknownFunc 1) ∧
    decode 0xFC000000 = .error (.unknownOp 63) ∧ decode 0x28000000 = .error (.unknownOp 10) := by decide

theorem test_truncated_bytes : decodeBytes [0x21, 0x50, 0x09] = .error .truncated := by decide

/-- Four bytes, least significant first (R52, R273). -/
theorem test_decode_bytes : decodeBytes [0x01, 0x00, 0x08, 0x24] = .ok (.addi 0 8 1) := by decide

theorem test_decode_table_word : decodeTableWord 32 0x24080001 = some (.addi 0 8 1) := by decide
theorem test_opcode_table_has_52_rows : opcodeRows.length = 52 := by decide

/-- No two rows of the table match one word (R91). -/
theorem test_opcode_rows_disjoint :
    opcodeRows.Pairwise fun r r' => (r.pattern ^^^ r'.pattern) &&& r.mask &&& r'.mask ≠ 0 := by decide

/-- The other field order (R85): `op` in bits 5:0; the all-zero word is the same instruction under both. -/
theorem test_lsb_first_fields :
    (fieldsOf .lsbFirst 0x00010209).op = 9 ∧ (fieldsOf .lsbFirst 0x00010209).rs = 8 ∧
    (fieldsOf .lsbFirst 0x00010209).immed = 1 ∧ fieldsOf .lsbFirst 0 = fieldsOf .msbFirst 0 := by decide

/-! ## One instruction each -/

/-- The reset state with registers, the `PC` and memory bytes as given. -/
def sample (rs : List (Reg × Word)) (pc : Word := 104) (bs : List (Nat × Byte) := []) : State :=
  { rs.foldl (fun s p => s.setReg p.1 p.2) State.reset with
    pc := pc, mem := bs.foldl (fun m p => m.write p.1 p.2) [] }

/-- A view of the next state. -/
def after {α : Type} (o : Host.Outcome State Fault Refusal) (f : State → α) : Option α :=
  match o with
  | .next s => some (f s)
  | .fault _ => none
  | .refused _ => none

theorem test_add_wraps : after (exec (.add 9 10 8) (sample [(9, 0x7FFFFFFF), (10, 1)])) (·.x 8) = some 0x80000000 := by
  decide
theorem test_sub_negative : after (exec (.sub 9 10 8) (sample [(9, 5), (10, 7)])) (·.x 8) = some 0xFFFFFFFE := by decide
theorem test_mul_signed :
    after (exec (.mul 8 9) (sample [(8, 0xFFFFFFFD), (9, 5)])) (fun s => (s.hi, s.lo)) =
      some (0xFFFFFFFF, 0xFFFFFFF1) := by decide
theorem test_mul_carries_into_hi :
    after (exec (.mul 8 9) (sample [(8, 0x80000000), (9, 0x80000000)])) (fun s => (s.hi, s.lo)) =
      some (0x40000000, 0) := by decide
theorem test_div_truncates :
    after (exec (.div 8 9) (sample [(8, 0xFFFFFFF9), (9, 2)])) (fun s => (s.hi, s.lo)) =
      some (0xFFFFFFFF, 0xFFFFFFFD) := by decide
theorem test_div_negative_divisor :
    after (exec (.div 8 9) (sample [(8, 7), (9, 0xFFFFFFFE)])) (fun s => (s.hi, s.lo)) = some (1, 0xFFFFFFFD) := by decide
theorem test_mfhi : after (exec (.mfhi 10) { sample [] with hi := 0xFFFFFFFF, lo := 3 }) (·.x 10) = some 0xFFFFFFFF := by
  decide
theorem test_mflo : after (exec (.mflo 10) { sample [] with hi := 0xFFFFFFFF, lo := 3 }) (·.x 10) = some 3 := by decide
theorem test_and : after (exec (.and 8 9 10) (sample [(8, 0xFF00FF00), (9, 0x0FF00FF0)])) (·.x 10) = some 0x0F000F00 := by
  decide
theorem test_bor : after (exec (.bor 8 9 10) (sample [(8, 0xFF00FF00), (9, 0x0FF00FF0)])) (·.x 10) = some 0xFFF0FFF0 := by
  decide
theorem test_nor : after (exec (.nor 8 9 10) (sample [(8, 0xFF00FF00), (9, 0x0FF00FF0)])) (·.x 10) = some 0x000F000F := by
  decide
theorem test_xor : after (exec (.xor 8 9 10) (sample [(8, 0xFF00FF00), (9, 0x0FF00FF0)])) (·.x 10) = some 0xF0F0F0F0 := by
  decide
theorem test_sll : after (exec (.sll 9 10 4) (sample [(9, 0xF0000001)])) (·.x 10) = some 0x10 := by decide
theorem test_srl : after (exec (.srl 9 10 31) (sample [(9, 0x80000000)])) (·.x 10) = some 1 := by decide
theorem test_jr : after (exec (.jr 8) (sample [(8, 6)])) (·.pc) = some 6 := by decide
theorem test_fadd :
    after (exec (.fadd 8 9 10) (sample [(8, 0x3DCCCCCD), (9, 0x3E4CCCCD)])) (·.x 10) = some 0x3E99999A := by decide
theorem test_fadd_overflow :
    after (exec (.fadd 8 9 10) (sample [(8, 0x7F7FFFFF), (9, 0x7F7FFFFF)])) (·.x 10) = some 0x7F800000 := by decide
theorem test_fsub :
    after (exec (.fsub 8 9 10) (sample [(8, 0x40600000), (9, 0x3FC00000)])) (·.x 10) = some 0x40000000 := by decide
theorem test_fmul :
    after (exec (.fmul 8 9 10) (sample [(8, 0x40600000), (9, 0x40000000)])) (·.x 10) = some 0x40E00000 := by decide
set_option exponentiation.threshold 400 in
theorem test_fmul_overflow :
    after (exec (.fmul 8 9 10) (sample [(8, 0x7149F2CA), (9, 0x7149F2CA)])) (·.x 10) = some 0x7F800000 := by decide
theorem test_fdiv :
    after (exec (.fdiv 8 9 10) (sample [(8, 0x3F800000), (9, 0x40400000)])) (·.x 10) = some 0x3EAAAAAB := by decide
theorem test_fdiv_by_negative_zero :
    after (exec (.fdiv 8 9 10) (sample [(8, 0x3F800000), (9, 0x80000000)])) (·.stderr) = some [.divideByZero 100] := by
  decide
theorem test_cvt_tie_up : after (exec (.cvt 9 10) (sample [(9, 0x01000003)])) (·.x 10) = some 0x4B800002 := by decide
theorem test_cvt_signed : after (exec (.cvt 9 10) (sample [(9, 0xFFFFFFFF)])) (·.x 10) = some 0xBF800000 := by decide
theorem test_rnd_half_away : after (exec (.rnd 9 10) (sample [(9, 0xC0200000)])) (·.x 10) = some 0xFFFFFFFD := by decide
theorem test_rnd_below_half : after (exec (.rnd 9 10) (sample [(9, 0x3EFFFFFF)])) (·.x 10) = some 0 := by decide
theorem test_addi_sign_extends : after (exec (.addi 0 8 0x8000) (sample [])) (·.x 8) = some 0xFFFF8000 := by decide
theorem test_andi : after (exec (.andi 9 8 0xFF0F) (sample [(9, 0xFFFFFFFF)])) (·.x 8) = some 0x0000FF0F := by decide
theorem test_bori : after (exec (.bori 9 8 0xFF0F) (sample [(9, 0xFFFF0000)])) (·.x 8) = some 0xFFFFFF0F := by decide
theorem test_xori : after (exec (.xori 9 8 0xFFFF) (sample [(9, 0xFFFFFFFF)])) (·.x 8) = some 0xFFFF0000 := by decide
theorem test_beq : after (exec (.beq 8 9 3) (sample [(8, 5), (9, 5)])) (·.pc) = some 116 := by decide
theorem test_bne : after (exec (.bne 8 9 0xFFFE) (sample [(8, 5), (9, 6)])) (·.pc) = some 96 := by decide
theorem test_bgez_negative : after (exec (.bgez 8 2) (sample [(8, 0x80000000)])) (·.pc) = some 104 := by decide
theorem test_bgez_zero : after (exec (.bgez 8 2) (sample [(8, 0)])) (·.pc) = some 112 := by decide
theorem test_bgtz_zero : after (exec (.bgtz 8 2) (sample [(8, 0)])) (·.pc) = some 104 := by decide
theorem test_blez_zero : after (exec (.blez 8 2) (sample [(8, 0)])) (·.pc) = some 112 := by decide
theorem test_bltz : after (exec (.bltz 8 2) (sample [(8, 0xFFFFFFFF)])) (·.pc) = some 112 := by decide
theorem test_bfeq_zeros : after (exec (.bfeq 8 9 3) (sample [(8, 0), (9, 0x80000000)])) (·.pc) = some 116 := by decide
theorem test_bfeq_nan : after (exec (.bfeq 8 8 3) (sample [(8, 0x7FC00000)])) (·.pc) = some 104 := by decide
theorem test_bfne_nan : after (exec (.bfne 8 8 0xFFFE) (sample [(8, 0x7FC00000)])) (·.pc) = some 96 := by decide
theorem test_bfgz_negative_zero : after (exec (.bfgz 8 2) (sample [(8, 0x80000000)])) (·.pc) = some 112 := by decide
theorem test_bfgtz_subnormal : after (exec (.bfgtz 8 2) (sample [(8, 1)])) (·.pc) = some 112 := by decide
theorem test_bflez_nan : after (exec (.bflez 8 2) (sample [(8, 0x7FC00000)])) (·.pc) = some 104 := by decide
theorem test_bfltz_negative_zero : after (exec (.bfltz 8 2) (sample [(8, 0x80000000)])) (·.pc) = some 104 := by decide
theorem test_lbu : after (exec (.lbu 28 8 1) (sample [] 104 [(1028, 0xFF)])) (·.x 8) = some 0x000000FF := by decide
theorem test_lbu_last_byte : after (exec (.lbu 9 8 0) (sample [(9, 65531)] 104 [(65531, 0xAB)])) (·.x 8) = some 0xAB := by
  decide
theorem test_lw :
    after (exec (.lw 28 8 2) (sample [] 104 [(1032, 0x78), (1033, 0x56), (1034, 0x34), (1035, 0x12)])) (·.x 8) =
      some 0x12345678 := by decide
theorem test_lw_address_wraps :
    after (exec (.lw 9 8 0xFFFF) (sample [(9, 0)])) (·.stderr) = some [.addressOutOfRange 0xFFFFFFFC 4] := by decide
theorem test_flw :
    after (exec (.flw 28 8 2) (sample [] 104 [(1034, 0xC0), (1035, 0x3F)])) (·.x 8) = some 0x3FC00000 := by decide
theorem test_sb : after (exec (.sb 28 8 1) (sample [(8, 0x12345678)])) (·.mem) = some [(1028, 0x78)] := by decide
theorem test_sw :
    after (exec (.sw 29 8 0xFFFF) (sample [(8, 0x12345678)])) (·.mem) =
      some [(4092, 0x78), (4093, 0x56), (4094, 0x34), (4095, 0x12)] := by decide
theorem test_sw_past_the_end :
    after (exec (.sw 0 8 16383) (sample [])) (·.stderr) = some [.addressOutOfRange 65532 4] := by decide
theorem test_fsw :
    after (exec (.fsw 28 8 2) (sample [(8, 0x40200000)])) (·.mem) = some [(1034, 0x20), (1035, 0x40)] := by decide
theorem test_jmp : after (exec (.jmp 0x3FFFFFF) (sample [])) (·.pc) = some 0x0FFFFFFC := by decide
theorem test_jal : after (exec (.jal 5) (sample [])) (fun s => (s.x 31, s.pc)) = some (104, 20) := by decide
theorem test_exit : after (exec .exit (sample [])) (·.status) = some (.halted 0) := by decide
theorem test_pstr :
    after (exec .pstr (sample [(4, 1024)] 104 [(1024, 0x48), (1025, 0x69), (1026, 0x0A)])) (fun s => (s.out, s.x 2)) =
      some ([0x48, 0x69, 0x0A], 3) := by decide
theorem test_pint :
    after (exec .pint (sample [(4, 0x80000000)])) (fun s => (s.out, s.x 2)) =
      some ([0x2D, 0x32, 0x31, 0x34, 0x37, 0x34, 0x38, 0x33, 0x36, 0x34, 0x38], 11) := by decide
/-- `3.141593` (R211). -/
theorem test_pflt :
    after (exec .pflt (sample [(4, 0x40490FDB)])) (fun s => (s.out, s.x 2)) =
      some ([0x33, 0x2E, 0x31, 0x34, 0x31, 0x35, 0x39, 0x33], 8) := by decide
/-- `-12.500000` (§2.7 of the vectors). -/
theorem test_pflt_negative :
    after (exec .pflt (sample [(4, 0xC1480000)])) (fun s => (s.out, s.x 2)) =
      some ([0x2D, 0x31, 0x32, 0x2E, 0x35, 0x30, 0x30, 0x30, 0x30, 0x30], 10) := by decide
theorem test_pch : after (exec .pch (sample [(4, 0x141)])) (fun s => (s.out, s.x 2)) = some ([0x41], 0x41) := by decide
theorem test_rch :
    after (exec .rch { sample [] with stdin := [0x78, 0x79] }) (fun s => (s.x 2, s.stdin)) = some (0x78, [0x79]) := by
  decide
theorem test_rch_at_end : after (exec .rch (sample [])) (·.x 2) = some 0xFFFFFFFF := by decide
/-- ` -2.5x` (R215). -/
theorem test_rflt :
    after (exec .rflt { sample [] with stdin := [0x20, 0x2D, 0x32, 0x2E, 0x35, 0x78] }) (fun s => (s.x 2, s.stdin)) =
      some (0xC0200000, [0x78]) := by decide
/-- `abc` (R215): nothing is read. -/
theorem test_parse_nothing : parseFloat [0x61, 0x62, 0x63] = (.nothing, [0x61, 0x62, 0x63]) := by decide
theorem test_stra : after (exec .stra { sample [] with tracing := false }) (·.tracing) = some true := by decide
theorem test_notr : after (exec .notr (sample [])) (·.tracing) = some false := by decide

/-! ## The cycle, the invariants, the error entry -/

/-- `ADDI $sp, $sp, 2` breaks I3 (§2.3 of the vectors). -/
theorem test_step_breaks_sp :
    after (step ((sample [] 0).withFetchWord 32 0x27BD0002)) (fun s => (s.x 29, s.stderr, s.status)) =
      some (4098, [.invariantViolation .spAligned], .halted 1) := by decide

/-- `JMP 16383` breaks I10, not before the jump has written the `PC` (§2.6 of the vectors). -/
theorem test_step_jump_beyond_memory :
    after (step ((sample [] 100).withFetchWord 32 0x08003FFF)) (fun s => (s.pc, s.stderr)) =
      some (65532, [.invariantViolation .pcInMemory]) := by decide

/-- A jump in the last word of memory executes normally (R243). -/
theorem test_step_jump_at_the_last_word :
    after (step ((sample [] 65528).withFetchWord 32 0x08000005)) (fun s => (s.pc, s.status)) = some (20, .running) := by
  decide

theorem test_step_illegal_word :
    after (step ((sample [] 100).withFetchWord 32 0xFC000000)) (fun s => (s.pc, s.stderr)) =
      some (104, [.illegalInstruction 0xFC000000 100]) := by decide

/-- The first instruction after reset (Figure 4): `ADDI $0, $t0, 1`. -/
theorem test_step_from_reset :
    after (step (State.reset.withFetchWord 32 0x24080001)) (fun s => (s.x 8, s.pc, s.ir)) = some (1, 4, 0x24080001) := by
  decide

theorem test_halted_machine_stops : step { State.reset with status := .halted 1 } = .fault (.halted 1) := rfl

/-- The line before the instruction and the block after it (R224); the block shows the stack-bottom word (C10). -/
theorem test_trace_of_a_step :
    after (step (State.reset.withFetchWord 32 0x0000400C)) (fun s => s.trace.length) = some 2 ∧
    (stateBlock State.reset).bottom = (4096, 0) ∧ (stateBlock State.reset).hi = none := by decide

/-! ## Loading and listing -/

/-- The 40 bytes of `vm_test0.bof` (R277). -/
def vmTest0 : List Byte :=
  [0x46, 0x42, 0x46, 0x00, 0x00, 0x00, 0x00, 0x00, 0x0C, 0x00, 0x00, 0x00, 0x00, 0x04, 0x00, 0x00] ++
  [0x00, 0x00, 0x00, 0x00, 0x00, 0x00, 0x00, 0x00, 0x00, 0x10, 0x00, 0x00] ++
  [0x0C, 0x40, 0x00, 0x00, 0x01, 0x00, 0x08, 0x24, 0x8C, 0x02, 0x00, 0x00]

/-- The record of that file (R277). -/
def vmTest0Record : Bof :=
  { textStart := 0, textLength := 12, dataStart := 1024, intsLength := 0, floatsLength := 0, stackBottom := 4096,
    text := [0x0C, 0x40, 0x00, 0x00, 0x01, 0x00, 0x08, 0x24, 0x8C, 0x02, 0x00, 0x00], data := [] }

theorem test_parse_vm_test0 : Bof.parse vmTest0 = .ok vmTest0Record := by decide
theorem test_parse_refuses_magic : Bof.parse (0x42 :: 0x4F :: 0x46 :: vmTest0.drop 3) = .error .magic := by decide
theorem test_start_vm_test0 :
    (start vmTest0Record []).status = .running ∧ (start vmTest0Record []).mem.readWord 4 = 0x24080001 ∧
    (start vmTest0Record []).trace.length = 1 := by decide
theorem test_start_refuses_low_stack :
    (start { vmTest0Record with stackBottom := 1024 } []).stderr = [.loadError .stackBottom] := by decide

/-- Figure 5, to the byte: `Addr  Instruction`, `0  STRA`, `4  ADDI $0, $t0, 1`, `8  EXIT`. -/
theorem test_listing_of_vm_test0 :
    (startListing vmTest0Record []).stdoutBytes =
      asmLine "Addr  Instruction" ++ asmLine "0  STRA" ++ asmLine "4  ADDI $0, $t0, 1" ++ asmLine "8  EXIT" ∧
    asmLine "0  STRA" = [0x30, 0x20, 0x20, 0x53, 0x54, 0x52, 0x41, 0x0A] ∧
    (startListing vmTest0Record []).status = .halted 0 := by decide

/-- An empty data section shows nothing, one of zeros is shown as such (C10). -/
theorem test_trace_of_an_empty_data_section :
    (stateBlock (sample [] 0 [(1024, 1)])).data = none ∧
    (stateBlock { sample [] 0 with dataLength := 8 }).data = some [] ∧
    (stateBlock { sample [] 0 [(1024, 1), (1032, 2)] with dataLength := 8 }).data = some [(1024, 1)] := by decide

/-- Figure 4. -/
theorem test_trace_line : traceLine 4 (.addi 0 8 1) = "==> addr: 4 ADDI $0, $t0, 1" := by decide

/-! ## States and operands that meet the hypotheses of the statements -/

/-- A sound running state that is not the reset state: the last word of memory is the next instruction. -/
def soundState : State := sample [(8, 7)] 65528

theorem witness_soundState : soundState.Sound ∧ soundState.status = .running :=
  ⟨⟨Memory.wf_nil, by decide, fun _ => by decide⟩, rfl⟩

theorem witness_DecodeOfEncodeIsTheInstruction : (Instr.srl 31 31 31).WellFormed = true := by decide
theorem witness_DecodedInstructionsAreWellFormed : decode 0x000957C0 = .ok (.sll 9 10 31) := by decide
theorem witness_DecoderAgreesWithTheOpcodeTable :
    (∃ i, decode 0xFFFF0000 = .ok i) ∨ ∃ e, decode 0xFFFF0000 = .error e := .inr ⟨_, rfl⟩
theorem witness_DecoderAgreesWithTheOpcodeTable_ok : decode 0x0BFFFFFF = .ok (.jmp 0x3FFFFFF) := by decide
theorem witness_DashFieldsDoNotMatter :
    (51 : BitVec 6) ∈ ([4, 5, 16, 18, 25, 27, 33, 35, 36, 37, 38, 39, 41, 43, 49, 51] : List (BitVec 6)) ∧
    (27 : BitVec 6) ∈ ([25, 27] : List (BitVec 6)) ∧ (16 : BitVec 6) ∈ ([16, 18] : List (BitVec 6)) ∧
    (0 : BitVec 6) ∈ ([0, 3, 4, 5] : List (BitVec 6)) ∧
    decode (serviceWord fieldOrder 257) = decode (serviceWord fieldOrder 257) :=
  ⟨by decide, by decide, by decide, by decide, rfl⟩
theorem witness_MixedWidthAccesses : 3 < 4 ∧ 0 ≠ 3 ∧ (99 < 100 ∨ 100 + 4 ≤ 99) ∧ (104 < 100 ∨ 100 + 4 ≤ 104) := by decide
theorem witness_CanonicalMemoriesThatReadAlikeAreEqual :
    Memory.wf [(0, 1), (65531, 255)] ∧ ∀ a, Memory.read [(0, 1), (65531, 255)] a = Memory.read [(0, 1), (65531, 255)] a :=
  ⟨by decide, fun _ => rfl⟩
theorem witness_AccessChecksInOrder :
    65531 < u32 65532 ∧ u32 65531 ≤ 65531 ∧ 65528 < u32 65529 ∧ (u32 65527 ≤ 65528 ∧ u32 65527 % 4 ≠ 0) ∧
    (u32 65528 ≤ 65528 ∧ u32 65528 % 4 = 0) := by decide
theorem witness_StepRunsTheDecodedInstruction :
    ∃ t, soundState.status = .running ∧ fetch soundState = .ok 0 ∧ decode 0 = .ok (.sll 0 0 0) ∧
      exec (.sll 0 0 0) (traceInstruction soundState.pc (.sll 0 0 0) { soundState with ir := 0, pc := soundState.pc + 4 }) =
        .next t :=
  ⟨_, rfl, rfl, rfl, rfl⟩
theorem witness_IllegalWordsHaltTheMachine :
    ∃ e, (soundState.withFetchWord 32 0xFC000000).status = .running ∧
      fetch (soundState.withFetchWord 32 0xFC000000) = .ok 0xFC000000 ∧ decode 0xFC000000 = .error e :=
  ⟨_, rfl, by rfl, rfl⟩
theorem witness_TheMachineHaltsInExactlyTwoWays :
    ({ soundState with status := .halted 1 } : State).status = .halted 1 ∧
    after (step (soundState.withFetchWord 32 0x0000028C)) (·.status) = some (.halted 0) ∧
    after (step soundState) (·.status) = some (.halted 1) := by decide
theorem witness_ARunningMachineAlwaysSteps : soundState.status = .running := rfl
theorem witness_EveryStepKeepsTheStateSound : soundState.Sound ∧ ∃ t, step soundState = .next t :=
  ⟨witness_soundState.1, _, rfl⟩
theorem witness_StartIsSoundOrRefusesTheFile :
    firstUnmet vmTest0Record = none ∧
    firstUnmet { vmTest0Record with stackBottom := 65532 } = some .stackInMemory ∧
    firstUnmet { vmTest0Record with text := [] } = some .fileLength := by decide
theorem witness_StartIsSoundOrRefusesTheFile_bytes :
    (vmTest0.drop 1).take 4 ≠ [0x46, 0x42, 0x46, 0x00] ∧
    ((vmTest0.take 27).take 4 = [0x46, 0x42, 0x46, 0x00] ∧ (vmTest0.take 27).length < 28) ∧
    vmTest0Record.text.length = u32 vmTest0Record.textLength ∧
    vmTest0Record.data.length = u32 vmTest0Record.intsLength + u32 vmTest0Record.floatsLength := by decide
theorem witness_StartIsSoundOrRefusesTheFile_listing :
    (∀ i ∈ [Instr.stra, .addi 0 8 1, .exit], i.WellFormed = true) ∧
    vmTest0Record.text = [Instr.stra, .addi 0 8 1, .exit].flatMap (fun i => bytesOfWord (encode i)) ∧
    vmTest0Record.data = [] := by decide
theorem witness_FetchSucceedsInSoundStates : soundState.Sound ∧ soundState.status = .running := witness_soundState
theorem witness_InvariantsAreTheUnsignedConditions :
    soundState.status = .running ∧ firstViolated soundState = none ∧
    firstViolated { soundState with pc := 65532 } = some .pcInMemory ∧
    ({ soundState with status := .halted 0 } : State).status ≠ .running := by decide
theorem witness_TracingChangesNothingElse : SameButTracing soundState { soundState with tracing := false } :=
  ⟨rfl, rfl, ⟨rfl, rfl⟩, rfl, rfl, rfl, rfl, rfl, rfl, rfl, rfl, rfl⟩
theorem witness_StepTracesTheInstructionAndTheState :
    soundState.status = .running ∧ fetch soundState = .ok 0 ∧ decode 0 = .ok (.sll 0 0 0) ∧
    ∃ t, step soundState = .next t :=
  ⟨rfl, rfl, rfl, _, rfl⟩
theorem witness_StepTracesTheInstructionAndTheState_block :
    Memory.wf [(0, 1), (65531, 255)] ∧ soundState.dataLength = 0 ∧
    ({ soundState with dataLength := 4 } : State).dataLength ≠ 0 := by decide
theorem witness_StepsAppendOutputAndConsumeInput : ∃ t, step soundState = .next t := ⟨_, rfl⟩
theorem witness_StoredWordsAreFetched :
    u32 (soundState.x 0 + formOffset 16382) ≤ 65528 ∧ u32 (soundState.x 0 + formOffset 16382) % 4 = 0 ∧
    ∃ t, exec (.sw 0 8 16382) soundState = .next t :=
  ⟨by decide, by decide, _, rfl⟩
theorem witness_RegisterInstructionsChangeTheirDestinationOnly :
    destination (.add 8 8 0) = some 0 ∧ ∃ t, exec (.add 8 8 0) soundState = .next t := ⟨rfl, _, rfl⟩
theorem witness_MultiplyAndDivideChangeHiAndLoOnly :
    (∃ rs rt, Instr.mul 8 8 = .mul rs rt ∨ Instr.mul 8 8 = .div rs rt) ∧ ∃ t, exec (.mul 8 8) soundState = .next t :=
  ⟨⟨8, 8, .inl rfl⟩, _, rfl⟩
theorem witness_ControlTransfersChangeThePcOnly :
    (∃ (rs rt : Reg) (o : BitVec 16) (a : BitVec 26),
      Instr.jr 8 ∈ [.beq rs rt o, .bne rs rt o, .bgez rs o, .bgtz rs o, .blez rs o, .bltz rs o, .bfeq rs rt o,
        .bfne rs rt o, .bfgz rs o, .bfgtz rs o, .bflez rs o, .bfltz rs o, .jmp a, .jal a, .jr rs]) ∧
    (∀ a, Instr.jr 8 ≠ .jal a) ∧ ∃ t, exec (.jr 8) soundState = .next t :=
  ⟨⟨8, 0, 0, 0, by decide⟩, fun _ h => Instr.noConfusion h, _, rfl⟩
theorem witness_StoresChangeTheirBytesOnly :
    ((Instr.sb 8 8 16380 = .sb 8 8 16380 ∧ 1 = 1) ∨ ((Instr.sb 8 8 16380 = .sw 8 8 16380 ∨
      Instr.sb 8 8 16380 = .fsw 8 8 16380) ∧ 1 = 4)) ∧
    (∃ t, exec (.sb 8 8 16380) soundState = .next t) ∧ u32 (accessAddress 8 16380 soundState) = 65527 ∧
    (65528 < 65527 ∨ 65527 + 1 ≤ 65528) :=
  ⟨.inl ⟨rfl, rfl⟩, ⟨_, rfl⟩, by decide, .inr (by decide)⟩
theorem witness_SystemCallsChangeNoRegisterButV0 :
    Instr.pch ∈ [.exit, .pstr, .pint, .pflt, .pch, .rch, .rflt, .stra, .notr] ∧
    (∃ t, exec .pch soundState = .next t) ∧ Instr.stra ∈ [Instr.exit, .stra, .notr] ∧
    Instr.pch ∉ [Instr.rch, .rflt] ∧ Instr.pch ∉ [Instr.stra, .notr] ∧
    Instr.stra ∉ [Instr.pstr, .pint, .pflt, .pch] ∧ Instr.pch ≠ .exit :=
  ⟨by decide, ⟨_, rfl⟩, by decide, by decide, by decide, by decide, by decide⟩
theorem witness_SumsWrapAndAreExactWhenTheyFit :
    overflowAdd (soundState.x 8) (soundState.x 8) = false ∧ overflowSub (soundState.x 0) (soundState.x 8) = false ∧
    overflowAdd (soundState.x 8) (sgnExt 0x8000) = false := by decide
theorem witness_ShiftRightIsLogical : 31 < 32 := by decide
theorem witness_ShiftLeftLosesTheHighBits : 0 < 32 := by decide
theorem witness_DivideGivesQuotientAndRemainder :
    (soundState.x 8 ≠ 0 ∧ ¬ (s32 (soundState.x 8) = -2147483648 ∧ s32 (soundState.x 8) = -1)) ∧ soundState.x 9 = 0 ∧
    s32 ((sample [(8, 0x80000000), (9, 0xFFFFFFFF)]).x 8) = -2147483648 ∧
    s32 ((sample [(8, 0x80000000), (9, 0xFFFFFFFF)]).x 9) = -1 := by decide
theorem witness_NonzeroWritesToRegisterZeroAreErrors :
    (fun s : State => s.x 8 + s.x 9 ≠ 0 ∧ s.x 8 - s.x 9 ≠ 0 ∧ (s.x 8 &&& s.x 9) ≠ 0 ∧ (s.x 8 ||| s.x 9) ≠ 0 ∧
      ~~~(s.x 8 ||| s.x 9) ≠ 0 ∧ (s.x 8 ^^^ s.x 9) ≠ 0 ∧ s.x 9 <<< 31 ≠ 0 ∧ s.x 9 >>> 1 ≠ 0 ∧ s.hi ≠ 0 ∧ s.lo ≠ 0 ∧
      s.x 8 + sgnExt 0xFFFF ≠ 0 ∧ (s.x 8 &&& zeroExt 4) ≠ 0 ∧ (s.x 8 ||| zeroExt 0) ≠ 0 ∧ (s.x 8 ^^^ zeroExt 4) ≠ 0)
      { sample [(8, 7), (9, 3)] with hi := 1, lo := 1 } := by decide
theorem witness_NonzeroFloatsAndLoadsIntoRegisterZeroAreErrors :
    (fun s : State => numerics.isZero (s.x 9) = false ∧ numerics.div (s.x 8) (s.x 9) = some 0x40400000 ∧
      numerics.add (s.x 8) (s.x 10) = none ∧ s.x 9 ≠ 0 ∧
      numerics.toIntRounded Params.rndMode (s.x 8) = some 3 ∧
      u32 (s.x 11 + formOffset 0) ≤ 65531 ∧ s.mem.read (u32 (s.x 11 + formOffset 0)) ≠ 0 ∧
      u32 (s.x 0 + formOffset 16382) ≤ 65528 ∧ u32 (s.x 0 + formOffset 16382) % 4 = 0 ∧
      s.mem.readWord (u32 (s.x 0 + formOffset 16382)) ≠ 0)
      (sample [(8, 0x40400000), (9, 0x3F800000), (10, 0x7FC00000), (11, 65531)] 104 [(65531, 1)]) := by decide
theorem witness_FloatDivideWritesTheQuotient :
    numerics.isZero 1 = false ∧ numerics.isZero 0x80000000 = true := by decide
/-- 2^24 + 1 lies halfway between the data `0x4B800000` and `0x4B800001`. -/
theorem witness_ConvertGivesTheNearestDatum :
    (s32 0xFF000000).natAbs ≤ 2 ^ 24 ∧ numerics.isNaN 0x4B800001 = false ∧ f32IsInf 0x4B800001 = false ∧
    (s32 16777217 * f32One - f32Value (numerics.ofInt 16777217)).natAbs =
      (s32 16777217 * f32One - f32Value 0x4B800001).natAbs ∧
    f32Value 0x4B800001 ≠ f32Value (numerics.ofInt 16777217) := by decide
/-- -2.5, 2147483520.0 and 2147483648.0, the last datum in range and the first out of it. -/
theorem witness_RoundGivesTheNearestIntegerOrAnError :
    (numerics.isNaN 0xC0200000 = false ∧ f32IsInf 0xC0200000 = false ∧
      IsRoundedInteger .halfAwayFromZero 0xC0200000 (-3)) ∧
    IsRoundedInteger .halfAwayFromZero 0x4EFFFFFF 2147483520 ∧
    IsRoundedInteger .halfAwayFromZero 0x4F000000 2147483648 ∧
    f32IsInf 0x7F800000 = true ∧ numerics.isNaN 0x7F800001 = true := by
  unfold IsRoundedInteger
  decide
theorem witness_RoundingIsToNearestEven :
    0 < 2 ∧ f32IsInf (f32Round false 3 2) = false ∧ f32IsNaN 0x7F7FFFFF = false ∧ f32IsInf 0x7F7FFFFF = false ∧
    f32Units 1 ≠ f32Units (f32Round false 3 2) ∧
    ((3 : Int) - f32Units (f32Round false 3 2) * 2).natAbs = ((3 : Int) - f32Units 1 * 2).natAbs := by decide
theorem witness_FloatComparisonsOrderTheData :
    (numerics.isNaN 0x7FC00000 = true ∨ numerics.isNaN 0 = true) ∧ numerics.isNaN 0x7F800000 = false ∧
    (numerics.lt 0xFF800000 0x80000001 = true ∧ numerics.lt 0x80000001 0 = true) ∧ f32IsInf 0xFF7FFFFF = false := by
  decide
/-- Finite operands whose sum, difference, product and quotient are inexact, an exact zero sum, and the invalid
operations. -/
theorem witness_FloatArithmeticWritesTheNumericsResult :
    (f32IsInf 0x3DCCCCCD = false ∧ f32Value 0x3DCCCCCD + f32Value 0x3E4CCCCD ≠ 0) ∧
    f32Value 0x3F800000 + f32Value 0xBF800000 = 0 ∧ numerics.sub 0x7F800000 0x7F800000 = none ∧
    numerics.mul 0 0x7F800000 = none ∧ numerics.div 0x80000000 0 = none ∧ f32IsZero 0x40400000 = false := by decide
theorem witness_PrintingCallsWriteTheirText :
    f32IsNaN 0xC0200000 = false ∧ f32IsInf 0xC0200000 = false ∧ f32IsNaN 0xFFC00000 = true := by decide
theorem witness_LoadsAndStoresAtValidAddresses :
    u32 ((sample [(8, 65531)]).x 8 + formOffset 0) ≤ 65531 ∧
    (u32 (soundState.x 0 + formOffset 16382) ≤ 65528 ∧ u32 (soundState.x 0 + formOffset 16382) % 4 = 0) := by decide
theorem witness_InvalidAccessesHaltBeforeAnyEffect :
    65531 < u32 (soundState.x 0 + formOffset 16383) ∧ 65528 < u32 (soundState.x 0 + formOffset 16383) ∧
    (u32 (soundState.x 8 + formOffset 0) ≤ 65528 ∧ u32 (soundState.x 8 + formOffset 0) % 4 ≠ 0) := by decide
theorem witness_ExitHaltsAndTracingCallsSwitch :
    soundState.tracing = true ∧ ({ soundState with tracing := false } : State).tracing = false := ⟨rfl, rfl⟩
theorem witness_PrintStringWritesTheBytesBeforeTheZero :
    (fun s : State => u32 (s.x 4) + 1 < 65532 ∧ (∀ k < 1, s.mem.read (u32 (s.x 4) + k) ≠ 0) ∧
      s.mem.read (u32 (s.x 4) + 1) = 0) (sample [(4, 65530)] 104 [(65530, 0x48)]) := by decide
theorem witness_PrintStringUnterminatedIsAnError :
    ∀ a, u32 ((sample [(4, 65532)]).x 4) ≤ a → a < 65532 → (sample [(4, 65532)]).mem.read a ≠ 0 :=
  fun a h h' => absurd (Nat.lt_of_le_of_lt h h') (by decide)
theorem witness_PrintStringUnterminatedInMemory :
    ∀ a, u32 ((sample [(4, 65531)] 104 [(65531, 1)]).x 4) ≤ a → a < 65532 →
      (sample [(4, 65531)] 104 [(65531, 1)]).mem.read a ≠ 0 := by
  intro a h h'
  have e : a = 65531 := Nat.le_antisymm (Nat.le_of_lt_succ h') h
  subst e
  decide
theorem witness_ReadCharacterConsumesOneByte :
    ({ soundState with stdin := [0xFF] } : State).stdin = 0xFF :: [] ∧ soundState.stdin = [] := ⟨rfl, rfl⟩
/-- `1`, `nan`, and nothing. -/
theorem witness_ReadFloatTakesTheNumberRead :
    parseFloat [0x31] = (.datum 0x3F800000, []) ∧ parseFloat [0x6E, 0x61, 0x6E] = (.nan, []) ∧
    parseFloat [] = (.nothing, []) := by decide
/-- ` -2.5x`, `0x1.8p1`, `InF`, `,` and `1E`: an input for each clause on literals. -/
theorem witness_ParseFloatReadsLiterals :
    AreSpaces [0x20] ∧ (IsDecimalLiteral [0x2D, 0x32, 0x2E, 0x35] true 25 10 ∧ EndsDecimal [0x79]) ∧
    (IsHexLiteral [0x30, 0x78, 0x31, 0x2E, 0x38, 0x70, 0x31] false 48 16 ∧ EndsHex []) ∧
    IsSign [0x2B] false ∧ InAnyCase [0x49, 0x6E, 0x46] [0x69, 0x6E, 0x66] ∧
    (¬ AreSpaces [0x2C] ∧ ¬ AreDigits [0x2C] ∧ (0x2C : Byte) ∉ ([0x2B, 0x2D, 0x2E, 0x69, 0x49, 0x6E, 0x4E] : List Byte)) ∧
    IsDecimalLiteral [0x31] false 1 1 := by
  refine ⟨by unfold AreSpaces; decide, ⟨?_, by unfold EndsDecimal AreDigits; decide⟩,
    ⟨?_, by unfold EndsHex; simp⟩, .inr (.inl ⟨rfl, rfl⟩), by unfold InAnyCase; simp,
    ⟨by unfold AreSpaces; decide, by unfold AreDigits; decide, by decide⟩, ?_⟩
  · exact ⟨[0x2D], [0x32], [0x35], [0x2E, 0x35], [], 0, .inr (.inr ⟨rfl, rfl⟩), by unfold AreDigits; decide,
      by unfold AreDigits; decide, by decide, .inr rfl, .inl ⟨rfl, rfl⟩, rfl, by decide, by decide⟩
  · exact ⟨[], [0x31], [0x38], [0x2E, 0x38], [0x70, 0x31], 0x78, 1, .inl ⟨rfl, rfl⟩, .inl rfl,
      by unfold AreHexDigits; decide, by unfold AreHexDigits; decide, by decide, .inr rfl,
      .inr ⟨0x70, [], [0x31], false, .inl rfl, .inl ⟨rfl, rfl⟩, by decide, by unfold AreDigits; decide, rfl, rfl⟩, rfl,
      by decide, by decide⟩
  · exact ⟨[], [0x31], [], [], [], 0, .inl ⟨rfl, rfl⟩, by unfold AreDigits; decide, by unfold AreDigits; decide,
      by decide, .inl ⟨rfl, rfl⟩, .inl ⟨rfl, rfl⟩, rfl, by decide, by decide⟩

/-- R215, its corner cases, and the choices of log entry [19]: 16777217 is halfway between two data, 1e39 is past them. -/
theorem test_parse_float :
    parseFloat [0x31, 0x2E, 0x35, 0x0A] = (.datum 0x3FC00000, [0x0A]) ∧
    parseFloat [0x20, 0x2D, 0x32, 0x2E, 0x35, 0x78] = (.datum 0xC0200000, [0x78]) ∧
    parseFloat [0x61, 0x62, 0x63] = (.nothing, [0x61, 0x62, 0x63]) ∧
    parseFloat [0x31, 0x36, 0x37, 0x37, 0x37, 0x32, 0x31, 0x37] = (.datum 0x4B800000, []) ∧
    parseFloat [0x31, 0x65, 0x33, 0x39] = (.datum 0x7F800000, []) := by decide

theorem witness_ResetIsTheSpecsTable : (31 : Reg) ∉ [Reg.gp, Reg.sp, Reg.fp] := by decide
theorem witness_LoadCopiesTheSections :
    firstUnmet vmTest0Record = none ∧ 11 < vmTest0Record.text.length ∧
    (vmTest0Record.text.length ≤ 12 ∧ (12 < u32 vmTest0Record.dataStart ∨
      u32 vmTest0Record.dataStart + vmTest0Record.data.length ≤ 12)) ∧
    firstUnmet { vmTest0Record with floatsLength := 1, data := [1] } = none := by decide

/-- A record of parameters with every value other than the default that R8 offers. -/
def otherParameters : Parameters :=
  { Parameters.default with
    fieldOrder := .lsbFirst, r0Write := .discard, misalignedWordAccess := .splitLittleEndian, intOverflow := .fault,
    divOverflow := .wrap, fdivByZero := .ieee, rndMode := .halfToEven, rndOutOfRange := .anyValue,
    eofValue := 0xFFFFFFFE, errorExitCode := 2 }

theorem test_other_parameters_allowed : otherParameters.Allowed := ⟨by decide, by decide⟩

/-- R23, R58, R114, R135, R137 under the other values: a write to register 0 discarded, a word read off its boundary,
`-2^31 / -1` wrapped, `1.0 / 0.0` an infinity, 2.5 rounded to 2. -/
theorem test_other_parameters :
    after (execWith otherParameters (.addi 0 0 1) (sample [])) (·.status) = some .running ∧
    after (execWith otherParameters (.lw 9 8 0) (sample [(9, 1025)] 104 [(1025, 0x11), (1028, 0x44)])) (·.x 8) =
      some 0x44000011 ∧
    after (execWith otherParameters (.div 8 9) (sample [(8, 0x80000000), (9, 0xFFFFFFFF)])) (fun s => (s.hi, s.lo)) =
      some (0, 0x80000000) ∧
    after (execWith otherParameters (.fdiv 8 9 10) (sample [(8, 0x3F800000)])) (·.x 10) = some 0x7F800000 ∧
    after (execWith otherParameters (.rnd 9 10) (sample [(9, 0x40200000)])) (·.x 10) = some 2 := by decide

/-- R85, R110, R246 under the other values: `op` in bits 5:0, an overflow an error, the exit code 2. -/
theorem test_step_with_other_parameters :
    after (stepWith otherParameters (State.reset.withFetchWord 32 0x00014009)) (·.x 8) = some 1 ∧
    after (execWith otherParameters (.add 9 10 8) (sample [(9, 0x7FFFFFFF), (10, 1)])) (fun s => (s.stderr, s.status)) =
      some ([.integerOverflow 100], .halted 2) := by decide

theorem witness_ParametersDecideTheirCases :
    otherParameters.r0Write = .discard ∧ Parameters.default.r0Write = .faultIfNonzero ∧
    otherParameters.misalignedWordAccess = .splitLittleEndian ∧ Parameters.default.misalignedWordAccess = .fault ∧
    otherParameters.intOverflow = .fault ∧ otherParameters.divOverflow = .wrap ∧ otherParameters.fdivByZero = .ieee ∧
    otherParameters.rndOutOfRange = .anyValue ∧
    (fun s : State => (s.x 8 &&& s.x 9) ≠ 0 ∧ overflowAdd (s.x 8) (s.x 9) = true ∧ s32 (s.x 8) = -2147483648 ∧
      s32 (s.x 9) = -1 ∧ numerics.isZero (s.x 0) = true ∧ numerics.toIntRounded otherParameters.rndMode (s.x 9) = none ∧
      u32 (s.x 11 + formOffset 0) ≤ 65528 ∧ u32 (s.x 11 + formOffset 0) % 4 ≠ 0 ∧ s.stdin = [])
      (sample [(8, 0x80000000), (9, 0xFFFFFFFF), (11, 65525)]) := by decide
/-- `ADDI $0, $8, 1` and a word whose `op` is 63, both with `op` in bits 5:0 (R85). -/
theorem witness_ParametersDecideTheirCases_step :
    (fun s : State => s.status = .running ∧ fetch s otherParameters = .ok 0x00014009)
      (State.reset.withFetchWord 32 0x00014009) ∧
    decodeWith otherParameters.fieldOrder 0x00014009 = .ok (.addi 0 8 1) ∧
    (fun s : State => s.status = .running ∧ fetch s otherParameters = .ok 0x0000003F)
      (State.reset.withFetchWord 32 0x0000003F) ∧
    ∃ e, decodeWith otherParameters.fieldOrder 0x0000003F = .error e :=
  ⟨⟨rfl, by rfl⟩, by decide, ⟨rfl, by rfl⟩, _, rfl⟩
/-- Sums that overflow and one that does not, values that are not zero, input of each kind, and header words. -/
theorem witness_ParametersDecideTheirCases_more :
    (fun s : State => overflowSub (s.x 8) (s.x 10) = true ∧ overflowAdd (s.x 8) (sgnExt 0xFFFF) = true ∧
      overflowAdd (s.x 10) (s.x 10) = false ∧ ~~~(s.x 8 ||| s.x 10) ≠ 0 ∧
      Parameters.default.numerics.ofInt (s.x 10) ≠ 0 ∧
      Parameters.default.numerics.toIntRounded .halfToEven (s.x 11) = some 1 ∧
      Parameters.default.parseFloat s.stdin = (.datum 0x3F800000, []))
      { sample [(8, 0x80000000), (10, 1), (11, 0x3F800000)] with stdin := [0x31] } ∧
    Parameters.default.parseFloat [0x6E, 0x61, 0x6E] = (.nan, []) ∧ Parameters.default.parseFloat [] = (.nothing, []) ∧
    Parameters.default.bofWord [4, 1, 0, 0, 9] = some (260, [9]) := by decide

end Sys2Proof.Tests
end

