-- ==== Sys2Proof/Proofs/FieldOrders.lean ====
section
/-! SUPPORT. The fields of a word under either `FIELD_ORDER`, and the decoder as the encoder's inverse under both (spec
R81 to R85, R90, R91). -/

namespace Sys2Proof

/-- The fields under `FIELD_ORDER = msb_first` as numbers (R81 to R84). -/
theorem fieldsOf_msbFirst_toNat (w : Word) :
    (fieldsOf .msbFirst w).op.toNat = u32 w / 2 ^ 26 ∧ (fieldsOf .msbFirst w).rs.val = u32 w / 2 ^ 21 % 32 ∧
    (fieldsOf .msbFirst w).rt.val = u32 w / 2 ^ 16 % 32 ∧ (fieldsOf .msbFirst w).rd.val = u32 w / 2 ^ 11 % 32 ∧
    (fieldsOf .msbFirst w).shift = u32 w / 2 ^ 6 % 32 ∧ (fieldsOf .msbFirst w).func.toNat = u32 w % 64 ∧
    (fieldsOf .msbFirst w).code.toNat = u32 w / 2 ^ 6 % 2 ^ 20 ∧
    (fieldsOf .msbFirst w).immed.toNat = u32 w % 2 ^ 16 ∧ (fieldsOf .msbFirst w).addr.toNat = u32 w % 2 ^ 26 := by
  have hw := w.isLt
  simp only [fieldsOf, toNat_bitField, val_regField, u32, true_and]
  omega

/-- The fields under `FIELD_ORDER = lsb_first` as numbers (R85). -/
theorem fieldsOf_lsbFirst_toNat (w : Word) :
    (fieldsOf .lsbFirst w).op.toNat = u32 w % 64 ∧ (fieldsOf .lsbFirst w).rs.val = u32 w / 2 ^ 6 % 32 ∧
    (fieldsOf .lsbFirst w).rt.val = u32 w / 2 ^ 11 % 32 ∧ (fieldsOf .lsbFirst w).rd.val = u32 w / 2 ^ 16 % 32 ∧
    (fieldsOf .lsbFirst w).shift = u32 w / 2 ^ 21 % 32 ∧ (fieldsOf .lsbFirst w).func.toNat = u32 w / 2 ^ 26 ∧
    (fieldsOf .lsbFirst w).code.toNat = u32 w / 2 ^ 6 % 2 ^ 20 ∧
    (fieldsOf .lsbFirst w).immed.toNat = u32 w / 2 ^ 16 ∧ (fieldsOf .lsbFirst w).addr.toNat = u32 w / 2 ^ 6 := by
  have hw := w.isLt
  simp only [fieldsOf, toNat_bitField, val_regField, u32, true_and]
  omega

/-- A word of the register format with `op` in bits 5:0, as a number (R85). -/
theorem toNat_registerWord_lsbFirst (rs rt rd : Reg) (h : Nat) (f : BitVec 6) :
    (registerWord .lsbFirst rs rt rd h f).toNat =
      f.toNat * 67108864 + h % 32 * 2097152 + rd.val * 65536 + rt.val * 2048 + rs.val * 64 := by
  simp only [registerWord, toNat_append_eq, BitVec.toNat_ofNat, BitVec.toNat_ofFin]
  omega

/-- A word of the system-call format with `op` in bits 5:0, as a number (R85). -/
theorem toNat_serviceWord_lsbFirst (code : BitVec 20) :
    (serviceWord .lsbFirst code).toNat = 12 * 67108864 + code.toNat * 64 := by
  simp only [serviceWord, toNat_append_eq, BitVec.toNat_ofNat]
  omega

/-- A word of the immediate format with `op` in bits 5:0, as a number (R85). -/
theorem toNat_immediateWord_lsbFirst (op : BitVec 6) (rs rt : Reg) (i : BitVec 16) :
    (immediateWord .lsbFirst op rs rt i).toNat =
      i.toNat * 65536 + rt.val * 2048 + rs.val * 64 + op.toNat := by
  simp only [immediateWord, toNat_append_eq, BitVec.toNat_ofFin]
  omega

/-- A word of the jump format with `op` in bits 5:0, as a number (R85). -/
theorem toNat_jumpWord_lsbFirst (op : BitVec 6) (a : BitVec 26) :
    (jumpWord .lsbFirst op a).toNat = a.toNat * 64 + op.toNat := by
  simp only [jumpWord, toNat_append_eq]
  omega

/-- Under either order a register-format word has the fields it was written from (R81, R85). -/
theorem fieldsOf_registerWord_eq (order : Config.FieldOrder) (rs rt rd : Reg) (h : Nat) (f : BitVec 6) :
    (fieldsOf order (registerWord order rs rt rd h f)).op = 0 ∧
    (fieldsOf order (registerWord order rs rt rd h f)).rs = rs ∧
    (fieldsOf order (registerWord order rs rt rd h f)).rt = rt ∧
    (fieldsOf order (registerWord order rs rt rd h f)).rd = rd ∧
    (fieldsOf order (registerWord order rs rt rd h f)).shift = h % 32 ∧
    (fieldsOf order (registerWord order rs rt rd h f)).func = f := by
  cases order with
  | msbFirst => exact fieldsOf_registerWord rs rt rd h f
  | lsbFirst =>
    obtain ⟨hop, hrs, hrt, hrd, hshift, hfunc, -⟩ := fieldsOf_lsbFirst_toNat (registerWord .lsbFirst rs rt rd h f)
    rw [u32, toNat_registerWord_lsbFirst] at hop hrs hrt hrd hshift hfunc
    refine ⟨BitVec.eq_of_toNat_eq ?_, Fin.ext ?_, Fin.ext ?_, Fin.ext ?_, ?_, BitVec.eq_of_toNat_eq ?_⟩
    · exact hop.trans (show _ = 0 by omega)
    all_goals omega

/-- Under either order a system-call word has the fields it was written from (R82, R85). -/
theorem fieldsOf_serviceWord_eq (order : Config.FieldOrder) (code : BitVec 20) :
    (fieldsOf order (serviceWord order code)).op = 0 ∧ (fieldsOf order (serviceWord order code)).func = 12 ∧
    (fieldsOf order (serviceWord order code)).code = code := by
  cases order with
  | msbFirst => exact fieldsOf_serviceWord code
  | lsbFirst =>
    obtain ⟨hop, -, -, -, -, hfunc, hcode, -⟩ := fieldsOf_lsbFirst_toNat (serviceWord .lsbFirst code)
    rw [u32, toNat_serviceWord_lsbFirst] at hop hfunc hcode
    refine ⟨BitVec.eq_of_toNat_eq ?_, BitVec.eq_of_toNat_eq ?_, BitVec.eq_of_toNat_eq ?_⟩
    · exact hop.trans (show _ = 0 by omega)
    · exact hfunc.trans (show _ = 12 by omega)
    · omega

/-- Under either order an immediate-format word has the fields it was written from (R83, R85). -/
theorem fieldsOf_immediateWord_eq (order : Config.FieldOrder) (op : BitVec 6) (rs rt : Reg) (i : BitVec 16) :
    (fieldsOf order (immediateWord order op rs rt i)).op = op ∧
    (fieldsOf order (immediateWord order op rs rt i)).rs = rs ∧
    (fieldsOf order (immediateWord order op rs rt i)).rt = rt ∧
    (fieldsOf order (immediateWord order op rs rt i)).immed = i := by
  cases order with
  | msbFirst => exact fieldsOf_immediateWord op rs rt i
  | lsbFirst =>
    obtain ⟨hop, hrs, hrt, -, -, -, -, himmed, -⟩ := fieldsOf_lsbFirst_toNat (immediateWord .lsbFirst op rs rt i)
    rw [u32, toNat_immediateWord_lsbFirst] at hop hrs hrt himmed
    refine ⟨BitVec.eq_of_toNat_eq ?_, Fin.ext ?_, Fin.ext ?_, BitVec.eq_of_toNat_eq ?_⟩ <;> omega

/-- Under either order a jump-format word has the fields it was written from (R84, R85). -/
theorem fieldsOf_jumpWord_eq (order : Config.FieldOrder) (op : BitVec 6) (a : BitVec 26) :
    (fieldsOf order (jumpWord order op a)).op = op ∧ (fieldsOf order (jumpWord order op a)).addr = a := by
  cases order with
  | msbFirst => exact fieldsOf_jumpWord op a
  | lsbFirst =>
    obtain ⟨hop, -, -, -, -, -, -, -, haddr⟩ := fieldsOf_lsbFirst_toNat (jumpWord .lsbFirst op a)
    rw [u32, toNat_jumpWord_lsbFirst] at hop haddr
    refine ⟨BitVec.eq_of_toNat_eq ?_, BitVec.eq_of_toNat_eq ?_⟩ <;> omega

/-- Under either order the decoder reads back what the encoder wrote: an instruction's word has the fields of its
format, and they select the instruction's row (R85, R90, R91). -/
theorem decodeWith_encodeWith (order : Config.FieldOrder) {i : Instr} (h : i.WellFormed = true) :
    decodeWith order (encodeWith order i) = .ok i := by
  cases i with
  | sll _ _ shift | srl _ _ shift =>
    have hshift : shift % 32 = shift := Nat.mod_eq_of_lt (by simpa [Instr.WellFormed] using h)
    simp [encodeWith, decodeWith, decodeFields, decodeRegister, fieldsOf_registerWord_eq, hshift]
  | add | fadd | sub | fsub | mul | fmul | div | fdiv | mfhi | mflo | and | bor | nor | xor | cvt | rnd | jr =>
    simp [encodeWith, decodeWith, decodeFields, decodeRegister, requireConstant, fieldsOf_registerWord_eq]
  | exit | pstr | pint | pflt | pch | rch | rflt | stra | notr =>
    simp [encodeWith, decodeWith, decodeFields, decodeRegister, decodeService, fieldsOf_serviceWord_eq]
  | addi | andi | bori | xori | beq | bgez | bgtz | blez | bltz | bne | bfeq | bfgz | bfgtz | bflez | bfltz | bfne
  | lbu | lw | flw | sb | sw | fsw =>
    simp [encodeWith, decodeWith, decodeFields, requireConstant, fieldsOf_immediateWord_eq]
  | jmp | jal =>
    simp [encodeWith, decodeWith, decodeFields, fieldsOf_jumpWord_eq]

end Sys2Proof
end

