-- ==== Sys2Proof/Proofs/Parameters.lean ====
section
/-! SUPPORT. What the shared operations answer under any record of parameters, and statement O60, which says that each
parameter of R8 decides its case. -/

namespace Sys2Proof.Machine

section answers

variable (d : Reg) (v : Word) (s : State) (p : Parameters)

/-- A register write answers as R23 says, whatever `R0_WRITE` is. -/
theorem answersWrite_writeReg : AnswersWrite d v s (.next (writeReg d v s p)) := by
  refine ⟨fun hd => ?_, fun hd hv => ?_⟩
  · rw [writeReg_of_ne hd, State.setReg]
  · subst hd hv
    exact congrArg _ (writeReg_zero_zero s p)

/-- A floating-point result answers as R130 and R140 say. -/
theorem answersFloat_writeFloat (r : Option Word) : AnswersFloat d r s (.next (writeFloat d r s p)) := by
  refine ⟨fun v hr => ?_, fun hr hd => ⟨_, f32IsNaN_nanOfFree (Config.freeWord s.draws), ?_⟩⟩
  · rw [hr, writeFloat_some]
    exact answersWrite_writeReg d v s p
  · rw [hr, writeFloat_none, writeReg_of_ne hd]
    rfl

/-- `INT_OVERFLOW` decides what a sum that overflows does (R110). -/
theorem writeSum_decides (overflows : Bool) :
    (p.intOverflow = .wrap ∨ overflows = false → AnswersWrite d v s (.next (writeSum d overflows v s p))) ∧
    (p.intOverflow = .fault → overflows = true →
      writeSum d overflows v s p = raise (.integerOverflow (s.pc - 4)) s p) := by
  rcases writeSum_cases d overflows v s p with ⟨hwrap, hw⟩ | ⟨hp, ho, hw⟩
  · refine ⟨fun _ => hw ▸ answersWrite_writeReg d v s p, fun hp ho => ?_⟩
    simp [hp, ho] at hwrap
  · exact ⟨fun hwrap => by simp [hp, ho] at hwrap, fun _ _ => hw⟩

end answers

/-- A word in memory but off a word boundary is an error under `MISALIGNED_WORD_ACCESS = fault` (R55). -/
theorem accessError_misaligned {addr : Word} {p : Parameters} (hr : u32 addr ≤ 65528) (ha : u32 addr % 4 ≠ 0)
    (hp : p.misalignedWordAccess = .fault) : accessError addr 4 p = some (.misalignedAccess addr) := by
  have hin : ¬ Config.memorySize < u32 addr + 4 := by simp only [Config.memorySize]; omega
  simp [accessError, hin, ha, hp]

/-- Any word in memory can be accessed under `MISALIGNED_WORD_ACCESS = split_little_endian` (R55). -/
theorem accessError_split {addr : Word} {p : Parameters} (hr : u32 addr ≤ 65528)
    (hp : p.misalignedWordAccess = .splitLittleEndian) : accessError addr 4 p = none :=
  (accessError_word addr p).mpr ⟨by simp only [Config.memorySize]; omega, .inr hp⟩

/-- A word written holds its byte `k` at address `a + k` (R53, R57). -/
theorem Memory.read_writeWord_inside (m : Memory) (a : Nat) (v : Word) {k : Nat} (hk : k < 4) :
    (m.writeWord a v).read (a + k) = v.extractLsb' (8 * k) 8 := by
  rw [Memory.writeWord, Memory.read_writeBytes, if_pos (Nat.le_add_right a k), Nat.add_sub_cancel_left]
  match k, hk with
  | 0, _ | 1, _ | 2, _ | 3, _ => rfl

/-- A word written leaves every byte outside its four as it was (R57). -/
theorem Memory.read_writeWord_outside (m : Memory) (v : Word) {a b : Nat} (h : b < a ∨ a + 4 ≤ b) :
    (m.writeWord a v).read b = m.read b := by
  rw [Memory.writeWord, Memory.read_writeBytes]
  split
  · exact List.getD_eq_default _ _ (by simp only [bytesOfWord, List.length_cons, List.length_nil]; omega)
  · rfl

section wordAccess

variable {rs rt : Reg} {o : BitVec 16} {s : State} {p : Parameters}

/-- A load from a valid address writes the word there (R182). -/
theorem loadWord_valid (h : accessError (s.x rs + formOffset o) 4 p = none) :
    loadWord rs rt o s p = writeReg rt (s.mem.readWord (u32 (s.x rs + formOffset o))) s p :=
  congrArg (writeRegOrRaise rt · s p) (memReadWord_valid h s)

/-- A load that is an error raises it and does nothing else (R245). -/
theorem loadWord_error {e : MachineError} (h : accessError (s.x rs + formOffset o) 4 p = some e) :
    loadWord rs rt o s p = raise e s p := by
  have hread : memReadWord (accessAddress rs o s) s p = .error e := by
    simp [memReadWord, accessAddress, effectiveAddress, h]
  rw [loadWord, hread, writeRegOrRaise_error]

/-- A store to a valid address replaces the word there (R185). -/
theorem storeWord_valid (h : accessError (s.x rs + formOffset o) 4 p = none) :
    storeWord rs rt o s p = s.setMem (s.mem.writeWord (u32 (s.x rs + formOffset o)) (s.x rt)) := by
  simp [storeWord, memWriteWord, accessAddress, effectiveAddress, h]

/-- A store that is an error raises it and does nothing else (R245). -/
theorem storeWord_error {e : MachineError} (h : accessError (s.x rs + formOffset o) 4 p = some e) :
    storeWord rs rt o s p = raise e s p := by
  simp [storeWord, memWriteWord, accessAddress, effectiveAddress, h]

end wordAccess

section cycle

variable {run : Instr → State → Host.Outcome State Fault Refusal} {s t : State} {p : Parameters} {addr w : Word}

/-- A running machine that has fetched a word executes it, its `PC` advanced (R28). -/
theorem stepWith_of_fetch (hs : s.status = .running) (hf : fetch s p = .ok w) :
    stepWith p s = execute (execWith p) s.pc w (advance w s) p := by
  simp [stepWith, stepOf, cycle, hs, hf]

/-- A word that decodes to an instruction is executed as that instruction (R28). -/
theorem execute_of_decode {i : Instr} (hd : decodeWith p.fieldOrder w = .ok i)
    (hr : run i (traceInstruction addr i s) = .next t) : execute run addr w s p = .next (endCycle t p) := by
  simp [execute, finish, hd, hr]

/-- A word that decodes to none is `IllegalInstruction` (R244, R97). -/
theorem execute_of_decode_error {e : DecodeError} (hd : decodeWith p.fieldOrder w = .error e) :
    execute run addr w s p = .next (traceAfter (raise (.illegalInstruction w addr) s p)) := by
  rw [execute, hd]

end cycle

/-- `DIV_OVERFLOW` decides the quotient `-2^31 / -1` (R114). -/
theorem execDiv_overflow {rs rt : Reg} {s : State} (hn : s32 (s.x rs) = -2147483648) (hm : s32 (s.x rt) = -1)
    (p : Parameters) :
    (p.divOverflow = .wrap → execDiv rs rt s p = .next (s.setHiLo 0 0x80000000)) ∧
    (p.divOverflow = .fault → execDiv rs rt s p = .next (raise (.integerOverflow (s.pc - 4)) s p)) := by
  have hm0 : s.x rt ≠ 0 := fun h0 => by simp [h0] at hm
  have hover : overflowDiv (s.x rs) (s.x rt) = true := decide_eq_true ⟨hn, hm⟩
  constructor <;> intro hp <;> simp only [execDiv, if_neg hm0, if_pos hover, hp, instructionAddress]

/-- `FDIV` is an error for a zero divisor under `FDIV_BY_ZERO = fault` and for nothing else (R135). -/
theorem fdivFaults_iff (v : Word) (p : Parameters) :
    fdivFaults v p = true ↔ p.fdivByZero = .fault ∧ p.numerics.isZero v = true := by
  unfold fdivFaults
  cases p.fdivByZero <;> simp

section floatAndInput

variable {rs rt rd : Reg} {s : State} {p : Parameters}

/-- A quotient that is no error is the numerics' own (R135). -/
theorem execFdiv_quotient (h : p.fdivByZero = .ieee ∨ p.numerics.isZero (s.x rt) = false) :
    execFdiv rs rt rd s p = .next (writeFloat rd (p.numerics.div (s.x rs) (s.x rt)) s p) := by
  refine if_neg fun hfaults => ?_
  obtain ⟨hfault, hzero⟩ := (fdivFaults_iff _ _).mp hfaults
  simp [hfault, hzero] at h

/-- A division by zero under `FDIV_BY_ZERO = fault` (R135). -/
theorem execFdiv_fault (hfault : p.fdivByZero = .fault) (hzero : p.numerics.isZero (s.x rt) = true) :
    execFdiv rs rt rd s p = .next (raise (.divideByZero (s.pc - 4)) s p) :=
  if_pos ((fdivFaults_iff _ _).mpr ⟨hfault, hzero⟩)

/-- An operand with an integer in range is rounded to it as `RND_MODE` has it (R137). -/
theorem execRnd_some {v : Word} (h : p.numerics.toIntRounded p.rndMode (s.x rt) = some v) :
    execRnd rt rd s p = .next (writeReg rd v s p) := by
  simp only [execRnd, h]

/-- An operand without one under `RND_OUT_OF_RANGE = fault` (R137). -/
theorem execRnd_none_fault (h : p.numerics.toIntRounded p.rndMode (s.x rt) = none) (hp : p.rndOutOfRange = .fault) :
    execRnd rt rd s p = .next (raise (.floatToIntRange (s.pc - 4)) s p) := by
  simp only [execRnd, h, hp, instructionAddress]

/-- An operand without one under `RND_OUT_OF_RANGE = any_value` (R137). -/
theorem execRnd_none_anyValue (h : p.numerics.toIntRounded p.rndMode (s.x rt) = none)
    (hp : p.rndOutOfRange = .anyValue) : execRnd rt rd s p = .next (writeDraw rd s p) := by
  simp only [execRnd, h, hp]

/-- A draw written to a register other than register 0 (R137). -/
theorem writeDraw_of_ne (h : rd ≠ 0) :
    writeDraw rd s p = { s with draws := s.draws + 1 }.setReg rd (Config.freeWord s.draws) :=
  writeReg_of_ne h _ _ _

/-- `RCH` at the end of input gives `EOF_VALUE` (R213); `$v0` is not register 0. -/
theorem execRch_eof (h : s.stdin = []) : execRch s p = .next (s.setReg 2 p.eofValue) := by
  simp only [execRch, h]
  rfl

/-- `RFLT` on a number: its datum (R215). -/
theorem execRflt_datum {v : Word} {rest : List Byte} (h : p.parseFloat s.stdin = (.datum v, rest)) :
    execRflt s p = .next ({ s with stdin := rest }.setReg 2 v) := by
  simp only [execRflt, h]
  rfl

/-- `RFLT` on `nan`: a NaN made from a draw (R215, R140). -/
theorem execRflt_nan {rest : List Byte} (h : p.parseFloat s.stdin = (.nan, rest)) :
    execRflt s p = .next ({ s with stdin := rest, draws := s.draws + 1 }.setReg 2
      (nanOfFree (Config.freeWord s.draws))) := by
  simp only [execRflt, h]
  rfl

/-- `RFLT` where nothing is read: a draw (R215). -/
theorem execRflt_nothing {rest : List Byte} (h : p.parseFloat s.stdin = (.nothing, rest)) :
    execRflt s p = .next ({ s with stdin := rest, draws := s.draws + 1 }.setReg 2 (Config.freeWord s.draws)) := by
  simp only [execRflt, h]
  rfl

end floatAndInput

/-- The header's six fields are read one after the other by `BOF_WORD`, then the two sections (R271, R272). -/
theorem Bof.parse_of_bofWord {p : Parameters} {bs bs1 bs2 bs3 bs4 bs5 rest : List Byte}
    {textStart textLength dataStart intsLength floatsLength stackBottom : Word}
    (h1 : p.bofWord bs = some (textStart, bs1)) (h2 : p.bofWord bs1 = some (textLength, bs2))
    (h3 : p.bofWord bs2 = some (dataStart, bs3)) (h4 : p.bofWord bs3 = some (intsLength, bs4))
    (h5 : p.bofWord bs4 = some (floatsLength, bs5)) (h6 : p.bofWord bs5 = some (stackBottom, rest)) :
    Bof.parse (magicBytes ++ bs) p = .ok
      { textStart, textLength, dataStart, intsLength, floatsLength, stackBottom,
        text := rest.take (u32 textLength),
        data := (rest.drop (u32 textLength)).take (u32 intsLength + u32 floatsLength) } := by
  have hmagic : (magicBytes ++ bs).take 4 = magicBytes := rfl
  have hrest : (magicBytes ++ bs).drop 4 = bs := rfl
  simp [Bof.parse, parseHeader, hmagic, hrest, h1, h2, h3, h4, h5, h6]

/-- Settles O60: clause by clause, each instruction is its shared operation under the record's parameters, and the
operation's lemma says what the parameter decides. -/
theorem parametersDecideTheirCases : Obligations.ParametersDecideTheirCases := by
  unfold Obligations.ParametersDecideTheirCases
  intro p s rs rt rd h o
  refine ⟨fun i => execWith_default i s, stepWith_default s, Parameters.default_allowed, fieldsOf_msbFirst_toNat,
    fieldsOf_lsbFirst_toNat, fun _ => rfl, fun _ => decodeWith_encodeWith p.fieldOrder, ?step, fun _ => rfl, ?r0Write,
    ?misaligned, ?intOverflow, fun hn hm => execDiv_overflow hn hm p, ?float, ?floatBranches, ?fdiv,
    execFdiv_fault, ?rnd, ?rndOutOfRange, execRch_eof, ?print, fun _ _ => execRflt_datum, ?readDraw,
    fun _ _ _ _ _ _ _ _ _ _ _ _ _ => Bof.parse_of_bofWord⟩
  case step =>
    intro w hs hf
    rw [stepWith_of_fetch hs hf]
    exact ⟨fun _ _ hd hx => execute_of_decode hd hx, fun _ hd => execute_of_decode_error hd⟩
  case r0Write =>
    intro iv hiv
    have hexec : execWith p iv.1 s = .next (writeReg 0 iv.2 s p) := by fin_cases hiv <;> rfl
    rw [hexec]
    exact ⟨fun hp => congrArg _ (writeReg_zero_of_discard iv.2 s hp),
      fun hp hv => congrArg _ (writeReg_zero_of_ne hv s hp)⟩
  case misaligned =>
    intro hr
    refine ⟨fun hp => ?_, fun hp ha i hi => ?_⟩
    · have hvalid := accessError_split hr hp
      refine ⟨fun i hi => ?_, fun i hi => ?_⟩
      · have hexec : execWith p i s = .next (loadWord rs rt o s p) := by fin_cases hi <;> rfl
        rw [hexec, loadWord_valid hvalid]
        exact answersWrite_writeReg rt _ s p
      · have hexec : execWith p i s = .next (storeWord rs rt o s p) := by fin_cases hi <;> rfl
        rw [hexec, storeWord_valid hvalid]
        exact ⟨_, rfl, fun _ hk => Memory.read_writeWord_inside _ _ _ hk,
          fun _ ha => Memory.read_writeWord_outside _ _ ha⟩
    · have herror := accessError_misaligned hr ha hp
      fin_cases hi
      · exact congrArg _ (loadWord_error herror)
      · exact congrArg _ (loadWord_error herror)
      · exact congrArg _ (storeWord_error herror)
      · exact congrArg _ (storeWord_error herror)
  case intOverflow =>
    intro ivd hivd
    have hexec : execWith p ivd.1 s = .next (writeSum ivd.2.2.2 ivd.2.1 ivd.2.2.1 s p) := by
      fin_cases hivd <;> rfl
    obtain ⟨hwrap, hfault⟩ := writeSum_decides ivd.2.2.2 ivd.2.2.1 s p ivd.2.1
    rw [hexec]
    exact ⟨hwrap, fun hp ho => congrArg _ (hfault hp ho)⟩
  case float =>
    exact ⟨answersFloat_writeFloat rd s p _, answersFloat_writeFloat rd s p _, answersFloat_writeFloat rd s p _,
      answersWrite_writeReg rd _ s p⟩
  case floatBranches =>
    intro ic hic
    have hexec : execWith p ic.1 s = .next (branchIf ic.2 o s) := by fin_cases hic <;> rfl
    rw [hexec, branchIf_eq_setPc]
    rfl
  case fdiv =>
    intro hp
    rw [execWith, execFdiv_quotient hp]
    exact answersFloat_writeFloat rd s p _
  case rnd =>
    intro v hv
    rw [execWith, execRnd_some hv]
    exact answersWrite_writeReg rd v s p
  case rndOutOfRange =>
    intro hv
    refine ⟨execRnd_none_fault hv, fun hp hd => ⟨Config.freeWord s.draws, ?_⟩⟩
    rw [execWith, execRnd_none_anyValue hv hp, writeDraw_of_ne hd]
  case print =>
    intro it hit
    have hexec : execWith p it.1 s = .next (printText it.2 s p) := by fin_cases hit <;> rfl
    rw [hexec, printText_eq]
    rfl
  case readDraw =>
    rintro rest (hnan | hnothing)
    · exact ⟨_, execRflt_nan hnan⟩
    · exact ⟨_, execRflt_nothing hnothing⟩

end Sys2Proof.Machine
end

