-- ==== Sys2Proof/Proofs/Updates.lean ====
section
/-! SUPPORT. What every instruction and every step does to the state: quiet updates, then at most one end, an error or the
normal one (spec R28, R240, R246); and statements O14, O13, O22 and O10. -/

namespace Sys2Proof.Machine

/-! ## Updates that are no error -/

/-- `t` is `s` after updates that raise nothing and halt nothing: the memory's canonical form and register 0's storage are
kept, output is only appended, input only consumed, and no message and no halt is added. -/
structure QuietUpdate (s t : State) : Prop where
  /-- A canonical memory stays canonical. -/
  memory : s.mem.wf → t.mem.wf
  /-- Register 0's storage is untouched (R23). -/
  zero : t.regs[(0 : Reg)] = s.regs[(0 : Reg)]
  /-- Output is only appended (R205). -/
  stdout : s.stdout <+: t.stdout
  /-- Input is only consumed (R205). -/
  stdin : t.stdin <:+ s.stdin
  /-- No message is added. -/
  stderr : t.stderr = s.stderr
  /-- The machine does not halt. -/
  status : t.status = s.status

namespace QuietUpdate

variable {s t u : State}

theorem refl (s : State) : QuietUpdate s s :=
  ⟨id, rfl, List.prefix_rfl, List.suffix_rfl, rfl, rfl⟩

theorem trans (h : QuietUpdate s t) (h' : QuietUpdate t u) : QuietUpdate s u :=
  ⟨h'.memory ∘ h.memory, h'.zero.trans h.zero, h.stdout.trans h'.stdout, h'.stdin.trans h.stdin,
    h'.stderr.trans h.stderr, h'.status.trans h.status⟩

theorem setPc (s : State) (target : Word) : QuietUpdate s (s.setPc target) :=
  ⟨id, rfl, List.prefix_rfl, List.suffix_rfl, rfl, rfl⟩

theorem setHiLo (s : State) (hi lo : Word) : QuietUpdate s (s.setHiLo hi lo) :=
  ⟨id, rfl, List.prefix_rfl, List.suffix_rfl, rfl, rfl⟩

theorem setTracing (s : State) (on : Bool) : QuietUpdate s (s.setTracing on) :=
  ⟨id, rfl, List.prefix_rfl, List.suffix_rfl, rfl, rfl⟩

theorem nextDraw (s : State) : QuietUpdate s s.nextDraw :=
  ⟨id, rfl, List.prefix_rfl, List.suffix_rfl, rfl, rfl⟩

theorem advance (s : State) (ir : Word) : QuietUpdate s (advance ir s) :=
  ⟨id, rfl, List.prefix_rfl, List.suffix_rfl, rfl, rfl⟩

theorem emit (s : State) (items : List OutItem) : QuietUpdate s (s.emit items) :=
  ⟨id, rfl, List.prefix_append _ _, List.suffix_rfl, rfl, rfl⟩

theorem outBytes (s : State) (bs : List Byte) : QuietUpdate s (outBytes bs s) := emit s _

theorem setStdin {bs : List Byte} (h : bs <:+ s.stdin) : QuietUpdate s (s.setStdin bs) :=
  ⟨id, rfl, List.prefix_rfl, h, rfl, rfl⟩

theorem setMem {m : Memory} (h : s.mem.wf → m.wf) : QuietUpdate s (s.setMem m) :=
  ⟨h, rfl, List.prefix_rfl, List.suffix_rfl, rfl, rfl⟩

theorem setReg (s : State) {d : Reg} (hd : d ≠ 0) (v : Word) : QuietUpdate s (s.setReg d v) := by
  refine ⟨id, ?_, List.prefix_rfl, List.suffix_rfl, rfl, rfl⟩
  have hne : (d : Nat) ≠ 0 := fun h => hd (Fin.ext h)
  simp [hne]

theorem traceInstruction (addr : Word) (i : Instr) (s : State) : QuietUpdate s (traceInstruction addr i s) := by
  obtain ⟨ts, ht⟩ := traceInstruction_eq_emit addr i s
  exact ht ▸ emit s _

end QuietUpdate

/-! ## Updates with their end -/

/-- What an instruction or a step makes of a state: a quiet update, and on it at most one end, an error or the normal one
(R240, R246). -/
inductive Update (s : State) : State → Prop where
  /-- No end: the machine goes on as it was. -/
  | quiet {t : State} (h : QuietUpdate s t) : Update s t
  /-- An error. -/
  | error {u : State} (h : QuietUpdate s u) (e : MachineError) : Update s (raise e u)
  /-- The normal end (R207). -/
  | exit {u : State} (h : QuietUpdate s u) : Update s (haltNormally u)

namespace Update

variable {s t u : State}

/-- A quiet update comes before an update. -/
theorem after (h : QuietUpdate s t) (h' : Update t u) : Update s u := by
  cases h' with
  | quiet h' => exact .quiet (h.trans h')
  | error h' e => exact .error (h.trans h') e
  | exit h' => exact .exit (h.trans h')

theorem raise (s : State) (e : MachineError) : Update s (raise e s) := .error (QuietUpdate.refl s) e

/-- What is traced after the end changes nothing of the end (R224). -/
theorem traceAfter (h : Update s t) : Update s (traceAfter t) := by
  obtain ⟨ts, ht⟩ := traceAfter_eq_emit t
  rw [ht]
  cases h with
  | quiet h => exact .quiet (h.trans (QuietUpdate.emit t _))
  | @error u h e => exact .error (h.trans (QuietUpdate.emit u _)) e
  | @exit u h => exact .exit (h.trans (QuietUpdate.emit u _))

/-- The invariant check adds an error only where there is no end yet (R243). -/
theorem checkInvariants (h : Update s t) : Update s (checkInvariants t) := by
  rcases checkInvariants_cases t .default with hc | ⟨k, hrun, _, hc⟩ <;> rw [hc]
  · exact h
  · cases h with
    | quiet h => exact .error h _
    | error _ e => cases hrun
    | exit _ => cases hrun

theorem endCycle (h : Update s t) : Update s (endCycle t) := h.checkInvariants.traceAfter

/-- Register 0's storage is kept, whatever the end. -/
theorem zero (h : Update s t) : t.regs[(0 : Reg)] = s.regs[(0 : Reg)] := by
  cases h with
  | quiet h | error h _ | exit h => exact h.zero

/-- The memory's canonical form is kept, whatever the end. -/
theorem memory (h : Update s t) (hwf : s.mem.wf) : t.mem.wf := by
  cases h with
  | quiet h | error h _ | exit h => exact h.memory hwf

/-- Output is appended and input consumed, whatever the end. -/
theorem streams (h : Update s t) : s.stdout <+: t.stdout ∧ t.stdin <:+ s.stdin := by
  cases h with
  | quiet h | error h _ | exit h => exact ⟨h.stdout, h.stdin⟩

/-- At most one message is added, by an error (R248). -/
theorem stderr (h : Update s t) : t.stderr = s.stderr ∨ ∃ e, t.stderr = s.stderr ++ [e] := by
  cases h with
  | quiet h | exit h => exact .inl h.stderr
  | error h e => exact .inr ⟨e, by simp [h.stderr]⟩

theorem writeReg (d : Reg) (v : Word) (s : State) : Update s (writeReg d v s) := by
  rcases writeReg_cases d v s .default with ⟨hd, h⟩ | ⟨_, _, h⟩ | ⟨_, _, _, h⟩ <;> rw [h]
  · exact .quiet (QuietUpdate.setReg s hd v)
  · exact .quiet (QuietUpdate.refl s)
  · exact .raise s _

theorem memWriteByte (addr : Word) (b : Byte) (s : State) : Update s (memWriteByte addr b s) := by
  rcases memWriteByte_cases addr b s .default with ⟨hvalid, h⟩ | ⟨e, _, h⟩ <;> rw [h]
  · exact .quiet (QuietUpdate.setMem fun hwf => Memory.wf_write b hwf ((accessError_byte addr _).mp hvalid))
  · exact .raise s e

theorem memWriteWord (addr v : Word) (s : State) : Update s (memWriteWord addr v s) := by
  rcases memWriteWord_cases addr v s .default with ⟨hvalid, h⟩ | ⟨e, _, h⟩ <;> rw [h]
  · exact .quiet (QuietUpdate.setMem fun hwf => Memory.wf_writeWord v hwf ((accessError_word addr _).mp hvalid).1)
  · exact .raise s e

theorem branchIf (c : Bool) (o : BitVec 16) (s : State) : Update s (branchIf c o s) := by
  rw [branchIf_eq_setPc]
  exact .quiet (QuietUpdate.setPc s _)

theorem printText (text : List Byte) (s : State) : Update s (printText text s) :=
  .after (QuietUpdate.outBytes s text) (writeReg _ _ _)

end Update

/-! ## What each instruction that decides something can answer -/

section cases

variable (rs rt rd : Reg) (s : State)

/-- `DIV` raises or writes `HI` and `LO` (R114). -/
theorem execDiv_cases :
    (∃ e, execDiv rs rt s = .next (raise e s)) ∨ ∃ hi lo, execDiv rs rt s = .next (s.setHiLo hi lo) := by
  unfold execDiv
  dsimp only
  split
  · exact .inl ⟨_, rfl⟩
  · split
    · exact .inl ⟨_, rfl⟩
    · exact .inr ⟨_, _, rfl⟩

/-- `FDIV` raises or writes a floating-point result (R135). -/
theorem execFdiv_cases :
    (∃ e, execFdiv rs rt rd s = .next (raise e s)) ∨ ∃ r, execFdiv rs rt rd s = .next (writeFloat rd r s) := by
  unfold execFdiv
  split
  · exact .inl ⟨_, rfl⟩
  · exact .inr ⟨_, rfl⟩

/-- `RND` raises or writes an integer (R137). -/
theorem execRnd_cases :
    (∃ e, execRnd rt rd s = .next (raise e s)) ∨ ∃ v, execRnd rt rd s = .next (writeReg rd v s) := by
  unfold execRnd
  split
  · exact .inr ⟨_, rfl⟩
  · exact .inl ⟨_, rfl⟩

/-- `PSTR` prints its text, or a part of it and then raises (R209). -/
theorem execPstr_cases :
    (∃ text, execPstr s = .next (printText text s)) ∨
    ∃ bs e, execPstr s = .next (raise e (outBytes bs s).nextDraw) := by
  unfold execPstr
  dsimp only
  split
  · exact .inl ⟨_, rfl⟩
  · exact .inr ⟨_, _, rfl⟩

/-- `RCH` consumes at most its byte and writes `$v0` (R213). -/
theorem execRch_eq : ∃ v, execRch s = .next ((s.setStdin s.stdin.tail).setReg Reg.v0 v) := by
  cases hin : s.stdin with
  | nil =>
    have hleft : s.setStdin [] = s := hin ▸ rfl
    refine ⟨Parameters.default.eofValue, (execRch_eof hin).trans ?_⟩
    rw [List.tail_nil, hleft]
  | cons c rest => exact ⟨zeroExtByte c, by unfold execRch; simp only [hin]; rfl⟩

/-- `RFLT` consumes what `ParseFloat` does, draws at most one free value, and writes `$v0` (R215). -/
theorem execRflt_eq :
    ∃ u v, (u = s ∨ u = s.nextDraw) ∧
      execRflt s = .next ((u.setStdin (parseFloat s.stdin).2).setReg Reg.v0 v) := by
  cases hr : parseFloat s.stdin with
  | mk r rest =>
    cases r with
    | datum v => exact ⟨s, v, .inl rfl, execRflt_datum hr⟩
    | nan => exact ⟨s.nextDraw, _, .inr rfl, execRflt_nan hr⟩
    | nothing => exact ⟨s.nextDraw, _, .inr rfl, execRflt_nothing hr⟩

end cases

/-- The bytes a scan leaves are an end part of those it was given (R215). -/
theorem Scan.run_suffix (c : Scan) (bs : List Byte) : (c.run bs).2 <:+ bs := by
  induction bs generalizing c with
  | nil => exact List.suffix_rfl
  | cons b rest ih =>
    unfold Scan.run
    split
    · exact (ih _).trans (List.suffix_cons b rest)
    · exact List.suffix_rfl

/-- `ParseFloat` only consumes input (R215). -/
theorem parseFloat_suffix (bs : List Byte) : (parseFloat bs).2 <:+ bs :=
  (Scan.run_suffix _ _).trans (List.dropWhile_suffix _)

/-! ## What every instruction does -/

/-- Every instruction answers a next state in every state (R28, R240). -/
theorem exec_total (i : Instr) (s : State) : ∃ t, exec i s = .next t := by
  cases i with
  | div rs rt => rcases execDiv_cases rs rt s with ⟨e, h⟩ | ⟨hi, lo, h⟩ <;> exact ⟨_, h⟩
  | fdiv rs rt rd => rcases execFdiv_cases rs rt rd s with ⟨e, h⟩ | ⟨r, h⟩ <;> exact ⟨_, h⟩
  | rnd rt rd => rcases execRnd_cases rt rd s with ⟨e, h⟩ | ⟨v, h⟩ <;> exact ⟨_, h⟩
  | pstr => rcases execPstr_cases s with ⟨text, h⟩ | ⟨bs, e, h⟩ <;> exact ⟨_, h⟩
  | rch =>
    obtain ⟨v, h⟩ := execRch_eq s
    exact ⟨_, h⟩
  | rflt =>
    obtain ⟨u, v, _, h⟩ := execRflt_eq s
    exact ⟨_, h⟩
  | _ => exact ⟨_, rfl⟩

/-- `t` is what an instruction with destination `d` makes of `s`: one register write or one error, before it at most one
draw (R23, R110, R140, R245). -/
def WritesOrRaises (d : Reg) (s t : State) : Prop :=
  ∃ u, (u = s ∨ u = s.nextDraw) ∧ ((∃ v, t = writeReg d v u) ∨ ∃ e, t = raise e u)

section writesOrRaises

variable (d : Reg) (s : State)

theorem writesOrRaises_writeReg (v : Word) : WritesOrRaises d s (writeReg d v s) := ⟨s, .inl rfl, .inl ⟨v, rfl⟩⟩

theorem writesOrRaises_raise (e : MachineError) : WritesOrRaises d s (raise e s) := ⟨s, .inl rfl, .inr ⟨e, rfl⟩⟩

theorem writesOrRaises_writeFloat (r : Option Word) : WritesOrRaises d s (writeFloat d r s) := by
  cases r with
  | some v => exact writesOrRaises_writeReg d s v
  | none => exact ⟨s.nextDraw, .inr rfl, .inl ⟨_, rfl⟩⟩

theorem writesOrRaises_writeRegOrRaise (r : Except MachineError Word) :
    WritesOrRaises d s (writeRegOrRaise d r s) := by
  cases r with
  | ok v => exact writesOrRaises_writeReg d s v
  | error e => exact writesOrRaises_raise d s e

end writesOrRaises

/-- The 23 instructions with a destination register write it or raise, and do nothing else (Tables 3 and 4). -/
theorem exec_writesOrRaises {i : Instr} {d : Reg} {s t : State} (hd : destination i = some d)
    (h : exec i s = .next t) : WritesOrRaises d s t := by
  cases i with
  | add | sub | addi | and | bor | nor | xor | andi | bori | xori | sll | srl | cvt | mfhi | mflo =>
    cases hd; cases h
    exact writesOrRaises_writeReg d s _
  | fadd | fsub | fmul =>
    cases hd; cases h
    exact writesOrRaises_writeFloat d s _
  | lbu | lw | flw =>
    cases hd; cases h
    exact writesOrRaises_writeRegOrRaise d s _
  | fdiv rs rt rd =>
    cases hd
    rcases execFdiv_cases rs rt d s with ⟨e, hx⟩ | ⟨r, hx⟩ <;> cases hx.symm.trans h
    · exact writesOrRaises_raise d s e
    · exact writesOrRaises_writeFloat d s r
  | rnd rt rd =>
    cases hd
    rcases execRnd_cases rt d s with ⟨e, hx⟩ | ⟨v, hx⟩ <;> cases hx.symm.trans h
    · exact writesOrRaises_raise d s e
    · exact writesOrRaises_writeReg d s v
  | _ => cases hd

theorem WritesOrRaises.update {d : Reg} {s t : State} (h : WritesOrRaises d s t) : Update s t := by
  obtain ⟨u, hu, ht⟩ := h
  have hsu : QuietUpdate s u := by
    rcases hu with rfl | rfl
    · exact QuietUpdate.refl u
    · exact QuietUpdate.nextDraw s
  rcases ht with ⟨v, rfl⟩ | ⟨e, rfl⟩
  · exact .after hsu (.writeReg d v u)
  · exact .error hsu e

/-- Every instruction makes a quiet update of the state, with at most one end. -/
theorem exec_update {i : Instr} {s t : State} (h : exec i s = .next t) : Update s t := by
  cases i with
  | mul => cases h; exact .quiet (QuietUpdate.setHiLo s _ _)
  | div rs rt =>
    rcases execDiv_cases rs rt s with ⟨e, hx⟩ | ⟨hi, lo, hx⟩ <;> cases hx.symm.trans h
    · exact .raise s e
    · exact .quiet (QuietUpdate.setHiLo s hi lo)
  | jr | jmp => cases h; exact .quiet (QuietUpdate.setPc s _)
  | jal => cases h; exact .quiet ((QuietUpdate.setReg s (by decide) s.pc).trans (QuietUpdate.setPc _ _))
  | exit => cases h; exact .exit (QuietUpdate.refl s)
  | pstr =>
    rcases execPstr_cases s with ⟨text, hx⟩ | ⟨bs, e, hx⟩ <;> cases hx.symm.trans h
    · exact .printText text s
    · exact .error ((QuietUpdate.outBytes s bs).trans (QuietUpdate.nextDraw _)) e
  | pint | pflt => cases h; exact .printText _ s
  | pch => cases h; exact .after (QuietUpdate.outBytes s _) (.writeReg _ _ _)
  | rch =>
    obtain ⟨v, hx⟩ := execRch_eq s
    cases hx.symm.trans h
    exact .quiet ((QuietUpdate.setStdin (List.tail_suffix _)).trans (QuietUpdate.setReg _ (by decide) v))
  | rflt =>
    obtain ⟨u, v, rfl | rfl, hx⟩ := execRflt_eq s <;> cases hx.symm.trans h
    · exact .quiet ((QuietUpdate.setStdin (parseFloat_suffix _)).trans (QuietUpdate.setReg _ (by decide) v))
    · exact .quiet ((QuietUpdate.nextDraw s).trans
        ((QuietUpdate.setStdin (parseFloat_suffix _)).trans (QuietUpdate.setReg _ (by decide) v)))
  | stra | notr => cases h; exact .quiet (QuietUpdate.setTracing s _)
  | beq | bgez | bgtz | blez | bltz | bne | bfeq | bfgz | bfgtz | bflez | bfltz | bfne => cases h; exact .branchIf _ _ s
  | sb => cases h; exact .memWriteByte _ _ s
  | sw | fsw => cases h; exact .memWriteWord _ _ s
  | _ => exact (exec_writesOrRaises rfl h).update

/-! ## What every step does -/

/-- Every step makes a quiet update of the state, with at most one end. -/
theorem step_update {s t : State} (h : step s = .next t) : Update s t := by
  obtain ⟨_, ⟨e, _, rfl⟩ | ⟨ir, _, ⟨e, _, rfl⟩ | ⟨i, u, _, hu, rfl⟩⟩⟩ := step_cases h
  · exact (Update.raise s e).traceAfter
  · exact (Update.error (QuietUpdate.advance s ir) _).traceAfter
  · have htraced := (QuietUpdate.advance s ir).trans (QuietUpdate.traceInstruction s.pc i _)
    exact (Update.after htraced (exec_update hu)).endCycle

/-- A machine that still runs after a step violates no invariant (R243). -/
theorem step_boundary {s t : State} (h : step s = .next t) (hrun : t.status = .running) : firstViolated t = none := by
  obtain ⟨_, ⟨e, _, rfl⟩ | ⟨ir, _, ⟨e, _, rfl⟩ | ⟨i, u, _, hu, rfl⟩⟩⟩ := step_cases h
  · cases hrun
  · cases hrun
  · exact firstViolated_endCycle hrun

/-- A running machine always has a next step (R28, R240). -/
theorem step_total {s : State} (hrun : s.status = .running) : ∃ t, step s = .next t := by
  rw [← stepWith_default]
  cases hf : fetch s with
  | error e => exact ⟨traceAfter (raise e s), by simp [stepWith, stepOf, cycle, hrun, hf]⟩
  | ok w =>
    rw [stepWith_of_fetch hrun hf]
    cases hd : decode w with
    | error e => exact ⟨_, execute_of_decode_error hd⟩
    | ok i =>
      obtain ⟨t, ht⟩ := exec_total i (traceInstruction s.pc i (advance w s))
      exact ⟨_, execute_of_decode hd ((execWith_default i _).trans ht)⟩

/-- Settles O14: the end of the cycle sees to the boundary, and no update touches what else is sound. -/
theorem everyStepKeepsTheStateSound : Obligations.EveryStepKeepsTheStateSound :=
  fun _ _ hs h => ⟨(step_update h).memory hs.memory, (step_update h).zero.trans hs.zero, step_boundary h⟩

/-- Settles O13: every instruction answers a next state, and the cycle around it adds no way to stop. -/
theorem aRunningMachineAlwaysSteps : Obligations.ARunningMachineAlwaysSteps :=
  ⟨exec_total, fun _ => step_total⟩

/-- Settles O22: a step's update keeps the streams so, whatever its end. -/
theorem stepsAppendOutputAndConsumeInput : Obligations.StepsAppendOutputAndConsumeInput := by
  intro s t h
  obtain ⟨hout, hin⟩ := (step_update h).streams
  exact ⟨hout, hin, (step_update h).stderr⟩

/-- Settles O10: the cycle at the default parameters, read off for a fetch and a decode that succeed. -/
theorem stepRunsTheDecodedInstruction : Obligations.StepRunsTheDecodedInstruction := by
  intro s t w i hrun hf hd hx
  rw [← stepWith_default, stepWith_of_fetch hrun hf]
  exact execute_of_decode hd ((execWith_default i _).trans hx)

end Sys2Proof.Machine
end

