-- ==== Sys2Proof/Proofs/InvariantOrder.lean ====
section
/-! SUPPORT. The invariants as the unsigned conditions of R34 and in their order, and statement O18. -/

namespace Sys2Proof.Machine

/-! ## The invariants -/

/-- The signed value of a word is its unsigned one, or, with the top bit set, `2^32` less (R11). -/
theorem s32_cases (v : Word) :
    (u32 v < 2147483648 ∧ s32 v = u32 v) ∨ (2147483648 ≤ u32 v ∧ u32 v < 4294967296 ∧ s32 v = u32 v - 4294967296) := by
  have h := BitVec.toInt_eq_toNat_cond v
  unfold u32 s32
  split at h
  · exact .inl ⟨by omega, h⟩
  · exact .inr ⟨by omega, v.isLt, h⟩

/-- The check passes exactly when every invariant holds (R243). -/
theorem firstViolated_eq_none_iff (s : State) : firstViolated s = none ↔ ∀ k, Invariant.holds k s = true := by
  have hall : ∀ k : Invariant, k ∈ allInvariants := by intro k; cases k <;> decide
  simp [firstViolated, List.find?_eq_none, hall]

/-- The check looks at the invariants one after the other (R243). -/
theorem find?_violated_cons (k : Invariant) (ks : List Invariant) (s : State) :
    ((k :: ks).find? fun j => !j.holds s) = if k.holds s = true then ks.find? fun j => !j.holds s else some k := by
  rw [List.find?_cons]
  cases k.holds s <;> rfl

/-- All eleven invariants, register 0 among them, as the unsigned conditions of R34. -/
theorem firstViolated_eq_none_iff_unsigned (s : State) : firstViolated s = none ↔
    s.regs[(0 : Reg)] = 0 ∧ u32 s.pc % 4 = 0 ∧ u32 s.pc ≤ 65528 ∧
    u32 (s.x Reg.gp) % 4 = 0 ∧ u32 (s.x Reg.sp) % 4 = 0 ∧ u32 (s.x Reg.fp) % 4 = 0 ∧
    u32 (s.x Reg.gp) < u32 (s.x Reg.sp) ∧ u32 (s.x Reg.sp) ≤ u32 (s.x Reg.fp) ∧ u32 (s.x Reg.fp) ≤ 65528 := by
  have hpc := s32_cases s.pc
  have hgp := s32_cases (s.x Reg.gp)
  have hsp := s32_cases (s.x Reg.sp)
  have hfp := s32_cases (s.x Reg.fp)
  rw [firstViolated_eq_none_iff]
  constructor
  · intro h
    have hpc4 : u32 s.pc % 4 = 0 := of_decide_eq_true (h .pcAligned)
    have hgp4 : u32 (s.x Reg.gp) % 4 = 0 := of_decide_eq_true (h .gpAligned)
    have hsp4 : u32 (s.x Reg.sp) % 4 = 0 := of_decide_eq_true (h .spAligned)
    have hfp4 : u32 (s.x Reg.fp) % 4 = 0 := of_decide_eq_true (h .fpAligned)
    have hgp0 : 0 ≤ s32 (s.x Reg.gp) := of_decide_eq_true (h .gpNonneg)
    have hgpsp : s32 (s.x Reg.gp) < s32 (s.x Reg.sp) := of_decide_eq_true (h .gpBelowSp)
    have hspfp : s32 (s.x Reg.sp) ≤ s32 (s.x Reg.fp) := of_decide_eq_true (h .spAtMostFp)
    have hfpIn : s32 (s.x Reg.fp) < 65532 := of_decide_eq_true (h .fpInMemory)
    have hpc0 : 0 ≤ s32 s.pc := of_decide_eq_true (h .pcNonneg)
    have hpcIn : s32 s.pc < 65532 := of_decide_eq_true (h .pcInMemory)
    exact ⟨of_decide_eq_true (h .zeroRegister), hpc4, by omega, hgp4, hsp4, hfp4, by omega, by omega, by omega⟩
  · rintro ⟨hzero, hpc4, hpcIn, hgp4, hsp4, hfp4, hgpsp, hspfp, hfpIn⟩ k
    cases k with
    | pcAligned => exact decide_eq_true hpc4
    | gpAligned => exact decide_eq_true hgp4
    | spAligned => exact decide_eq_true hsp4
    | fpAligned => exact decide_eq_true hfp4
    | zeroRegister => exact decide_eq_true hzero
    | gpNonneg => exact decide_eq_true (show 0 ≤ s32 (s.x Reg.gp) by omega)
    | gpBelowSp => exact decide_eq_true (show s32 (s.x Reg.gp) < s32 (s.x Reg.sp) by omega)
    | spAtMostFp => exact decide_eq_true (show s32 (s.x Reg.sp) ≤ s32 (s.x Reg.fp) by omega)
    | fpInMemory => exact decide_eq_true (show s32 (s.x Reg.fp) < 65532 by omega)
    | pcNonneg => exact decide_eq_true (show 0 ≤ s32 s.pc by omega)
    | pcInMemory => exact decide_eq_true (show s32 s.pc < 65532 by omega)

/-- The invariant reported is the first violated one in the order I1 to I11 (R34, R243). -/
theorem firstViolated_eq_chain (s : State) : firstViolated s =
    if u32 s.pc % 4 ≠ 0 then some .pcAligned
    else if u32 (s.x Reg.gp) % 4 ≠ 0 then some .gpAligned
    else if u32 (s.x Reg.sp) % 4 ≠ 0 then some .spAligned
    else if u32 (s.x Reg.fp) % 4 ≠ 0 then some .fpAligned
    else if s32 (s.x Reg.gp) < 0 then some .gpNonneg
    else if s32 (s.x Reg.sp) ≤ s32 (s.x Reg.gp) then some .gpBelowSp
    else if s32 (s.x Reg.fp) < s32 (s.x Reg.sp) then some .spAtMostFp
    else if 65532 ≤ s32 (s.x Reg.fp) then some .fpInMemory
    else if s32 s.pc < 0 then some .pcNonneg
    else if 65532 ≤ s32 s.pc then some .pcInMemory
    else if s.regs[(0 : Reg)] ≠ 0 then some .zeroRegister
    else none := by
  simp only [firstViolated, allInvariants, find?_violated_cons, List.find?_nil]
  simp only [Invariant.holds, decide_eq_true_eq]
  simp only [Config.bytesPerWord, Config.memorySize, ← Int.not_le, Nat.cast_ofNat, ne_eq, ite_not]

/-- Settles O18: which invariants are violated, which is reported, and what the check does with it. -/
theorem invariantsAreTheUnsignedConditions : Obligations.InvariantsAreTheUnsignedConditions := by
  refine ⟨firstViolated_eq_none_iff_unsigned, firstViolated_eq_chain, fun s hs => ?_, fun s k hrun hk => ?_⟩
  · rcases checkInvariants_cases s .default with h | ⟨k, hrun, hk, _⟩
    · exact h
    · simp [hrun, hk] at hs
  · simp only [checkInvariants, hrun, hk]
    rfl

end Sys2Proof.Machine
end

