-- ==== Sys2Proof/Proofs/RegisterWrites.lean ====
section
/-! SUPPORT. The instructions with a destination register: what they leave unchanged, and a non-zero value into register 0
(spec R23); statements O24, O37 and O38. -/

namespace Sys2Proof.Machine

/-! ## What an instruction with a destination leaves unchanged -/

/-- Nothing of `s` has changed in `t` but register `d`, the counter of free values, and what an error adds. -/
def DestinationOnly (d : Reg) (s t : State) : Prop :=
  RegistersKept [d] s t ∧ MemoryKept s t ∧ HiLoKept s t ∧ StreamsKept s t ∧ AtMostOneError s t ∧
  t.pc = s.pc ∧ t.ir = s.ir ∧ t.stackBottom = s.stackBottom ∧ t.dataLength = s.dataLength

section destinationOnly

variable (d : Reg) (s : State)

theorem destinationOnly_refl : DestinationOnly d s s :=
  ⟨⟨fun _ _ => rfl, rfl⟩, fun _ => rfl, ⟨rfl, rfl⟩, ⟨rfl, rfl, rfl⟩, .inl ⟨rfl, rfl⟩, rfl, rfl, rfl, rfl⟩

theorem destinationOnly_raise (e : MachineError) : DestinationOnly d s (raise e s) :=
  ⟨⟨fun _ _ => rfl, rfl⟩, fun _ => rfl, ⟨rfl, rfl⟩, ⟨rfl, rfl, rfl⟩, .inr ⟨e, rfl, rfl⟩, rfl, rfl, rfl, rfl⟩

theorem destinationOnly_setReg {d : Reg} (hd : d ≠ 0) (v : Word) : DestinationOnly d s (s.setReg d v) := by
  refine ⟨⟨fun r hr => ?_, (QuietUpdate.setReg s hd v).zero⟩, fun _ => rfl, ⟨rfl, rfl⟩, ⟨rfl, rfl, rfl⟩,
    .inl ⟨rfl, rfl⟩, rfl, rfl, rfl, rfl⟩
  exact State.setReg_x_other s v (by simpa using hr)

theorem destinationOnly_writeReg (v : Word) : DestinationOnly d s (writeReg d v s) := by
  rcases writeReg_cases d v s .default with ⟨hd, h⟩ | ⟨_, _, h⟩ | ⟨_, _, _, h⟩ <;> rw [h]
  · exact destinationOnly_setReg s hd v
  · exact destinationOnly_refl d s
  · exact destinationOnly_raise d s _

/-- A draw before it is not seen: only the model's counter moves. -/
theorem destinationOnly_nextDraw {d : Reg} {s t : State} (h : DestinationOnly d s.nextDraw t) :
    DestinationOnly d s t :=
  h

end destinationOnly

theorem WritesOrRaises.destinationOnly {d : Reg} {s t : State} (h : WritesOrRaises d s t) : DestinationOnly d s t := by
  obtain ⟨u, hu, ht⟩ := h
  have hut : DestinationOnly d u t := by
    rcases ht with ⟨v, rfl⟩ | ⟨e, rfl⟩
    · exact destinationOnly_writeReg d u v
    · exact destinationOnly_raise d u e
  rcases hu with rfl | rfl
  · exact hut
  · exact destinationOnly_nextDraw hut

/-- Settles O24: each of the 23 instructions is one register write or one error. -/
theorem registerInstructionsChangeTheirDestinationOnly : Obligations.RegisterInstructionsChangeTheirDestinationOnly :=
  fun _ _ _ _ hd h => (exec_writesOrRaises hd h).destinationOnly

/-! ## Non-zero values into register 0 -/

/-- A non-zero value written to register 0 answers the error of R23 at the default `R0_WRITE`. -/
theorem answersError_writeReg_zero {v : Word} (s : State) (hv : v ≠ 0) :
    AnswersError (.invariantViolation .zeroRegister) s (.next (writeReg 0 v s)) :=
  congrArg _ (writeReg_zero_of_ne hv s rfl)

/-- Settles O37: each of the fourteen instructions writes its result by `writeReg`. -/
theorem nonzeroWritesToRegisterZeroAreErrors : Obligations.NonzeroWritesToRegisterZeroAreErrors := by
  intro s rs rt i h
  have hwrite {v : Word} := answersError_writeReg_zero (v := v) s
  exact ⟨hwrite, hwrite, hwrite, hwrite, hwrite, hwrite, hwrite, hwrite, hwrite, hwrite, hwrite, hwrite, hwrite,
    hwrite⟩

/-- A pattern made for a NaN is not zero (R140). -/
theorem nanOfFree_ne_zero (w : Word) : nanOfFree w ≠ 0 := by
  intro h
  have hnan := f32IsNaN_nanOfFree w
  rw [h] at hnan
  exact absurd hnan (by decide)

/-- A byte that is not zero is not zero extended (R87). -/
theorem zeroExtByte_ne_zero {b : Byte} (h : b ≠ 0) : zeroExtByte b ≠ 0 := by
  intro h0
  have hval : (zeroExtByte b).toNat = 0 := by rw [h0]; rfl
  rw [zeroExtByte, BitVec.toNat_setWidth_of_le (by decide)] at hval
  exact h (BitVec.eq_of_toNat_eq hval)

/-- Rounding an integer quotient never goes below it. -/
theorem div_le_roundHalfEven (n d : Nat) : n / d ≤ roundHalfEven n d := by
  unfold roundHalfEven
  dsimp only
  split <;> omega

/-- A datum packed from a non-zero magnitude is not `+0.0`. -/
theorem f32Pack_ne_zero (sign : Bool) {m : Nat} (h : 0 < m) : f32Pack sign m ≠ 0 := by
  intro h0
  have hval : (f32Pack sign m).toNat = 0 := by rw [h0]; rfl
  rw [f32Pack, BitVec.toNat_ofNat] at hval
  split at hval <;> omega

/-- A value of at least one unit does not round to a zero (R139). -/
theorem f32Round_ne_zero (sign : Bool) {n d : Nat} (hd : 0 < d) (h : d ≤ n) : f32Round sign n d ≠ 0 := by
  refine f32Pack_ne_zero sign ?_
  rcases Nat.eq_zero_or_pos (f32Scale (n / d)) with hk | hk
  · rw [hk]
    have hquot : 0 < n / d := Nat.div_pos h hd
    have := div_le_roundHalfEven n d
    simp only [pow_zero, mul_one]
    omega
  · positivity

/-- The datum of an integer that is not zero is not zero (R136). -/
theorem f32OfInt_ne_zero {v : Word} (h : v ≠ 0) : f32OfInt v ≠ 0 := by
  refine f32Round_ne_zero _ Nat.one_pos ?_
  have hs : s32 v ≠ 0 := fun h0 => h (BitVec.toInt_inj.mp (h0.trans BitVec.toInt_zero.symm))
  exact Nat.mul_pos (Int.natAbs_pos.mpr hs) (by decide)

/-- A floating-point result written to register 0 that is a non-zero datum or a NaN (R23, R140). -/
theorem answersError_writeFloat_zero (r : Option Word) (s : State) :
    (∀ v, r = some v → v ≠ 0 →
      AnswersError (.invariantViolation .zeroRegister) s (.next (writeFloat 0 r s))) ∧
    (r = none →
      AnswersError (.invariantViolation .zeroRegister) { s with draws := s.draws + 1 } (.next (writeFloat 0 r s))) := by
  refine ⟨fun v hr hv => ?_, fun hr => ?_⟩
  · rw [hr, writeFloat_some]
    exact answersError_writeReg_zero s hv
  · rw [hr, writeFloat_none]
    exact answersError_writeReg_zero s.nextDraw (nanOfFree_ne_zero _)

/-- A byte load from a valid address writes the byte there, zero-extended (R181). -/
theorem execLbu_valid {rs rt : Reg} {o : BitVec 16} {s : State} {p : Parameters}
    (h : accessError (s.x rs + formOffset o) 1 p = none) :
    execLbu rs rt o s p = .next (writeReg rt (zeroExtByte (s.mem.read (u32 (s.x rs + formOffset o)))) s p) := by
  rw [execLbu, accessAddress, effectiveAddress, memReadByte_valid h]
  rfl

/-- Settles O38: each of the nine instructions writes its result by `writeReg` or `writeFloat`; a NaN's pattern, a
converted integer and an extended byte that are not zero stay so in the word written. -/
theorem nonzeroFloatsAndLoadsIntoRegisterZeroAreErrors :
    Obligations.NonzeroFloatsAndLoadsIntoRegisterZeroAreErrors := by
  intro s rs rt o
  refine ⟨?float, fun h => answersError_writeReg_zero s (f32OfInt_ne_zero h), ?round, ?byte, ?word⟩
  case float =>
    intro p hp hdivisor
    have hexec : exec p.2 s = .next (writeFloat 0 p.1 s) := by
      fin_cases hp
      · rfl
      · rfl
      · rfl
      · exact execFdiv_quotient (.inr (hdivisor rfl))
    rw [hexec]
    exact answersError_writeFloat_zero p.1 s
  case round =>
    intro v hv h
    have hexec : exec (.rnd rt 0) s = .next (writeReg 0 v s) := execRnd_some hv
    rw [hexec]
    exact answersError_writeReg_zero s h
  case byte =>
    intro hr h
    have hvalid : accessError (s.x rs + formOffset o) 1 = none :=
      (accessError_byte _ _).mpr (by simp only [Config.memorySize]; omega)
    rw [show exec (.lbu rs 0 o) s = execLbu rs 0 o s from rfl, execLbu_valid hvalid]
    exact answersError_writeReg_zero s (zeroExtByte_ne_zero h)
  case word =>
    intro hr ha h i hi
    have hvalid : accessError (s.x rs + formOffset o) 4 = none :=
      (accessError_word _ _).mpr ⟨by simp only [Config.memorySize]; omega, .inl ha⟩
    have hexec : exec i s = .next (loadWord rs 0 o s) := by fin_cases hi <;> rfl
    rw [hexec, loadWord_valid hvalid]
    exact answersError_writeReg_zero s h

end Sys2Proof.Machine
end

