-- ==== Sys2Proof/Proofs/Loading.lean ====
section
/-! SUPPORT. The state a file is loaded into and the state after reset (spec R36, R37, R270 to R275); statements O59,
O58 and O15. -/

namespace Sys2Proof.Machine

/-! ## Loading -/

/-- A file whose conditions are all met meets each of L1 to L8 (R275). -/
theorem holds_of_firstUnmet {b : Bof} (h : firstUnmet b = none) {c : LoadCondition} (hc : c ∈ allLoadConditions) :
    c.holds b = true := by
  simpa using List.find?_eq_none.mp h c hc

/-- The load conditions of R275 that speak of the sections, as numbers. -/
theorem sections_of_firstUnmet {b : Bof} (h : firstUnmet b = none) :
    b.text.length = u32 b.textLength ∧ b.data.length = u32 b.intsLength + u32 b.floatsLength ∧
    b.text.length ≤ u32 b.dataStart ∧ u32 b.dataStart + b.data.length ≤ 65532 := by
  obtain ⟨htext, hdata⟩ := of_decide_eq_true (holds_of_firstUnmet h (c := .fileLength) (by decide))
  obtain ⟨hbelow, hfit⟩ := of_decide_eq_true (holds_of_firstUnmet h (c := .sectionsFit) (by decide))
  exact ⟨htext, hdata, htext ▸ hbelow, hdata ▸ hfit⟩

/-- The addresses in the header of a file that can be loaded (R275). -/
theorem addresses_of_firstUnmet {b : Bof} (h : firstUnmet b = none) :
    (u32 b.dataStart % 4 = 0 ∧ u32 b.stackBottom % 4 = 0 ∧ u32 b.textStart % 4 = 0) ∧
    u32 b.textStart < u32 b.dataStart ∧ u32 b.dataStart < u32 b.stackBottom ∧ u32 b.stackBottom < 65532 := by
  have hdata : u32 b.dataStart % 4 = 0 := of_decide_eq_true (holds_of_firstUnmet h (c := .dataStart) (by decide))
  obtain ⟨hstack, hdatastack⟩ := of_decide_eq_true (holds_of_firstUnmet h (c := .stackBottom) (by decide))
  obtain ⟨htext, htextdata⟩ := of_decide_eq_true (holds_of_firstUnmet h (c := .textStart) (by decide))
  have hin : u32 b.stackBottom < 65532 := of_decide_eq_true (holds_of_firstUnmet h (c := .stackInMemory) (by decide))
  exact ⟨⟨hdata, hstack, htext⟩, htextdata, hdatastack, hin⟩

section load

variable (b : Bof) (input : List Byte)

@[simp] theorem load_pc : (load b input).pc = b.textStart := rfl
@[simp] theorem load_status : (load b input).status = .running := rfl

@[simp] theorem load_mem :
    (load b input).mem = (Memory.writeBytes [] 0 b.text).writeBytes (u32 b.dataStart) b.data :=
  rfl

@[simp] theorem load_gp : (load b input).x Reg.gp = b.dataStart := rfl
@[simp] theorem load_sp : (load b input).x Reg.sp = b.stackBottom := rfl
@[simp] theorem load_fp : (load b input).x Reg.fp = b.stackBottom := rfl

/-- The header gives three registers, every other is 0 (R36). -/
theorem load_x_other {r : Reg} (hr : r ∉ [Reg.gp, Reg.sp, Reg.fp]) : (load b input).x r = 0 := by
  simp only [List.mem_cons, List.not_mem_nil, or_false, not_or] at hr
  obtain ⟨hgp, hsp, hfp⟩ := hr
  calc (load b input).x r
      = ((((State.blank input).setReg Reg.gp b.dataStart).setReg Reg.sp b.stackBottom).setReg Reg.fp b.stackBottom).x r :=
        rfl
    _ = (State.blank input).x r := by
        rw [State.setReg_x_other _ _ hfp, State.setReg_x_other _ _ hsp, State.setReg_x_other _ _ hgp]
    _ = 0 := by simp [State.x, State.blank]

/-- A byte of the loaded memory: of the data section from its start, of the text section below, 0 elsewhere (R36, R273,
R274). -/
theorem load_mem_read (a : Nat) : (load b input).mem.read a =
    if u32 b.dataStart ≤ a then b.data.getD (a - u32 b.dataStart) (b.text.getD a 0) else b.text.getD a 0 := by
  simp [Memory.read_writeBytes, Memory.read, Memory.unlisted]

end load

/-- The loaded state of a file that meets the load conditions violates no invariant (R270 step 8). -/
theorem firstViolated_load {b : Bof} (input : List Byte) (h : firstUnmet b = none) :
    firstViolated (load b input) = none := by
  obtain ⟨⟨hdata, hstack, htext⟩, htextdata, hdatastack, hin⟩ := addresses_of_firstUnmet h
  rw [firstViolated_eq_none_iff_unsigned]
  rw [load_pc, load_gp, load_sp, load_fp]
  exact ⟨rfl, htext, by omega, hdata, hstack, hstack, hdatastack, Nat.le_refl _, by omega⟩

/-- Starting the VM on a file that can be loaded adds the block of the loaded state (R270, R224). -/
theorem start_eq {b : Bof} (input : List Byte) (h : firstUnmet b = none) :
    start b input = { load b input with stdout := [.trace (.block (stateBlock (load b input)))] } := by
  have hcheck : checkInvariants (load b input) = load b input := by
    simp [checkInvariants, firstViolated_load input h]
  rw [start, h]
  show endCycle (load b input) = _
  rw [endCycle_eq, hcheck, traceAfter, blocksAfter_running rfl]
  rfl

/-- Settles O59: the loaded memory byte by byte, the loaded registers, and the start's check, which finds nothing. -/
theorem loadCopiesTheSections : Obligations.LoadCopiesTheSections := by
  intro b input h
  obtain ⟨htext, hdata, hbelow, hfit⟩ := sections_of_firstUnmet h
  refine ⟨fun i hi => ?_, fun i hi => ?_, fun a ha hout => ?_, rfl, rfl, rfl, rfl,
    fun r => load_x_other b input, htext, hdata, rfl, rfl, rfl, rfl, rfl, rfl, rfl, start_eq input h⟩
  · rw [load_mem_read, if_neg (by omega)]
  · rw [load_mem_read, if_pos (by omega), Nat.add_sub_cancel_left]
    simp [hi]
  · rw [load_mem_read, List.getD_eq_default b.text 0 ha]
    split
    · exact List.getD_eq_default _ _ (by omega)
    · rfl

/-- Settles O58: both sides are the table of R36, field by field. -/
theorem resetIsTheSpecsTable : Obligations.ResetIsTheSpecsTable :=
  ⟨fun _ => rfl, by decide, rfl, rfl, rfl, rfl, rfl, rfl, rfl⟩

/-- Settles O15: nothing is stored in memory or in register 0, and the values of R37 meet I1 to I11. -/
theorem resetIsSound : Obligations.ResetIsSound :=
  ⟨reset_memory_wf, rfl, fun _ => by decide⟩

end Sys2Proof.Machine
end

