-- ==== Sys2Proof/Proofs/MemoryAccess.lean ====
section
/-! SUPPORT. Bytes and words in the same memory, when an access is valid, and what the loads, the stores and the fetch
do with it (spec R50 to R57, R60, R66, R181 to R186, R245); statements O7, O8, O9, O17, O23, O49, O50 and O48. -/

namespace Sys2Proof.Machine

/-! ## The bytes of a word -/

/-- A byte read above the lowest one of a row of bytes is read from the rest. -/
theorem extractLsb'_append_byte {w start : Nat} {high : BitVec w} {low b : Byte} (h : high.extractLsb' start 8 = b) :
    (high ++ low).extractLsb' (start + 8) 8 = b :=
  (BitVec.extractLsb'_append_eq_of_le (Nat.le_add_left 8 start)).trans h

/-- Byte `k` of a word made of four bytes is the one at place `k` in address order (R52, R53). -/
theorem byteOfWord_wordOfBytes (b : Nat → Byte) {k : Nat} (hk : k < 4) :
    byteOfWord k (wordOfBytes (b 0) (b 1) (b 2) (b 3)) = b k := by
  match k, hk with
  | 0, _ => exact BitVec.extractLsb'_append_eq_right
  | 1, _ => exact extractLsb'_append_byte BitVec.extractLsb'_append_eq_right
  | 2, _ => exact extractLsb'_append_byte (extractLsb'_append_byte BitVec.extractLsb'_append_eq_right)
  | 3, _ => exact extractLsb'_append_byte (extractLsb'_append_byte BitVec.extractLsb'_append_eq_left)

/-- A bit of a word is the bit of the byte it stands in (R53). -/
theorem getLsbD_eq_byteOfWord (v : Word) (i : Nat) : v.getLsbD i = (byteOfWord (i / 8) v).getLsbD (i % 8) := by
  rw [byteOfWord, BitVec.getLsbD_extractLsb', Nat.div_add_mod, decide_eq_true (Nat.mod_lt i (by decide)), Bool.true_and]

/-- Two words with the same four bytes are the same word. -/
theorem eq_of_byteOfWord_eq {v w : Word} (h : ∀ k < 4, byteOfWord k v = byteOfWord k w) : v = w := by
  refine BitVec.eq_of_getLsbD_eq fun i hi => ?_
  rw [getLsbD_eq_byteOfWord v, getLsbD_eq_byteOfWord w, h (i / 8) (by omega)]

/-- Byte `k` of the word read at `a` is the byte read at `a + k` (R53, R56). -/
theorem Memory.byteOfWord_readWord (m : Memory) (a : Nat) {k : Nat} (hk : k < 4) :
    byteOfWord k (m.readWord a) = m.read (a + k) :=
  byteOfWord_wordOfBytes (fun j => m.read (a + j)) hk

/-- A word written is read back (R56, R57). -/
theorem Memory.readWord_writeWord (m : Memory) (a : Nat) (v : Word) : (m.writeWord a v).readWord a = v :=
  eq_of_byteOfWord_eq fun k hk => by
    rw [Memory.byteOfWord_readWord _ a hk, Memory.read_writeWord_inside m a v hk, byteOfWord]

/-- Byte `j` of a word after a byte written in the word: the new byte at its place, the old one elsewhere (R57). -/
theorem Memory.byteOfWord_readWord_write (m : Memory) (a k : Nat) (c : Byte) {j : Nat} (hj : j < 4) :
    byteOfWord j ((m.write (a + k) c).readWord a) = if j = k then c else byteOfWord j (m.readWord a) := by
  simp only [Memory.byteOfWord_readWord _ a hj, Memory.read_write, Nat.add_left_cancel_iff]

/-- Settles O7: words are compared byte by byte, and each byte is one of memory, before or after the write. -/
theorem mixedWidthAccesses : Obligations.MixedWidthAccesses := by
  intro m a v k c hk
  refine ⟨Memory.readWord_writeWord m a v, Memory.read_writeWord_inside m a v hk,
    fun _ => Memory.read_writeWord_outside m v, ?_, fun j hj hjk => ?_⟩
  · rw [Memory.byteOfWord_readWord_write m a k c hk, if_pos rfl]
  · rw [Memory.byteOfWord_readWord_write m a k c hj, if_neg hjk]

/-! ## The canonical form -/

/-- A byte that does not read as an unlisted one is listed. -/
theorem Memory.mem_of_read_ne {m : Memory} {a : Nat} (h : m.read a ≠ Memory.unlisted) : (a, m.read a) ∈ m := by
  induction m with
  | nil => exact absurd rfl h
  | cons c m ih =>
    obtain ⟨k, v⟩ := c
    rw [Memory.read] at h ⊢
    split at h
    next hk => simp [hk]
    next hk => simp [hk, ih h]

/-- Where the addresses rise, an entry is what its address reads: none before it has the address. -/
theorem Memory.read_of_mem {m : Memory} (h : m.Pairwise fun c c' => c.1 < c'.1) {a : Nat} {b : Byte}
    (hab : (a, b) ∈ m) : m.read a = b := by
  induction m with
  | nil => cases hab
  | cons c m ih =>
    obtain ⟨hfirst, hrest⟩ := List.pairwise_cons.mp h
    rw [Memory.read]
    rcases List.mem_cons.mp hab with rfl | hin
    · exact if_pos rfl
    · rw [if_neg (Nat.ne_of_lt (hfirst _ hin))]
      exact ih hrest hin

/-- A canonical memory lists exactly the bytes that do not read as unlisted ones (R50). -/
theorem Memory.mem_iff_read {m : Memory} (h : m.wf) (a : Nat) (b : Byte) :
    (a, b) ∈ m ↔ m.read a = b ∧ b ≠ Memory.unlisted := by
  constructor
  · exact fun hab => ⟨Memory.read_of_mem h.1 hab, (h.2 _ hab).1⟩
  · rintro ⟨rfl, hb⟩
    exact Memory.mem_of_read_ne hb

/-- A canonical memory lists no entry twice. -/
theorem Memory.nodup_of_wf {m : Memory} (h : m.wf) : m.Nodup :=
  h.1.imp fun hlt heq => absurd (congrArg Prod.fst heq) (Nat.ne_of_lt hlt)

/-- Settles O8: what is read determines the entries, and their rising addresses the order. -/
theorem canonicalMemoriesThatReadAlikeAreEqual : Obligations.CanonicalMemoriesThatReadAlikeAreEqual := by
  intro m m' h h' hread
  have hperm : m.Perm m' := (List.perm_ext_iff_of_nodup (Memory.nodup_of_wf h) (Memory.nodup_of_wf h')).mpr
    fun ⟨a, b⟩ => by rw [Memory.mem_iff_read h, Memory.mem_iff_read h', hread]
  exact hperm.eq_of_pairwise (fun _ _ _ _ hlt hgt => absurd hlt (Nat.lt_asymm hgt)) h.1 h'.1

/-! ## When an access is valid -/

/-- An access that reaches beyond the memory is `AddressOutOfRange`, whatever its alignment (R55). -/
theorem accessError_outOfRange {addr : Word} {n : Nat} {p : Parameters} (h : 65532 < u32 addr + n) :
    accessError addr n p = some (.addressOutOfRange addr n) := by
  rw [accessError, Config.memorySize, if_pos h]

/-- A byte access in memory is valid (R55). -/
theorem accessError_byte_valid {addr : Word} {p : Parameters} (h : u32 addr ≤ 65531) : accessError addr 1 p = none :=
  (accessError_byte addr p).mpr (Nat.lt_succ_of_le h)

/-- A word access in memory and on a word boundary is valid (R55). -/
theorem accessError_word_valid {addr : Word} {p : Parameters} (hr : u32 addr ≤ 65528) (ha : u32 addr % 4 = 0) :
    accessError addr 4 p = none :=
  (accessError_word addr p).mpr ⟨Nat.add_le_add_right hr 4, .inl ha⟩

/-- Settles O9: one lemma for each case of R55 at the default `MISALIGNED_WORD_ACCESS`. -/
theorem accessChecksInOrder : Obligations.AccessChecksInOrder := fun _ =>
  ⟨fun h => accessError_outOfRange (Nat.add_lt_add_right h 1), accessError_byte_valid,
    fun h => accessError_outOfRange (Nat.add_lt_add_right h 4),
    fun hr ha => accessError_misaligned hr ha rfl, accessError_word_valid⟩

/-! ## The fetch -/

/-- A fetch from a valid address answers the word there (R60). -/
theorem fetch_valid {s : State} {p : Parameters} (h : accessError s.pc 4 p = none) :
    fetch s p = .ok (s.mem.readWord (u32 s.pc)) :=
  memReadWord_valid h s

/-- Settles O17: the invariants I1, I9 and I10 are what R55 asks of the `PC`. -/
theorem fetchSucceedsInSoundStates : Obligations.FetchSucceedsInSoundStates := by
  intro s hsound hrun
  obtain ⟨_, haligned, hinside, _⟩ := (firstViolated_eq_none_iff_unsigned s).mp (hsound.boundary hrun)
  exact fetch_valid (accessError_word_valid hinside haligned)

/-! ## Loads and stores -/

section loadStore

variable {rs rt : Reg} {o : BitVec 16} {s : State} {i : Instr} {e : MachineError}

/-- `LW` and `FLW` are the one load of a word (R182, R183). -/
theorem exec_eq_loadWord (hi : i ∈ [Instr.lw rs rt o, .flw rs rt o]) : exec i s = .next (loadWord rs rt o s) := by
  fin_cases hi <;> rfl

/-- `SW` and `FSW` are the one store of a word (R185, R186). -/
theorem exec_eq_storeWord (hi : i ∈ [Instr.sw rs rt o, .fsw rs rt o]) : exec i s = .next (storeWord rs rt o s) := by
  fin_cases hi <;> rfl

/-- `LBU` is `execLbu` (R181). -/
theorem exec_lbu : exec (.lbu rs rt o) s = execLbu rs rt o s := rfl

/-- `SB` is one byte write, of the register's low byte (R184). -/
theorem exec_sb :
    exec (.sb rs rt o) s = .next (memWriteByte (s.x rs + formOffset o) ((s.x rt).extractLsb' 0 8) s) :=
  rfl

/-- A byte load that is an error raises it and does nothing else (R245). -/
theorem answersError_lbu (h : accessError (s.x rs + formOffset o) 1 = some e) :
    AnswersError e s (exec (.lbu rs rt o) s) := by
  have hread : memReadByte (accessAddress rs o s) s = .error e := by
    simp [memReadByte, accessAddress, effectiveAddress, h]
  rw [exec_lbu, execLbu, hread]
  rfl

/-- A byte store that is an error raises it and does nothing else (R245). -/
theorem answersError_sb (h : accessError (s.x rs + formOffset o) 1 = some e) :
    AnswersError e s (exec (.sb rs rt o) s) := by
  rw [exec_sb, memWriteByte, h]
  rfl

/-- A word access that is an error raises it and does nothing else, load or store (R245). -/
theorem answersError_wordAccess (h : accessError (s.x rs + formOffset o) 4 = some e)
    (hi : i ∈ [Instr.lw rs rt o, .flw rs rt o, .sw rs rt o, .fsw rs rt o]) : AnswersError e s (exec i s) := by
  have hkind : i ∈ [Instr.lw rs rt o, .flw rs rt o] ++ [Instr.sw rs rt o, .fsw rs rt o] := hi
  rcases List.mem_append.mp hkind with hload | hstore
  · rw [exec_eq_loadWord hload, loadWord_error h]
    rfl
  · rw [exec_eq_storeWord hstore, storeWord_error h]
    rfl

/-- A byte store to a valid address replaces the byte there (R184). -/
theorem exec_sb_valid (h : accessError (s.x rs + formOffset o) 1 = none) :
    exec (.sb rs rt o) s =
      .next (s.setMem (s.mem.write (u32 (s.x rs + formOffset o)) ((s.x rt).extractLsb' 0 8))) := by
  rw [exec_sb, memWriteByte, h]

end loadStore

/-- Settles O23: the store's write and the fetch's read meet at the same word of memory. -/
theorem storedWordsAreFetched : Obligations.StoredWordsAreFetched := by
  intro s t rs rt o hr ha hexec
  have hvalid := accessError_word_valid (p := .default) hr ha
  rw [exec_eq_storeWord List.mem_cons_self, storeWord_valid hvalid] at hexec
  cases hexec
  rw [fetch_valid hvalid]
  exact congrArg _ (Memory.readWord_writeWord s.mem _ _)

/-- Settles O49: a valid store is the memory's own write. -/
theorem storesPutTheRegisterInMemory : Obligations.StoresPutTheRegisterInMemory := by
  intro s rs rt o
  refine ⟨fun hr => ?byte, fun hr ha i hi => ?word, rfl⟩
  case byte =>
    refine ⟨_, exec_sb_valid (accessError_byte_valid hr), ?_, fun a ha => ?_⟩
    · rw [Memory.read_write, if_pos rfl]
    · rw [Memory.read_write, if_neg ha]
  case word =>
    rw [exec_eq_storeWord hi, storeWord_valid (accessError_word_valid hr ha)]
    exact ⟨_, rfl, fun _ => Memory.read_writeWord_inside _ _ _, fun _ => Memory.read_writeWord_outside _ _⟩

/-- Settles O50: the access check's error is what the instruction answers. -/
theorem invalidAccessesHaltBeforeAnyEffect : Obligations.InvalidAccessesHaltBeforeAnyEffect := by
  intro s rs rt o
  refine ⟨fun h => ?byte, fun h i => answersError_wordAccess (accessError_outOfRange (Nat.add_lt_add_right h 4)),
    fun hr ha i => answersError_wordAccess (accessError_misaligned hr ha rfl)⟩
  case byte =>
    have herror : accessError (s.x rs + formOffset o) 1 = some (.addressOutOfRange (s.x rs + formOffset o) 1) :=
      accessError_outOfRange (Nat.add_lt_add_right h 1)
    exact ⟨answersError_lbu herror, answersError_sb herror⟩

/-- Settles O48: a valid load is one register write of what the memory's read gives. -/
theorem loadsWriteWhatMemoryHolds : Obligations.LoadsWriteWhatMemoryHolds := by
  intro s rs rt o
  refine ⟨fun hr => ?byte, fun hr ha i hi => ?word, rfl⟩
  case byte =>
    rw [exec_lbu, execLbu_valid (accessError_byte_valid hr)]
    exact answersWrite_writeReg rt _ s .default
  case word =>
    rw [exec_eq_loadWord hi, loadWord_valid (accessError_word_valid hr ha)]
    exact answersWrite_writeReg rt _ s .default

end Sys2Proof.Machine
end

