-- ==== Sys2Proof/Proofs/OperandForms.lean ====
section
/-! SUPPORT. The operand forms as numbers (spec R86 to R89), and statement O6. -/

namespace Sys2Proof.Machine

/-- An offset's field followed by two zero bits is four times its signed value (R88). -/
theorem toInt_append_two_zeros (o : BitVec 16) : (o ++ 0#2).toInt = 4 * o.toInt := by
  have ho := o.isLt
  simp only [BitVec.toInt_eq_toNat_cond, toNat_append_eq o 0#2, BitVec.toNat_ofNat]
  split <;> split <;> omega

/-- An offset is four times its signed field (R88). -/
theorem toInt_formOffset (o : BitVec 16) : (formOffset o).toInt = 4 * o.toInt := by
  rw [formOffset, BitVec.toInt_signExtend_of_le (by decide), toInt_append_two_zeros]

/-- A jump address is the high four bits of the `PC` and four times its field (R89). -/
theorem toNat_formAddress (p : Word) (a : BitVec 26) :
    (formAddress p a).toNat = p.toNat / 2 ^ 28 * 2 ^ 28 + 4 * a.toNat := by
  have hp := p.isLt
  simp only [formAddress, toNat_append_eq, BitVec.extractLsb'_toNat, BitVec.toNat_ofNat, Nat.shiftRight_eq_div_pow]
  omega

/-- Settles O6: the extensions keep the value, and the two shifted forms are the numbers above. -/
theorem operandFormsAreTheirNumbers : Obligations.OperandFormsAreTheirNumbers := by
  refine ⟨fun i => ⟨BitVec.toInt_signExtend_of_le (by decide), BitVec.toNat_setWidth_of_le (by decide),
    toInt_formOffset i, ?offsetWord⟩, fun b => BitVec.toNat_setWidth_of_le (by decide), toNat_formAddress,
    by decide, by decide, by decide⟩
  case offsetWord => rw [w32, ← toInt_formOffset, BitVec.ofInt_toInt]

end Sys2Proof.Machine
end

