-- ==== Sys2Proof/Proofs/Decoding.lean ====
section
/-! SUPPORT. What the decoder answers, table by table: the encoder's inverse, only well-formed instructions, and which
fields it reads (spec R81, R90, R91, R98); statements O1, O2 and O4. -/

namespace Sys2Proof

/-- Settles O1: the decoder reads back what the encoder wrote, under either field order. -/
theorem decodeOfEncodeIsTheInstruction : Obligations.DecodeOfEncodeIsTheInstruction :=
  fun _ h => decodeWith_encodeWith fieldOrder h

/-- The decoder at the default field order (R85, R90). -/
theorem decode_eq (w : Word) : decode w = decodeFields (fieldsOf .msbFirst w) := rfl

/-! ## Well-formed answers -/

/-- A row with a constant field answers its instruction, and only where the constant stands (R90). -/
theorem requireConstant_eq_ok {holds : Bool} {i j : Instr} {f : Fields} :
    requireConstant holds i f = .ok j ↔ holds = true ∧ i = j := by
  cases holds <;> simp [requireConstant]

/-- A system call has no shift amount (R82). -/
theorem wellFormed_of_decodeService {f : Fields} {i : Instr} (h : decodeService f = .ok i) : i.WellFormed = true := by
  unfold decodeService at h
  split at h <;> cases h <;> rfl

/-- `SLL` and `SRL` take their amount from the `shift` field; no other row of Table 3 has one (R81). -/
theorem wellFormed_of_decodeRegister {f : Fields} {i : Instr} (hshift : f.shift < 32)
    (h : decodeRegister f = .ok i) : i.WellFormed = true := by
  unfold decodeRegister at h
  split at h
  case h_1 | h_2 => cases h; exact decide_eq_true hshift
  case h_5 => obtain ⟨-, rfl⟩ := requireConstant_eq_ok.mp h; rfl
  case h_6 => exact wellFormed_of_decodeService h
  case h_21 => cases h
  all_goals cases h; rfl

/-- The rows of Tables 4 and 5 have no shift amount (R83, R84). -/
theorem wellFormed_of_decodeFields {f : Fields} {i : Instr} (hshift : f.shift < 32)
    (h : decodeFields f = .ok i) : i.WellFormed = true := by
  unfold decodeFields at h
  split at h
  case h_1 => exact wellFormed_of_decodeRegister hshift h
  case h_2 | h_7 | h_8 | h_9 | h_14 | h_17 | h_18 | h_19 => obtain ⟨-, rfl⟩ := requireConstant_eq_ok.mp h; rfl
  case h_26 => cases h
  all_goals cases h; rfl

/-- Settles O2: the `shift` field has five bits. -/
theorem decodedInstructionsAreWellFormed : Obligations.DecodedInstructionsAreWellFormed :=
  fun w _ h => wellFormed_of_decodeFields (bitField 6 5 w).isLt h

/-! ## The fields that are read -/

/-- A register-format word is decoded by Table 3 from the fields it was written from (R81, R91). -/
theorem decode_registerWord (rs rt rd : Reg) (h : Nat) (f : BitVec 6) :
    ∃ code immed addr, decode (registerWord fieldOrder rs rt rd h f) =
      decodeRegister ⟨0, rs, rt, rd, h % 32, f, code, immed, addr⟩ := by
  obtain ⟨hop, hrs, hrt, hrd, hshift, hfunc⟩ := fieldsOf_registerWord rs rt rd h f
  rw [decode_eq, fieldOrder]
  generalize fieldsOf .msbFirst (registerWord .msbFirst rs rt rd h f) = fields at *
  cases fields
  subst hop hrs hrt hrd hshift hfunc
  exact ⟨_, _, _, rfl⟩

/-- Two register-format words decode alike when Table 3 answers alike for their operands, whatever the fields of the
other formats hold (R81, R91). -/
theorem decode_registerWord_congr {rs rt rd rs' rt' rd' : Reg} {h h' : Nat} {f : BitVec 6}
    (hread : ∀ code immed addr code' immed' addr',
      decodeRegister ⟨0, rs, rt, rd, h % 32, f, code, immed, addr⟩ =
        decodeRegister ⟨0, rs', rt', rd', h' % 32, f, code', immed', addr'⟩) :
    decode (registerWord fieldOrder rs rt rd h f) = decode (registerWord fieldOrder rs' rt' rd' h' f) := by
  obtain ⟨_, _, _, hw⟩ := decode_registerWord rs rt rd h f
  obtain ⟨_, _, _, hw'⟩ := decode_registerWord rs' rt' rd' h' f
  rw [hw, hw', hread]

/-- A system-call word is decoded by Table 6 from its code (R82, R91). -/
theorem decode_serviceWord (c : BitVec 20) :
    ∃ f : Fields, f.code = c ∧ decode (serviceWord fieldOrder c) = decodeService f := by
  obtain ⟨hop, hfunc, hcode⟩ := fieldsOf_serviceWord c
  exact ⟨_, hcode, by simp [decode_eq, fieldOrder, decodeFields, decodeRegister, hop, hfunc]⟩

/-- What Table 6 answers tells the code: the call it names is written with that code, and the error names it (R98). -/
theorem decodeService_cases (f : Fields) :
    (∃ i, decodeService f = .ok i ∧ encode i = serviceWord fieldOrder f.code) ∨
      decodeService f = .error (.unknownService f.code) := by
  unfold decodeService
  split
  case h_10 => exact .inr rfl
  all_goals
    rename_i hcode
    refine .inl ⟨_, rfl, ?_⟩
    rw [(BitVec.toNat_eq_nat.mp hcode).2]
    rfl

/-- Two system-call words that decode alike have the same code (R98). -/
theorem eq_of_decode_serviceWord_eq {c c' : BitVec 20}
    (h : decode (serviceWord fieldOrder c) = decode (serviceWord fieldOrder c')) : c = c' := by
  obtain ⟨f, rfl, hf⟩ := decode_serviceWord c
  obtain ⟨g, rfl, hg⟩ := decode_serviceWord c'
  rw [hf, hg] at h
  rcases decodeService_cases f with ⟨i, hi, hword⟩ | he <;> rcases decodeService_cases g with ⟨j, hj, hword'⟩ | he'
  · obtain rfl : i = j := Except.ok.inj (hi.symm.trans (h.trans hj))
    have hcode := (fieldsOf_serviceWord f.code).2.2
    rw [← fieldOrder, ← hword, hword'] at hcode
    exact hcode.symm.trans (fieldsOf_serviceWord g.code).2.2
  · cases hi.symm.trans (h.trans he')
  · cases he.symm.trans (h.trans hj)
  · exact DecodeError.unknownService.inj (Except.error.inj (he.symm.trans (h.trans he')))

/-- Settles O4: each row of Table 3 is decoded without its ignored fields, a code is told by the answer, and the encoder
writes its zeros. -/
theorem dashFieldsDoNotMatter : Obligations.DashFieldsDoNotMatter := by
  refine ⟨fun _ _ _ _ _ _ hf => ?shift, fun _ _ _ _ _ _ hf => ?rd, fun _ _ _ _ _ _ _ hf => ?rsRt,
    fun _ _ _ _ _ _ hf => ?rs, fun _ _ => eq_of_decode_serviceWord_eq, fun _ _ _ _ => by and_intros <;> rfl⟩
  -- at each `func` of the list, Table 3 answers without reading the field that differs
  all_goals
    refine decode_registerWord_congr fun _ _ _ _ _ _ => ?_
    fin_cases hf <;> rfl

end Sys2Proof
end

