-- ==== Sys2Proof/Proofs/OpcodeTable.lean ====
section
/-! SUPPORT. The rows of spec/opcode_table.json as conditions on the fields of a word, and the decoder against them (spec
R90, R91, R97); statement O3. -/

namespace Sys2Proof

/-! ## A word as its six smallest fields -/

/-- The word with these fields, the smallest that every row's mask takes whole or not at all (R81, R91). -/
def wordOfFields (op : BitVec 6) (rs rt rd shift : BitVec 5) (func : BitVec 6) : Word :=
  op ++ rs ++ rt ++ rd ++ shift ++ func

section
variable (op op' func func' : BitVec 6) (rs rt rd shift rs' rt' rd' shift' : BitVec 5) (w : Word)

theorem toNat_wordOfFields : (wordOfFields op rs rt rd shift func).toNat =
    op.toNat * 2 ^ 26 + rs.toNat * 2 ^ 21 + rt.toNat * 2 ^ 16 + rd.toNat * 2 ^ 11 + shift.toNat * 2 ^ 6 +
      func.toNat := by
  simp only [wordOfFields, toNat_append_eq]
  omega

theorem wordOfFields_inj : wordOfFields op rs rt rd shift func = wordOfFields op' rs' rt' rd' shift' func' ↔
    op = op' ∧ rs = rs' ∧ rt = rt' ∧ rd = rd' ∧ shift = shift' ∧ func = func' := by
  simp only [← BitVec.toNat_inj, toNat_wordOfFields]
  omega

/-- Conjunction acts field by field. -/
theorem wordOfFields_and : wordOfFields op rs rt rd shift func &&& wordOfFields op' rs' rt' rd' shift' func' =
    wordOfFields (op &&& op') (rs &&& rs') (rt &&& rt') (rd &&& rd') (shift &&& shift') (func &&& func') := by
  have e : (op ++ rs ++ rt ++ rd ++ shift ++ func) &&& (op' ++ rs' ++ rt' ++ rd' ++ shift' ++ func') =
      (op &&& op') ++ (rs &&& rs') ++ (rt &&& rt') ++ (rd &&& rd') ++ (shift &&& shift') ++ (func &&& func') := by
    simp only [BitVec.and_append]
  exact e

/-- Every word is the word of its fields. -/
theorem wordOfFields_bitField : wordOfFields (bitField 26 6 w) (bitField 21 5 w) (bitField 16 5 w) (bitField 11 5 w)
    (bitField 6 5 w) (bitField 0 6 w) = w := by
  have hw := w.isLt
  apply BitVec.eq_of_toNat_eq
  simp only [toNat_wordOfFields, toNat_bitField]
  omega

/-- A row selects a word field by field. -/
theorem selectedBy_wordOfFields (m : String) :
    (OpcodeRow.mk m (wordOfFields op rs rt rd shift func)
      (wordOfFields op' rs' rt' rd' shift' func')).selectedBy w = true ↔
    bitField 26 6 w &&& op = op' ∧ bitField 21 5 w &&& rs = rs' ∧ bitField 16 5 w &&& rt = rt' ∧
      bitField 11 5 w &&& rd = rd' ∧ bitField 6 5 w &&& shift = shift' ∧ bitField 0 6 w &&& func = func' := by
  rw [OpcodeRow.selectedBy, beq_iff_eq, ← wordOfFields_inj, ← wordOfFields_and, wordOfFields_bitField]

end

/-! ## The rows by the fields they fix -/

/-- A row of the immediate or the jump format that fixes `op` alone. -/
def opRow (m : String) (op : BitVec 6) : OpcodeRow :=
  ⟨m, wordOfFields 63 0 0 0 0 0, wordOfFields op 0 0 0 0 0⟩

/-- A row of the immediate format that fixes `rt` too. -/
def opRtRow (m : String) (op : BitVec 6) (rt : Reg) : OpcodeRow :=
  ⟨m, wordOfFields 63 0 31 0 0 0, wordOfFields op 0 (.ofFin rt) 0 0 0⟩

/-- A row of the register format that fixes `op` and `func` alone. -/
def funcRow (m : String) (func : BitVec 6) : OpcodeRow :=
  ⟨m, wordOfFields 63 0 0 0 0 63, wordOfFields 0 0 0 0 0 func⟩

/-- A row of the register format with `rs` its only operand and 0 in the other fields. -/
def funcRsRow (m : String) (func : BitVec 6) : OpcodeRow :=
  ⟨m, wordOfFields 63 0 31 31 31 63, wordOfFields 0 0 0 0 0 func⟩

/-- A row of the system-call format, which fixes the whole word. -/
def codeRow (m : String) (code : BitVec 20) : OpcodeRow :=
  ⟨m, 0xFFFFFFFF, serviceWord .msbFirst code⟩

/-- The opcode table, each row by the fields it fixes (R91). -/
theorem opcodeRows_eq : opcodeRows =
    [funcRow "ADD" 33, funcRow "FADD" 49, funcRow "SUB" 35, funcRow "FSUB" 51, funcRow "MUL" 25, funcRow "FMUL" 41,
     funcRow "DIV" 27, funcRow "FDIV" 43, funcRow "MFHI" 16, funcRow "MFLO" 18, funcRow "AND" 36, funcRow "BOR" 37,
     funcRow "NOR" 39, funcRow "XOR" 38, funcRow "SLL" 0, funcRow "SRL" 3, funcRow "CVT" 4, funcRow "RND" 5,
     funcRsRow "JR" 8,
     codeRow "EXIT" 10, codeRow "PSTR" 4, codeRow "PINT" 5, codeRow "PFLT" 6, codeRow "PCH" 11, codeRow "RCH" 12,
     codeRow "RFLT" 13, codeRow "STRA" 256, codeRow "NOTR" 257,
     opRow "ADDI" 9, opRow "ANDI" 12, opRow "BORI" 13, opRow "XORI" 14, opRow "BEQ" 4, opRtRow "BGEZ" 1 1,
     opRtRow "BGTZ" 7 0, opRtRow "BLEZ" 6 0, opRtRow "BLTZ" 8 0, opRow "BNE" 5, opRow "BFEQ" 20, opRtRow "BFGZ" 17 1,
     opRtRow "BFGTZ" 23 0, opRtRow "BFLEZ" 22 0, opRtRow "BFLTZ" 24 0, opRow "BFNE" 21, opRow "LBU" 36, opRow "LW" 35,
     opRow "FLW" 41, opRow "SB" 40, opRow "SW" 43, opRow "FSW" 42,
     opRow "JMP" 2, opRow "JAL" 3] := rfl

theorem and_six_ones (x : BitVec 6) : x &&& 63#6 = x := BitVec.and_allOnes

theorem and_five_ones (x : BitVec 5) : x &&& 31#5 = x := BitVec.and_allOnes

theorem regField_eq_iff {lo : Nat} {w : Word} {r : Reg} : regField lo w = r ↔ bitField lo 5 w = .ofFin r := by
  rw [regField, ← BitVec.toFin_inj]

/-- A word whose `op` and `func` are those of a system call is the word of its code (R82). -/
theorem eq_serviceWord {w : Word} (hop : (fieldsOf .msbFirst w).op.toNat = 0)
    (hfunc : (fieldsOf .msbFirst w).func.toNat = 12) : w = serviceWord .msbFirst (fieldsOf .msbFirst w).code := by
  simp only [fieldsOf, toNat_bitField] at hop hfunc
  apply BitVec.eq_of_toNat_eq
  simp only [toNat_serviceWord, fieldsOf, toNat_bitField]
  omega

section
variable (m : String) (op func : BitVec 6) (rt : Reg) (code : BitVec 20) (w : Word)

@[simp] theorem selectedBy_opRow :
    (opRow m op).selectedBy w = decide ((fieldsOf .msbFirst w).op.toNat = op.toNat) := by
  rw [Bool.eq_iff_iff, opRow, selectedBy_wordOfFields]
  simp [and_six_ones, fieldsOf, BitVec.toNat_inj]

@[simp] theorem selectedBy_opRtRow : (opRtRow m op rt).selectedBy w =
    decide ((fieldsOf .msbFirst w).op.toNat = op.toNat ∧ (fieldsOf .msbFirst w).rt = rt) := by
  rw [Bool.eq_iff_iff, opRtRow, selectedBy_wordOfFields]
  simp [and_six_ones, and_five_ones, fieldsOf, regField_eq_iff, BitVec.toNat_inj]

@[simp] theorem selectedBy_funcRow : (funcRow m func).selectedBy w =
    decide ((fieldsOf .msbFirst w).op.toNat = 0 ∧ (fieldsOf .msbFirst w).func.toNat = func.toNat) := by
  rw [Bool.eq_iff_iff, funcRow, selectedBy_wordOfFields, decide_eq_true_iff]
  simp [and_six_ones, fieldsOf, ← BitVec.toNat_inj]

@[simp] theorem selectedBy_funcRsRow : (funcRsRow m func).selectedBy w =
    decide ((fieldsOf .msbFirst w).op.toNat = 0 ∧ (fieldsOf .msbFirst w).rt = 0 ∧ (fieldsOf .msbFirst w).rd = 0 ∧
      (fieldsOf .msbFirst w).shift = 0 ∧ (fieldsOf .msbFirst w).func.toNat = func.toNat) := by
  rw [Bool.eq_iff_iff, funcRsRow, selectedBy_wordOfFields, decide_eq_true_iff]
  simp [and_six_ones, and_five_ones, fieldsOf, regField_eq_iff, ← BitVec.toNat_inj]

@[simp] theorem selectedBy_codeRow : (codeRow m code).selectedBy w =
    decide ((fieldsOf .msbFirst w).op.toNat = 0 ∧ (fieldsOf .msbFirst w).func.toNat = 12 ∧
      (fieldsOf .msbFirst w).code.toNat = code.toNat) := by
  have hand : w &&& 0xFFFFFFFF = w := BitVec.and_allOnes
  rw [Bool.eq_iff_iff, codeRow, OpcodeRow.selectedBy, hand, beq_iff_eq, decide_eq_true_iff]
  constructor
  · rintro rfl
    simp [fieldsOf_serviceWord]
  · rintro ⟨hop, hfunc, hcode⟩
    rw [← BitVec.eq_of_toNat_eq hcode]
    exact eq_serviceWord hop hfunc

end

/-! ## One row at most -/

/-- A row selects only words that hold its own `op`, which every mask takes whole. -/
theorem op_of_selectedBy {r : OpcodeRow} {w : Word} (hr : r ∈ opcodeRows) (h : r.selectedBy w = true) :
    (fieldsOf .msbFirst r.pattern).op = (fieldsOf .msbFirst w).op := by
  have hmask : ∀ r ∈ opcodeRows, bitField 26 6 r.mask = 63#6 := by decide
  rw [OpcodeRow.selectedBy, beq_iff_eq] at h
  calc (fieldsOf .msbFirst r.pattern).op
      = bitField 26 6 (w &&& r.mask) := by rw [h]; rfl
    _ = bitField 26 6 w &&& bitField 26 6 r.mask := BitVec.extractLsb'_and
    _ = (fieldsOf .msbFirst w).op := by rw [hmask r hr, and_six_ones]; rfl

/-- Two rows that no word can select both: they fix a bit of both masks differently. -/
def RowsConflict (r r' : OpcodeRow) : Prop := r.pattern &&& r'.mask ≠ r'.pattern &&& r.mask

/-- Any two rows of the table conflict (R91). -/
theorem opcodeRows_conflict : opcodeRows.Pairwise RowsConflict := by
  unfold RowsConflict
  decide

/-- A word selects at most one row (R91). -/
theorem eq_of_selectedBy {r r' : OpcodeRow} {w : Word} (hr : r ∈ opcodeRows) (hr' : r' ∈ opcodeRows)
    (h : r.selectedBy w = true) (h' : r'.selectedBy w = true) : r = r' := by
  have hsymm : Std.Symm RowsConflict := ⟨fun _ _ hconflict => hconflict.symm⟩
  rw [OpcodeRow.selectedBy, beq_iff_eq] at h h'
  by_contra hne
  refine opcodeRows_conflict.forall hr hr' hne ?_
  rw [← h, ← h', BitVec.and_assoc, BitVec.and_assoc, BitVec.and_comm r.mask]

/-! ## The decoder's answer against the table -/

/-- What the table says of a decoder's answer to a word: an instruction has its own row, an error has none (R90, R97). -/
def AgreesWithTable (w : Word) (o : Except DecodeError Instr) : Prop :=
  match o with
  | .ok i => ∃ r ∈ opcodeRows, r.mnemonic = i.mnemonic ∧ r.selectedBy w = true
  | .error _ => ∀ r ∈ opcodeRows, r.selectedBy w = false

section agrees

variable {w : Word} {n : Nat} {i : Instr}

/-- An `op` with a row of its own. -/
theorem agrees_of_op (hop : (fieldsOf .msbFirst w).op.toNat = n) (hr : opRow i.mnemonic (.ofNat 6 n) ∈ opcodeRows) :
    AgreesWithTable w (.ok i) :=
  ⟨_, hr, rfl, by subst hop; simp⟩

/-- A `func` of Table 3. -/
theorem agrees_of_func (hop : (fieldsOf .msbFirst w).op.toNat = 0) (hfunc : (fieldsOf .msbFirst w).func.toNat = n)
    (hr : funcRow i.mnemonic (.ofNat 6 n) ∈ opcodeRows) : AgreesWithTable w (.ok i) :=
  ⟨_, hr, rfl, by subst hfunc; simp [hop]⟩

/-- A `code` of Table 6. -/
theorem agrees_of_code (hop : (fieldsOf .msbFirst w).op.toNat = 0) (hfunc : (fieldsOf .msbFirst w).func.toNat = 12)
    (hcode : (fieldsOf .msbFirst w).code.toNat = n) (hr : codeRow i.mnemonic (.ofNat 20 n) ∈ opcodeRows) :
    AgreesWithTable w (.ok i) :=
  ⟨_, hr, rfl, by subst hcode; simp [hop, hfunc]⟩

/-- An `op` whose only row fixes `rt`: the decoder's check of `rt` is the row's. -/
theorem agrees_requireConstant {rt : Reg} (hop : (fieldsOf .msbFirst w).op.toNat = n)
    (hr : opRtRow i.mnemonic (.ofNat 6 n) rt ∈ opcodeRows)
    (honly : ∀ r ∈ opcodeRows, (fieldsOf .msbFirst r.pattern).op.toNat = n → r = opRtRow i.mnemonic (.ofNat 6 n) rt) :
    AgreesWithTable w (requireConstant ((fieldsOf .msbFirst w).rt == rt) i (fieldsOf .msbFirst w)) := by
  unfold requireConstant
  split
  case isTrue hrt => exact ⟨_, hr, rfl, by subst hop; simpa using hrt⟩
  case isFalse hrt =>
    intro r hr
    rw [Bool.eq_false_iff]
    intro hsel
    rw [honly r hr (by rw [op_of_selectedBy hr hsel, hop])] at hsel
    simp_all

end agrees

/-- Table 6 (R91, R206). -/
theorem decodeService_agrees {w : Word} (hop : (fieldsOf .msbFirst w).op.toNat = 0)
    (hfunc : (fieldsOf .msbFirst w).func.toNat = 12) :
    AgreesWithTable w (decodeService (fieldsOf .msbFirst w)) := by
  unfold decodeService
  split
  case h_10 =>
    simp_all [AgreesWithTable, opcodeRows_eq]
  all_goals exact agrees_of_code hop hfunc ‹_› (by simp only [Instr.mnemonic]; decide)

/-- Table 3 (R91). -/
theorem decodeRegister_agrees {w : Word} (hop : (fieldsOf .msbFirst w).op.toNat = 0) :
    AgreesWithTable w (decodeRegister (fieldsOf .msbFirst w)) := by
  unfold decodeRegister
  split
  case h_5 hfunc =>
    unfold requireConstant
    split
    case isTrue hzero => exact ⟨funcRsRow "JR" 8, by decide, rfl, by simp_all⟩
    case isFalse hzero => simpa [AgreesWithTable, opcodeRows_eq, hop, hfunc] using hzero
  case h_6 hfunc => exact decodeService_agrees hop hfunc
  case h_21 =>
    simp_all [AgreesWithTable, opcodeRows_eq]
  all_goals exact agrees_of_func hop ‹_› (by simp only [Instr.mnemonic]; decide)

/-- Tables 4 and 5, and Table 3 where `op` is 0 (R91). -/
theorem decode_agrees (w : Word) : AgreesWithTable w (decode w) := by
  rw [decode_eq, decodeFields]
  split
  case h_1 hop => exact decodeRegister_agrees hop
  case h_2 | h_7 | h_8 | h_9 | h_14 | h_17 | h_18 | h_19 =>
    exact agrees_requireConstant ‹_› (by simp only [Instr.mnemonic]; decide) (by simp only [Instr.mnemonic]; decide)
  case h_26 =>
    simp_all [AgreesWithTable, opcodeRows_eq]
  all_goals exact agrees_of_op ‹_› (by simp only [Instr.mnemonic]; decide)

/-- Settles O3: the row is the one the decoder's branch stands for, and no two rows select one word. -/
theorem decoderAgreesWithTheOpcodeTable : Obligations.DecoderAgreesWithTheOpcodeTable := by
  intro w
  have hagrees := decode_agrees w
  refine ⟨fun i hi => ?_, fun ⟨e, he⟩ => ?_⟩
  · rw [hi] at hagrees
    obtain ⟨r, hr, hm, hsel⟩ := hagrees
    exact ⟨r, hr, hm, hsel, fun r' hr' hsel' => eq_of_selectedBy hr' hr hsel' hsel⟩
  · rwa [he] at hagrees

end Sys2Proof
end

