-- ==== Sys2Proof/Proofs/IntegerArithmetic.lean ====
section
/-! SUPPORT. The integer arithmetic as exact arithmetic on signed values (spec R110 to R114, R151); statements O31, O34,
O35 and O25. -/

namespace Sys2Proof.Machine

/-! ## Sums and differences -/

/-- An exact result with a 32-bit signed representation is not changed by wrapping (R110). -/
theorem bmod_of_fits {n : Int} (h : outOfSigned32 n = false) : n.bmod (2 ^ 32) = n := by
  have hfits := of_decide_eq_false h
  exact Int.bmod_eq_of_le (by omega) (by omega)

theorem s32_add_of_fits {a b : Word} (h : overflowAdd a b = false) : s32 (a + b) = s32 a + s32 b :=
  (BitVec.toInt_add a b).trans (bmod_of_fits h)

theorem s32_sub_of_fits {a b : Word} (h : overflowSub a b = false) : s32 (a - b) = s32 a - s32 b :=
  BitVec.toInt_sub.trans (bmod_of_fits h)

theorem s32_w32_of_fits {n : Int} (h : outOfSigned32 n = false) : s32 (w32 n) = n :=
  (BitVec.toInt_ofInt n).trans (bmod_of_fits h)

/-- At the default, `INT_OVERFLOW = wrap`, a sum is written whether it overflows or not (R110). -/
theorem answersWrite_writeSum (d : Reg) (overflows : Bool) (v : Word) (s : State) :
    AnswersWrite d v s (.next (writeSum d overflows v s)) :=
  (writeSum_decides d v s .default overflows).1 (.inl rfl)

/-- Settles O31: the three write their sum by `writeSum`, and wrapping leaves a result that fits as it is. -/
theorem sumsWrapAndAreExactWhenTheyFit : Obligations.SumsWrapAndAreExactWhenTheyFit := by
  intro s rs rt rd i
  have hsgnExt : s32 (sgnExt i) = i.toInt := BitVec.toInt_signExtend_of_le (by decide)
  exact ⟨answersWrite_writeSum rd _ _ s, answersWrite_writeSum rd _ _ s, answersWrite_writeSum rt _ _ s,
    s32_add_of_fits, s32_sub_of_fits, fun h => hsgnExt ▸ s32_add_of_fits h⟩

/-! ## The product -/

/-- The product of two 32-bit signed values has a 64-bit signed representation (R113). -/
theorem toInt_product64 (a b : Word) : (product64 a b).toInt = s32 a * s32 b := by
  have hlow : -2 ^ 62 ≤ s32 a * s32 b := BitVec.le_toInt_mul_toInt
  have hhigh : s32 a * s32 b ≤ 2 ^ 62 := BitVec.toInt_mul_toInt_le
  exact BitVec.toInt_ofInt_eq_self (by decide) (by omega) (by omega)

/-- `MUL` puts the two halves of the product in `HI` and `LO` (R113). -/
theorem exec_mul (rs rt : Reg) (s : State) : exec (.mul rs rt) s =
    .next (s.setHiLo ((product64 (s.x rs) (s.x rt)).extractLsb' 32 32)
      ((product64 (s.x rs) (s.x rt)).extractLsb' 0 32)) :=
  rfl

/-- Settles O34: the two halves together are the product, which 64 bits hold. -/
theorem multiplyGivesTheExactSignedProduct : Obligations.MultiplyGivesTheExactSignedProduct := by
  intro s rs rt
  refine ⟨_, _, exec_mul rs rt s, ?_⟩
  rw [BitVec.extractLsb'_append_extractLsb'_eq_extractLsb' (Nat.zero_add 32).symm, BitVec.extractLsb'_eq_self,
    toInt_product64]

/-! ## Quotient and remainder -/

section division

variable {a b : Word}

theorem s32_ne_zero (h : b ≠ 0) : s32 b ≠ 0 := fun h0 => h (BitVec.toInt_inj.mp h0)

/-- Only `-2^31 / -1` has a quotient out of range (R114): a divisor beyond 1 in magnitude halves the dividend at
least. -/
theorem s32_quotient (hb : b ≠ 0) (hover : overflowDiv a b = false) : s32 (quotient a b) = (s32 a).tdiv (s32 b) := by
  have hb0 := s32_ne_zero hb
  have hne := of_decide_eq_false hover
  have hlow : -2 ^ 31 ≤ s32 a := BitVec.le_toInt a
  have hhigh : s32 a < 2 ^ 31 := BitVec.toInt_lt
  refine s32_w32_of_fits (decide_eq_false ?_)
  by_cases hone : s32 b = 1
  · rw [hone, Int.tdiv_one]
    omega
  by_cases hminus : s32 b = -1
  · rw [hminus, Int.tdiv_neg, Int.tdiv_one]
    omega
  · have habs : ((s32 a).tdiv (s32 b)).natAbs ≤ (s32 a).natAbs / 2 := by
      rw [Int.natAbs_tdiv]
      exact Nat.div_le_div_left (by omega) (by decide)
    omega

/-- A remainder is smaller than its divisor in magnitude (R114). -/
theorem natAbs_tmod_lt (n : Int) {m : Int} (hm : m ≠ 0) : (n.tmod m).natAbs < m.natAbs := by
  rw [Int.natAbs_tmod]
  exact Nat.mod_lt _ (Int.natAbs_pos.mpr hm)

theorem s32_remainder (hb : b ≠ 0) : s32 (remainder a b) = (s32 a).tmod (s32 b) := by
  have hlt := natAbs_tmod_lt (s32 a) (s32_ne_zero hb)
  have hlow : -2 ^ 31 ≤ s32 b := BitVec.le_toInt b
  have hhigh : s32 b < 2 ^ 31 := BitVec.toInt_lt
  exact s32_w32_of_fits (decide_eq_false (by omega))

theorem tmod_nonpos {n : Int} (m : Int) (hn : n ≤ 0) : n.tmod m ≤ 0 := by
  have hneg : 0 ≤ (-n).tmod m := Int.tmod_nonneg m (by omega)
  rw [Int.neg_tmod] at hneg
  omega

end division

section divExec

variable {rs rt : Reg} {s : State}

/-- `DIV` by zero raises and does nothing else (R114, R242). -/
theorem exec_div_zero (h : s.x rt = 0) : exec (.div rs rt) s = .next (raise (.divideByZero (s.pc - 4)) s) :=
  if_pos h

/-- `DIV` puts the remainder in `HI` and the quotient in `LO` (R114). -/
theorem exec_div_quotient (h : s.x rt ≠ 0) (hover : overflowDiv (s.x rs) (s.x rt) = false) :
    exec (.div rs rt) s = .next (s.setHiLo (remainder (s.x rs) (s.x rt)) (quotient (s.x rs) (s.x rt))) :=
  (if_neg h).trans (if_neg (Bool.eq_false_iff.mp hover))

end divExec

/-- Settles O35: the two words hold C's quotient and remainder, and the two cases left raise. -/
theorem divideGivesQuotientAndRemainder : Obligations.DivideGivesQuotientAndRemainder := by
  intro s rs rt
  refine ⟨fun hm hne => ?exact, fun hm => exec_div_zero hm,
    fun hn hm => (execDiv_overflow hn hm .default).2 rfl⟩
  case exact =>
    have hover : overflowDiv (s.x rs) (s.x rt) = false := decide_eq_false hne
    refine ⟨_, _, exec_div_quotient hm hover, ?_⟩
    rw [s32_quotient hm hover, s32_remainder hm]
    exact ⟨(Int.tdiv_mul_add_tmod _ _).symm, natAbs_tmod_lt _ (s32_ne_zero hm), Int.tmod_nonneg _, tmod_nonpos _⟩

/-! ## What MUL and DIV leave unchanged -/

/-- Nothing of `s` has changed in `t` but `HI` and `LO`, and what an error adds. -/
def HiLoOnly (s t : State) : Prop :=
  RegistersKept [] s t ∧ MemoryKept s t ∧ StreamsKept s t ∧ AtMostOneError s t ∧
  t.pc = s.pc ∧ t.ir = s.ir ∧ t.stackBottom = s.stackBottom ∧ t.dataLength = s.dataLength ∧ t.draws = s.draws

theorem hiLoOnly_setHiLo (s : State) (hi lo : Word) : HiLoOnly s (s.setHiLo hi lo) :=
  ⟨⟨fun _ _ => rfl, rfl⟩, fun _ => rfl, ⟨rfl, rfl, rfl⟩, .inl ⟨rfl, rfl⟩, rfl, rfl, rfl, rfl, rfl⟩

theorem hiLoOnly_raise (s : State) (e : MachineError) : HiLoOnly s (raise e s) :=
  ⟨⟨fun _ _ => rfl, rfl⟩, fun _ => rfl, ⟨rfl, rfl, rfl⟩, .inr ⟨e, rfl, rfl⟩, rfl, rfl, rfl, rfl, rfl⟩

/-- Settles O25: `MUL` writes `HI` and `LO`, and `DIV` writes them or raises. -/
theorem multiplyAndDivideChangeHiAndLoOnly : Obligations.MultiplyAndDivideChangeHiAndLoOnly := by
  rintro i s t ⟨rs, rt, rfl | rfl⟩ h
  · cases (exec_mul rs rt s).symm.trans h
    exact hiLoOnly_setHiLo s _ _
  · rcases execDiv_cases rs rt s with ⟨e, hx⟩ | ⟨hi, lo, hx⟩ <;> cases hx.symm.trans h
    · exact hiLoOnly_raise s e
    · exact hiLoOnly_setHiLo s hi lo

end Sys2Proof.Machine
end

