-- ==== Sys2Proof/Proofs/IntegerResults.lean ====
section
/-! SUPPORT. The register-format integer instructions that write one result: their words and what they write (spec R115
to R122); and the words written out in the rules; statements O32, O33, O29, O36 and O5. -/

namespace Sys2Proof.Machine

/-- What Table 3 answers for the operands of a register-format word is what the word decodes to (R81, R91). -/
theorem decode_registerWord_eq_ok {rs rt rd : Reg} {h : Nat} {f : BitVec 6} {i : Instr}
    (hread : ∀ code immed addr, decodeRegister ⟨0, rs, rt, rd, h % 32, f, code, immed, addr⟩ = .ok i) :
    decode (registerWord fieldOrder rs rt rd h f) = .ok i := by
  obtain ⟨code, immed, addr, hw⟩ := decode_registerWord rs rt rd h f
  exact hw.trans (hread code immed addr)

/-! ## Shifts -/

/-- A logical right shift divides the unsigned contents (R122). -/
theorem ofNat_div_two_pow (v : Word) (h : Nat) : BitVec.ofNat 32 (u32 v / 2 ^ h) = v >>> h := by
  apply BitVec.eq_of_toNat_eq
  have hlt : v.toNat / 2 ^ h < 2 ^ 32 := (Nat.div_le_self _ _).trans_lt v.isLt
  rw [BitVec.toNat_ofNat, BitVec.toNat_ushiftRight, Nat.shiftRight_eq_div_pow, Nat.mod_eq_of_lt hlt]

/-- A left shift multiplies, modulo `2^32` (R121). -/
theorem ofNat_mul_two_pow (v : Word) (h : Nat) : BitVec.ofNat 32 (u32 v * 2 ^ h) = v <<< h := by
  apply BitVec.eq_of_toNat_eq
  rw [BitVec.toNat_ofNat, BitVec.toNat_shiftLeft, Nat.shiftLeft_eq]

/-- Settles O32: the amount is read whole, and the shift is the division. -/
theorem shiftRightIsLogical : Obligations.ShiftRightIsLogical := by
  intro s rs rt rd h hh
  rw [ofNat_div_two_pow]
  exact ⟨decode_registerWord_eq_ok fun _ _ _ => congrArg (Except.ok <| Instr.srl rt rd ·) (Nat.mod_eq_of_lt hh),
    answersWrite_writeReg rd _ s .default⟩

/-- Settles O33: the amount is read whole, and the shift is the multiplication modulo `2^32`. -/
theorem shiftLeftLosesTheHighBits : Obligations.ShiftLeftLosesTheHighBits := by
  intro s rs rt rd h hh
  rw [ofNat_mul_two_pow]
  exact ⟨decode_registerWord_eq_ok fun _ _ _ => congrArg (Except.ok <| Instr.sll rt rd ·) (Nat.mod_eq_of_lt hh),
    answersWrite_writeReg rd _ s .default⟩

/-! ## Bitwise operations and moves -/

/-- Settles O29: Table 3 reads the three registers and not `shift`, and the result is one register write. -/
theorem bitwiseInstructionsWriteTheirResult : Obligations.BitwiseInstructionsWriteTheirResult := by
  intro s rs rt rd h
  have hwrite {v : Word} := answersWrite_writeReg rd v s .default
  exact ⟨⟨decode_registerWord_eq_ok fun _ _ _ => rfl, hwrite⟩, ⟨decode_registerWord_eq_ok fun _ _ _ => rfl, hwrite⟩,
    ⟨decode_registerWord_eq_ok fun _ _ _ => rfl, hwrite⟩, ⟨decode_registerWord_eq_ok fun _ _ _ => rfl, hwrite⟩⟩

/-- Settles O36: Table 3 reads `rd` and no other field, and `HI` or `LO` is written whole. -/
theorem movesFromHiAndLo : Obligations.MovesFromHiAndLo := by
  intro s rs rt rd h
  have hwrite {v : Word} := answersWrite_writeReg rd v s .default
  exact ⟨⟨decode_registerWord_eq_ok fun _ _ _ => rfl, hwrite⟩, ⟨decode_registerWord_eq_ok fun _ _ _ => rfl, hwrite⟩⟩

/-! ## The words written out in the rules -/

/-- The encoder's word of a well-formed instruction decodes to it (R90, R91). -/
theorem decode_of_encode_eq {w : Word} {i : Instr} (hw : encode i = w) (hwf : i.WellFormed = true) :
    decode w = .ok i :=
  hw ▸ decodeOfEncodeIsTheInstruction i hwf

/-- Settles O5: each of the words is the encoder's. -/
theorem writtenWordsDecode : Obligations.WrittenWordsDecode :=
  ⟨decode_of_encode_eq rfl rfl, decode_of_encode_eq rfl rfl, decode_of_encode_eq rfl rfl, decode_of_encode_eq rfl rfl,
    decode_of_encode_eq rfl rfl, decode_of_encode_eq rfl rfl, decode_of_encode_eq rfl rfl, decode_of_encode_eq rfl rfl,
    decode_of_encode_eq rfl rfl, decode_of_encode_eq rfl rfl, decode_of_encode_eq rfl rfl⟩

end Sys2Proof.Machine
end

