-- ==== Sys2Proof/Proofs/FloatData.lean ====
section
/-! SUPPORT. A datum as its sign and its magnitude, the number in its bits 30:0, and the value of a magnitude in units of
`2^-149` (spec R138, R139); statement O44. -/

namespace Sys2Proof.Machine

/-! ## Sign and magnitude -/

/-- Bits 30:0 of a datum: its exponent and its fraction read as one number, which orders the data of one sign. -/
def f32Magnitude (v : Word) : Nat := (v.extractLsb' 0 31).toNat

/-- The magnitude of an infinity (R138). -/
def infMagnitude : Nat := 255 * 2 ^ 23

section datum

variable {v w : Word}

theorem f32Magnitude_eq_mod (v : Word) : f32Magnitude v = v.toNat % 2 ^ 31 := by
  simp [f32Magnitude, BitVec.extractLsb'_toNat]

theorem f32Magnitude_lt (v : Word) : f32Magnitude v < 2 ^ 31 := (v.extractLsb' 0 31).isLt

theorem f32Exponent_eq (v : Word) : f32Exponent v = f32Magnitude v / 2 ^ 23 := by
  rw [f32Exponent, BitVec.extractLsb'_toNat, Nat.shiftRight_eq_div_pow, f32Magnitude_eq_mod]
  omega

theorem f32Fraction_eq (v : Word) : f32Fraction v = f32Magnitude v % 2 ^ 23 := by
  rw [f32Fraction, BitVec.extractLsb'_toNat, Nat.shiftRight_zero, f32Magnitude_eq_mod]
  omega

theorem f32Sign_eq (v : Word) : f32Sign v = decide (2 ^ 31 ≤ v.toNat) := BitVec.msb_eq_decide v

theorem eq_of_sign_of_magnitude (hs : f32Sign v = f32Sign w) (hm : f32Magnitude v = f32Magnitude w) : v = w := by
  apply BitVec.eq_of_toNat_eq
  have hv := v.isLt
  have hw := w.isLt
  rw [f32Sign_eq, f32Sign_eq, decide_eq_decide] at hs
  rw [f32Magnitude_eq_mod, f32Magnitude_eq_mod] at hm
  omega

theorem f32IsNaN_iff : f32IsNaN v = true ↔ infMagnitude < f32Magnitude v := by
  have hlt := f32Magnitude_lt v
  simp only [f32IsNaN, f32Exponent_eq, f32Fraction_eq, Bool.and_eq_true, beq_iff_eq, bne_iff_ne, infMagnitude]
  omega

theorem f32IsNaN_eq_false_iff : f32IsNaN v = false ↔ f32Magnitude v ≤ infMagnitude := by
  rw [Bool.eq_false_iff, ne_eq, f32IsNaN_iff, not_lt]

theorem f32IsInf_iff : f32IsInf v = true ↔ f32Magnitude v = infMagnitude := by
  simp only [f32IsInf, f32Exponent_eq, f32Fraction_eq, Bool.and_eq_true, beq_iff_eq, infMagnitude]
  omega

theorem f32IsInf_eq_false_iff : f32IsInf v = false ↔ f32Magnitude v ≠ infMagnitude := by
  rw [Bool.eq_false_iff, ne_eq, f32IsInf_iff]

theorem f32IsZero_iff : f32IsZero v = true ↔ f32Magnitude v = 0 := by
  rw [f32IsZero, beq_iff_eq, f32Magnitude, BitVec.toNat_eq]
  rfl

theorem f32Magnitude_lt_infMagnitude (hnan : f32IsNaN v = false) (hinf : f32IsInf v = false) :
    f32Magnitude v < infMagnitude :=
  lt_of_le_of_ne (f32IsNaN_eq_false_iff.mp hnan) (f32IsInf_eq_false_iff.mp hinf)

/-- A packed datum has the sign and the magnitude given, up to that of an infinity (R139). -/
theorem toNat_f32Pack (sign : Bool) (m : Nat) :
    (f32Pack sign m).toNat = (if sign then 2 ^ 31 else 0) + min m infMagnitude := by
  rw [f32Pack, BitVec.toNat_ofNat, infMagnitude]
  cases sign <;> simp only [Bool.false_eq_true, if_true, if_false] <;> omega

@[simp] theorem f32Sign_f32Pack (sign : Bool) (m : Nat) : f32Sign (f32Pack sign m) = sign := by
  rw [f32Sign_eq, toNat_f32Pack, infMagnitude]
  cases sign <;> simp

@[simp] theorem f32Magnitude_f32Pack (sign : Bool) (m : Nat) :
    f32Magnitude (f32Pack sign m) = min m infMagnitude := by
  rw [f32Magnitude_eq_mod, toNat_f32Pack, infMagnitude]
  cases sign <;> simp only [Bool.false_eq_true, if_true, if_false] <;> omega

theorem f32IsNaN_f32Pack (sign : Bool) (m : Nat) : f32IsNaN (f32Pack sign m) = false := by
  rw [f32IsNaN_eq_false_iff, f32Magnitude_f32Pack]
  exact min_le_right _ _

theorem f32IsInf_f32Pack (sign : Bool) (m : Nat) : f32IsInf (f32Pack sign m) = true ↔ infMagnitude ≤ m := by
  rw [f32IsInf_iff, f32Magnitude_f32Pack, min_eq_right_iff]

end datum

/-! ## The value of a magnitude -/

/-- The value of a magnitude in units of `2^-149`: `f32Units` of the data that have it, continued beyond them. -/
def magnitudeUnits (m : Nat) : Nat :=
  if m / 2 ^ 23 = 0 then m % 2 ^ 23 else (2 ^ 23 + m % 2 ^ 23) * 2 ^ (m / 2 ^ 23 - 1)

theorem f32Units_eq (v : Word) : f32Units v = magnitudeUnits (f32Magnitude v) := by
  rw [f32Units, f32Exponent_eq, f32Fraction_eq, magnitudeUnits]

/-- `c` is a significand of binade `k`: its leading bit is bit 23, or the binade is the lowest; `2^24` is the next
binade's first. -/
def IsSignificand (k c : Nat) : Prop := (k = 0 ∨ 2 ^ 23 ≤ c) ∧ c ≤ 2 ^ 24

/-- Counting up from a binade's first magnitude, each one adds `2^k` units; so does the step to the next binade. -/
theorem magnitudeUnits_of_isSignificand {k c : Nat} (h : IsSignificand k c) :
    magnitudeUnits (k * 2 ^ 23 + c) = c * 2 ^ k := by
  obtain ⟨hlow, hhigh⟩ := h
  unfold magnitudeUnits
  rcases lt_or_ge c (2 ^ 23) with hc | hc
  · obtain rfl : k = 0 := by omega
    rw [if_pos (by omega)]
    omega
  rw [if_neg (by omega)]
  rcases hhigh.lt_or_eq with hc' | rfl
  · rw [show (k * 2 ^ 23 + c) / 2 ^ 23 - 1 = k by omega, show 2 ^ 23 + (k * 2 ^ 23 + c) % 2 ^ 23 = c by omega]
  · rw [show (k * 2 ^ 23 + 2 ^ 24) / 2 ^ 23 - 1 = k + 1 by omega,
      show 2 ^ 23 + (k * 2 ^ 23 + 2 ^ 24) % 2 ^ 23 = 2 ^ 23 by omega]
    ring

/-- Every magnitude has a binade, in which the next magnitude stands too. -/
theorem exists_binade (m : Nat) :
    ∃ k c, IsSignificand k c ∧ IsSignificand k (c + 1) ∧ m = k * 2 ^ 23 + c := by
  refine ⟨m / 2 ^ 23 - 1, m - (m / 2 ^ 23 - 1) * 2 ^ 23, ⟨?_, ?_⟩, ⟨?_, ?_⟩, ?_⟩ <;> omega

theorem magnitudeUnits_strictMono : StrictMono magnitudeUnits := by
  refine strictMono_nat_of_lt_succ fun m => ?_
  obtain ⟨k, c, hc, hc', rfl⟩ := exists_binade m
  rw [magnitudeUnits_of_isSignificand hc, add_assoc, magnitudeUnits_of_isSignificand hc']
  exact Nat.mul_lt_mul_of_pos_right (Nat.lt_succ_self c) (by positivity)

theorem magnitudeUnits_zero : magnitudeUnits 0 = 0 := rfl

theorem magnitudeUnits_eq_zero {m : Nat} : magnitudeUnits m = 0 ↔ m = 0 :=
  magnitudeUnits_strictMono.injective.eq_iff (b := 0)

theorem f32Units_eq_zero {v : Word} : f32Units v = 0 ↔ f32IsZero v = true := by
  rw [f32Units_eq, magnitudeUnits_eq_zero, f32IsZero_iff]

/-! ## The signed value -/

theorem natAbs_f32Value (v : Word) : (f32Value v).natAbs = f32Units v := by
  unfold f32Value
  split <;> omega

/-- The value of a packed magnitude, up to that of an infinity (R138). -/
theorem f32Value_f32Pack (sign : Bool) {m : Nat} (hm : m ≤ infMagnitude) :
    f32Value (f32Pack sign m) = if sign then -(magnitudeUnits m : Int) else magnitudeUnits m := by
  rw [f32Value, f32Units_eq, f32Sign_f32Pack, f32Magnitude_f32Pack, min_eq_left hm]

/-- Data of one value are one datum, or zeros (R141). -/
theorem f32Value_eq_iff {a b : Word} :
    f32Value a = f32Value b ↔ a = b ∨ (f32IsZero a = true ∧ f32IsZero b = true) := by
  rw [← f32Units_eq_zero, ← f32Units_eq_zero]
  refine ⟨fun h => ?_, ?_⟩
  · have hunits : f32Units a = f32Units b := by rw [← natAbs_f32Value a, h, natAbs_f32Value]
    by_cases hsign : f32Sign a = f32Sign b
    · rw [f32Units_eq, f32Units_eq] at hunits
      exact .inl (eq_of_sign_of_magnitude hsign (magnitudeUnits_strictMono.injective hunits))
    · have hsign' : f32Sign b = !f32Sign a := Bool.eq_not.mpr (Ne.symm hsign)
      rw [f32Value, f32Value, hsign'] at h
      cases ha : f32Sign a <;> simp [ha] at h <;> omega
  · rintro (rfl | ⟨ha, hb⟩)
    · rfl
    · simp [f32Value, ha, hb]

/-- The infinities lie beyond every finite datum (R141). -/
theorem natAbs_f32Value_lt {b : Word} (hnan : f32IsNaN b = false) (hinf : f32IsInf b = false) :
    (f32Value b).natAbs < magnitudeUnits infMagnitude := by
  rw [natAbs_f32Value, f32Units_eq]
  exact magnitudeUnits_strictMono (f32Magnitude_lt_infMagnitude hnan hinf)

/-! ## Comparisons -/

section compare

variable {a b : Word}

theorem f32Compare_eq_true {rel : Int → Int → Bool} :
    f32Compare rel a b = true ↔ f32IsNaN a = false ∧ f32IsNaN b = false ∧ rel (f32Value a) (f32Value b) = true := by
  simp [f32Compare, and_assoc]

theorem f32Compare_of_nan (h : f32IsNaN a = true ∨ f32IsNaN b = true) (rel : Int → Int → Bool) :
    f32Compare rel a b = false := by
  rcases h with h | h <;> simp [f32Compare, h]

theorem f32Compare_of_not_nan (ha : f32IsNaN a = false) (hb : f32IsNaN b = false) (rel : Int → Int → Bool) :
    f32Compare rel a b = rel (f32Value a) (f32Value b) := by
  simp [f32Compare, ha, hb]

theorem numerics_eq (a b : Word) : numerics.eq a b = f32Compare (fun x y => decide (x = y)) a b := rfl
theorem numerics_lt (a b : Word) : numerics.lt a b = f32Compare (fun x y => decide (x < y)) a b := rfl
theorem numerics_le (a b : Word) : numerics.le a b = f32Compare (fun x y => decide (x ≤ y)) a b := rfl
@[simp] theorem numerics_isNaN (a : Word) : numerics.isNaN a = f32IsNaN a := rfl
@[simp] theorem numerics_isZero (a : Word) : numerics.isZero a = f32IsZero a := rfl

end compare

/-- Settles O44: a comparison of two data that are no NaNs is the integers' comparison of their values. -/
theorem floatComparisonsOrderTheData : Obligations.FloatComparisonsOrderTheData := by
  unfold Obligations.FloatComparisonsOrderTheData
  simp only [numerics_eq, numerics_lt, numerics_le, numerics_isNaN, numerics_isZero]
  refine ⟨fun a b => ⟨?eq, fun h => ⟨f32Compare_of_nan h _, f32Compare_of_nan h _, f32Compare_of_nan h _⟩, ?order⟩,
    fun a b c hab hbc => ?trans, fun b hnan hinf => ?infinities⟩
  case eq =>
    rw [← f32Value_eq_iff, f32Compare_eq_true, decide_eq_true_iff]
  case order =>
    intro ha hb
    simp only [f32Compare_of_not_nan ha hb, f32Compare_of_not_nan hb ha, decide_eq_true_eq, decide_eq_false_iff_not,
      ← Bool.decide_or, decide_eq_decide, true_and]
    exact ⟨le_iff_lt_or_eq, by omega⟩
  case trans =>
    obtain ⟨ha, -, hlt⟩ := f32Compare_eq_true.mp hab
    obtain ⟨-, hc, hlt'⟩ := f32Compare_eq_true.mp hbc
    rw [decide_eq_true_iff] at hlt hlt'
    exact f32Compare_eq_true.mpr ⟨ha, hc, decide_eq_true (hlt.trans hlt')⟩
  case infinities =>
    have hlt := natAbs_f32Value_lt hnan hinf
    have hneg : f32Value 0xFF800000 = -(magnitudeUnits infMagnitude : Int) := by decide
    have hpos : f32Value 0x7F800000 = (magnitudeUnits infMagnitude : Int) := by decide
    rw [hneg, hpos]
    omega

end Sys2Proof.Machine
end

