-- ==== Sys2Proof/Proofs/FloatRounding.lean ====
section
/-! SUPPORT. Rounding to nearest even: on the line of magnitudes first, then for data (spec R139); statement O43. -/

namespace Sys2Proof.Machine

/-! ## The nearest magnitude -/

/-- No magnitude's value is nearer `n / d` than that of `m`, and one as near leaves `m` even. -/
def IsNearestMagnitude (n d m : Nat) : Prop :=
  ∀ y : Nat, ((n : Int) - (magnitudeUnits m * d : Nat)).natAbs ≤ ((n : Int) - (magnitudeUnits y * d : Nat)).natAbs ∧
    (((n : Int) - (magnitudeUnits m * d : Nat)).natAbs = ((n : Int) - (magnitudeUnits y * d : Nat)).natAbs →
      y ≠ m → m % 2 = 0)

section nearest

variable {n d : Nat}

theorem magnitudeUnits_mul_lt (hd : 0 < d) {m y : Nat} (h : m < y) : magnitudeUnits m * d < magnitudeUnits y * d :=
  Nat.mul_lt_mul_of_pos_right (magnitudeUnits_strictMono h) hd

theorem magnitudeUnits_mul_le {m y : Nat} (h : m ≤ y) : magnitudeUnits m * d ≤ magnitudeUnits y * d :=
  Nat.mul_le_mul_right d (magnitudeUnits_strictMono.monotone h)

/-- A value at or below the middle between two neighbours goes down, in the middle only to an even one. -/
theorem isNearestMagnitude_lower (hd : 0 < d) {m : Nat} (hlow : magnitudeUnits m * d ≤ n)
    (hmiddle : 2 * n ≤ magnitudeUnits m * d + magnitudeUnits (m + 1) * d)
    (htie : 2 * n = magnitudeUnits m * d + magnitudeUnits (m + 1) * d → m % 2 = 0) : IsNearestMagnitude n d m := by
  intro y
  rcases lt_trichotomy y m with hy | rfl | hy
  · have := magnitudeUnits_mul_lt hd hy
    omega
  · omega
  · have : magnitudeUnits (m + 1) * d ≤ magnitudeUnits y * d := magnitudeUnits_mul_le hy
    omega

/-- A value at or above the middle between two neighbours goes up, in the middle only to an even one. -/
theorem isNearestMagnitude_upper (hd : 0 < d) {m : Nat} (hhigh : n ≤ magnitudeUnits (m + 1) * d)
    (hmiddle : magnitudeUnits m * d + magnitudeUnits (m + 1) * d ≤ 2 * n)
    (htie : 2 * n = magnitudeUnits m * d + magnitudeUnits (m + 1) * d → (m + 1) % 2 = 0) :
    IsNearestMagnitude n d (m + 1) := by
  intro y
  rcases lt_trichotomy y (m + 1) with hy | rfl | hy
  · have : magnitudeUnits y * d ≤ magnitudeUnits m * d := magnitudeUnits_mul_le (Nat.le_of_lt_succ hy)
    omega
  · omega
  · have := magnitudeUnits_mul_lt hd hy
    omega

/-- The nearest magnitude is an infinity's or beyond exactly from the middle between the infinity and its predecessor:
the predecessor is odd. -/
theorem IsNearestMagnitude.infMagnitude_le_iff {m : Nat} (hd : 0 < d) (h : IsNearestMagnitude n d m) :
    infMagnitude ≤ m ↔ (2 ^ 25 - 1) * 2 ^ 252 * d ≤ n := by
  have hinf : magnitudeUnits infMagnitude * d = 2 ^ 25 * (2 ^ 252 * d) := by
    rw [show magnitudeUnits infMagnitude = 2 ^ 25 * 2 ^ 252 by decide, mul_assoc]
  have hpred : magnitudeUnits (infMagnitude - 1) * d = (2 ^ 25 - 2) * (2 ^ 252 * d) := by
    rw [show magnitudeUnits (infMagnitude - 1) = (2 ^ 25 - 2) * 2 ^ 252 by decide, mul_assoc]
  rw [mul_assoc]
  generalize 2 ^ 252 * d = p at hinf hpred ⊢
  rcases le_or_gt infMagnitude m with hm | hm
  · have hunits : magnitudeUnits infMagnitude * d ≤ magnitudeUnits m * d := magnitudeUnits_mul_le hm
    obtain ⟨hle, -⟩ := h (infMagnitude - 1)
    exact iff_of_true hm (by omega)
  · obtain ⟨hle, htie⟩ := h infMagnitude
    refine iff_of_false hm.not_ge fun hn => ?_
    rcases (Nat.le_sub_one_of_lt hm).lt_or_eq with hm' | rfl
    · have := magnitudeUnits_mul_lt hd hm'
      omega
    · have hodd : (infMagnitude - 1) % 2 = 1 := rfl
      have := magnitudeUnits_mul_lt hd hm
      omega

/-! ## The model's rounding -/

/-- The quotient, and which of it and its successor is taken, on which side of the middle the value lies. -/
theorem roundHalfEven_cases (n d : Nat) :
    (roundHalfEven n d = n / d ∧ 2 * n ≤ n / d * d + (n / d + 1) * d ∧
      (2 * n = n / d * d + (n / d + 1) * d → n / d % 2 = 0)) ∨
    (roundHalfEven n d = n / d + 1 ∧ n / d * d + (n / d + 1) * d ≤ 2 * n ∧
      (2 * n = n / d * d + (n / d + 1) * d → (n / d + 1) % 2 = 0)) := by
  have hn : n / d * d + n % d = n := Nat.div_add_mod' n d
  rw [add_one_mul]
  unfold roundHalfEven
  dsimp only
  split <;> omega

/-- The magnitude `f32Round` packs: the quotient in the binade of its leading bit, rounded. -/
def roundMagnitude (n d : Nat) : Nat :=
  f32Scale (n / d) * 2 ^ 23 + roundHalfEven n (d * 2 ^ f32Scale (n / d))

theorem f32Round_eq_pack (sign : Bool) (n d : Nat) : f32Round sign n d = f32Pack sign (roundMagnitude n d) := rfl

/-- A value in units, cut to the binade of its leading bit, is a significand, and so is the next number. -/
theorem isSignificand_div_scale (q : Nat) :
    IsSignificand (f32Scale q) (q / 2 ^ f32Scale q) ∧ IsSignificand (f32Scale q) (q / 2 ^ f32Scale q + 1) := by
  have hhigh : q / 2 ^ f32Scale q < 2 ^ 24 := by
    rw [Nat.div_lt_iff_lt_mul (by positivity), ← pow_add]
    exact Nat.lt_log2_self.trans_le (Nat.pow_le_pow_right (by decide) (by rw [f32Scale]; omega))
  have hlow : f32Scale q = 0 ∨ 2 ^ 23 ≤ q / 2 ^ f32Scale q := by
    refine or_iff_not_imp_left.mpr fun hk => ?_
    have hq : q ≠ 0 := by
      rintro rfl
      exact hk rfl
    rw [Nat.le_div_iff_mul_le (by positivity), ← pow_add,
      show 23 + f32Scale q = Nat.log2 q by rw [f32Scale] at hk ⊢; omega]
    exact Nat.log2_self_le hq
  exact ⟨⟨hlow, hhigh.le⟩, hlow.imp_right Nat.le_succ_of_le, hhigh⟩

/-- A magnitude is as even as its significand. -/
theorem mod_two_of_binade (k c : Nat) : (k * 2 ^ 23 + c) % 2 = c % 2 := by omega

/-- Rounding the significand of a binade gives the nearest magnitude: the two neighbours of the value stand in it. -/
theorem isNearestMagnitude_binade (hd : 0 < d) {k : Nat} (hsig : IsSignificand k (n / (d * 2 ^ k)))
    (hsig' : IsSignificand k (n / (d * 2 ^ k) + 1)) :
    IsNearestMagnitude n d (k * 2 ^ 23 + roundHalfEven n (d * 2 ^ k)) := by
  have hunits := magnitudeUnits_of_isSignificand hsig
  have hunits' := magnitudeUnits_of_isSignificand hsig'
  have hscale (c : Nat) : c * (d * 2 ^ k) = c * 2 ^ k * d := by ring
  have hlow := Nat.div_mul_le_self n (d * 2 ^ k)
  have hhigh := (Nat.lt_div_mul_add (show 0 < d * 2 ^ k by positivity) (a := n)).le
  have hcases := roundHalfEven_cases n (d * 2 ^ k)
  rw [← add_assoc] at hunits'
  rw [hscale, ← hunits] at hlow
  rw [← add_one_mul, hscale, ← hunits'] at hhigh
  rw [hscale, hscale, ← hunits, ← hunits'] at hcases
  rcases hcases with ⟨hround, hmiddle, htie⟩ | ⟨hround, hmiddle, htie⟩ <;> rw [hround]
  · exact isNearestMagnitude_lower hd hlow hmiddle fun h => (mod_two_of_binade k _).trans (htie h)
  · rw [← add_assoc]
    refine isNearestMagnitude_upper hd hhigh hmiddle fun h => ?_
    rw [add_assoc, mod_two_of_binade, htie h]

/-- The model's rounding gives the nearest magnitude (R139). -/
theorem isNearestMagnitude_roundMagnitude (hd : 0 < d) : IsNearestMagnitude n d (roundMagnitude n d) := by
  obtain ⟨hsig, hsig'⟩ := isSignificand_div_scale (n / d)
  rw [Nat.div_div_eq_div_mul] at hsig hsig'
  exact isNearestMagnitude_binade hd hsig hsig'

end nearest

/-! ## Rounded data -/

/-- The datum packed from the nearest magnitude is the value rounded (R139). -/
theorem isRounded_f32Pack {n d m : Nat} (sign : Bool) (hd : 0 < d) (h : IsNearestMagnitude n d m) :
    IsRounded sign n d (f32Pack sign m) := by
  refine ⟨f32Sign_f32Pack sign m, f32IsNaN_f32Pack sign m, ?inf, fun hfinite y _ _ => ?nearest⟩
  case inf =>
    rw [f32IsInf_f32Pack]
    exact h.infMagnitude_le_iff hd
  case nearest =>
    rw [Bool.eq_false_iff, ne_eq, f32IsInf_f32Pack, not_le] at hfinite
    have hm : f32Magnitude (f32Pack sign m) = m := by rw [f32Magnitude_f32Pack, min_eq_left hfinite.le]
    obtain ⟨hle, htie⟩ := h (f32Magnitude y)
    rw [f32Fraction_eq, f32Units_eq, f32Units_eq, hm, ← Nat.cast_mul, ← Nat.cast_mul]
    refine ⟨hle, fun heq hne => ?_⟩
    have := htie heq (ne_of_apply_ne _ hne)
    omega

theorem isRounded_f32Round (sign : Bool) {n d : Nat} (hd : 0 < d) : IsRounded sign n d (f32Round sign n d) :=
  f32Round_eq_pack sign n d ▸ isRounded_f32Pack sign hd (isNearestMagnitude_roundMagnitude hd)

/-- Settles O43: the rounded magnitude is the nearest on the line of all magnitudes, and packing cuts that line off at
the infinity. -/
theorem roundingIsToNearestEven : Obligations.RoundingIsToNearestEven :=
  fun sign _ _ hd => isRounded_f32Round sign hd

end Sys2Proof.Machine
end

