-- ==== Sys2Proof/Proofs/FloatInstructions.lean ====
section
/-! SUPPORT. The register-format floating-point instructions: the numerics' operations against exact arithmetic on the
values of the data (spec R130, R132 to R139); statements O39 to O42. -/

namespace Sys2Proof.Machine

/-! ## The parts of a result -/

section parts

variable (v : Word) (sign : Bool)

theorem f32Sign_f32Negate : f32Sign (f32Negate v) = !f32Sign v := by
  rw [f32Sign, f32Negate, BitVec.msb_xor]
  exact Bool.xor_true _

theorem f32Magnitude_f32Negate : f32Magnitude (f32Negate v) = f32Magnitude v := by
  rw [f32Magnitude, f32Negate, BitVec.extractLsb'_xor, show BitVec.extractLsb' 0 31 (0x80000000 : Word) = 0#31 by decide,
    BitVec.xor_zero, f32Magnitude]

theorem f32IsNaN_f32Negate : f32IsNaN (f32Negate v) = f32IsNaN v := by
  rw [Bool.eq_iff_iff, f32IsNaN_iff, f32IsNaN_iff, f32Magnitude_f32Negate]

theorem f32IsInf_f32Negate : f32IsInf (f32Negate v) = f32IsInf v := by
  rw [Bool.eq_iff_iff, f32IsInf_iff, f32IsInf_iff, f32Magnitude_f32Negate]

theorem f32Value_f32Negate : f32Value (f32Negate v) = -f32Value v := by
  rw [f32Value, f32Value, f32Units_eq, f32Units_eq, f32Sign_f32Negate, f32Magnitude_f32Negate]
  cases f32Sign v <;> simp

theorem f32Sign_f32Inf : f32Sign (f32Inf sign) = sign := f32Sign_f32Pack sign _

theorem f32IsInf_f32Inf : f32IsInf (f32Inf sign) = true := f32IsInf_iff.mpr (f32Magnitude_f32Pack sign _)

theorem f32Sign_f32Zero : f32Sign (f32Zero sign) = sign := f32Sign_f32Pack sign _

theorem f32IsZero_f32Zero : f32IsZero (f32Zero sign) = true := f32IsZero_iff.mpr (f32Magnitude_f32Pack sign _)

end parts

/-- A zero is no infinity (R138). -/
theorem not_isInf_of_isZero {v : Word} (h : f32IsZero v = true) : ¬ f32IsInf v = true := by
  rw [f32IsInf_iff, f32IsZero_iff.mp h]
  decide

/-- The zeros are two (R135). -/
theorem f32IsZero_iff_eq {v : Word} : f32IsZero v = true ↔ v = 0 ∨ v = 0x80000000 := by
  refine ⟨fun h => ?_, ?_⟩
  · have hmag : f32Magnitude v = 0 := f32IsZero_iff.mp h
    cases hs : f32Sign v
    · exact .inl (eq_of_sign_of_magnitude hs hmag)
    · exact .inr (eq_of_sign_of_magnitude hs hmag)
  · rintro (rfl | rfl) <;> decide

/-! ## Sum, product and quotient -/

/-- A result that is a NaN where it is to be one. -/
theorem isNone_spec {invalid : Prop} {Q : Word → Prop} (h : invalid) :
    ((none : Option Word) = none ↔ invalid) ∧ ∀ w, none = some w → Q w :=
  ⟨iff_of_true rfl h, fun _ hw => nomatch hw⟩

/-- A result that is a datum where it is to be one, and the right one. -/
theorem isSome_spec {invalid : Prop} {Q : Word → Prop} {v : Word} (h : ¬ invalid) (hv : Q v) :
    (some v = none ↔ invalid) ∧ ∀ w, some v = some w → Q w :=
  ⟨iff_of_false (Option.some_ne_none v) h, fun _ hw => Option.some.inj hw ▸ hv⟩

section operations

variable (a b : Word)

theorem isSum_f32Add : IsSum (f32Add a b) a b (f32Sign b) (f32Value b) := by
  simp only [f32Add, Bool.or_eq_true, Bool.and_eq_true, bne_iff_ne]
  split_ifs with hnan hinfa hopposite hinfb hzero
  · exact isNone_spec (by tauto)
  · exact isNone_spec (by tauto)
  · exact isSome_spec (by tauto) ⟨fun _ => rfl, by simp [hinfa], by simp [hinfa]⟩
  · exact isSome_spec (by tauto) ⟨by simp [hinfa], fun _ _ => ⟨hinfb, rfl⟩, by simp [hinfb]⟩
  · exact isSome_spec (by tauto) ⟨by simp [hinfa], by simp [hinfb], fun _ _ =>
      ⟨fun h => absurd hzero h, fun _ => ⟨f32IsZero_f32Zero _, f32Sign_f32Zero _⟩⟩⟩
  · exact isSome_spec (by tauto) ⟨by simp [hinfa], by simp [hinfb], fun _ _ =>
      ⟨fun _ => isRounded_f32Round _ Nat.one_pos, fun h => absurd h hzero⟩⟩

/-- A difference is the sum with the second operand's sign changed (R133). -/
theorem isSum_f32Sub : IsSum (f32Sub a b) a b (!f32Sign b) (-f32Value b) := by
  have h := isSum_f32Add a (f32Negate b)
  rwa [IsSum, f32Sign_f32Negate, f32Value_f32Negate, f32IsNaN_f32Negate, f32IsInf_f32Negate] at h

theorem isProduct_f32Mul : IsProduct (f32Mul a b) a b := by
  have hzeroa := not_isInf_of_isZero (v := a)
  have hzerob := not_isInf_of_isZero (v := b)
  simp only [f32Mul, Bool.or_eq_true]
  split_ifs with hnan hinf hzero
  · exact isNone_spec (by tauto)
  · exact isNone_spec (by tauto)
  · exact isSome_spec (by tauto) ⟨f32Sign_f32Inf _, fun _ => f32IsInf_f32Inf _, fun ha hb => by simp [ha, hb] at hinf⟩
  · exact isSome_spec (by tauto) ⟨f32Sign_f32Pack _ _, fun h => absurd h hinf, fun _ _ =>
      isRounded_f32Round _ (by decide)⟩

theorem isQuotient_f32Div : IsQuotient (f32Div a b) a b := by
  have hzeroa := not_isInf_of_isZero (v := a)
  have hzerob := not_isInf_of_isZero (v := b)
  simp only [f32Div, Bool.or_eq_true]
  split_ifs with hnan hinfa hinfb hinfb hbzero hazero
  · exact isNone_spec (by tauto)
  · exact isNone_spec (by tauto)
  · exact isSome_spec (by tauto) ⟨f32Sign_f32Inf _, fun _ => f32IsInf_f32Inf _, fun h => absurd h hinfb,
      by simp [hinfa]⟩
  · exact isSome_spec (by tauto) ⟨f32Sign_f32Zero _, by tauto, fun _ => f32IsZero_f32Zero _, by simp [hinfb]⟩
  · exact isNone_spec (by tauto)
  · exact isSome_spec (by tauto) ⟨f32Sign_f32Inf _, fun _ => f32IsInf_f32Inf _, fun h => absurd h hinfb,
      by simp [hbzero]⟩
  · have hunits : 0 < f32Units b := Nat.pos_of_ne_zero fun h => hbzero (f32Units_eq_zero.mp h)
    exact isSome_spec (by tauto) ⟨f32Sign_f32Pack _ _, by tauto, fun h => absurd h hinfb, fun _ _ _ =>
      isRounded_f32Round _ hunits⟩

end operations

/-- Settles O39: each of the three writes the numerics' result, and that is the exact one, case by case. -/
theorem floatArithmeticWritesTheNumericsResult : Obligations.FloatArithmeticWritesTheNumericsResult := by
  refine ⟨fun s rs rt rd h => ?_, fun a b => ⟨isSum_f32Add a b, isSum_f32Sub a b, isProduct_f32Mul a b⟩⟩
  have hwrite {r : Option Word} := answersFloat_writeFloat rd s .default r
  exact ⟨⟨decode_registerWord_eq_ok fun _ _ _ => rfl, hwrite⟩, ⟨decode_registerWord_eq_ok fun _ _ _ => rfl, hwrite⟩,
    ⟨decode_registerWord_eq_ok fun _ _ _ => rfl, hwrite⟩⟩

/-- Settles O40: a divisor that is no zero gives the numerics' quotient, and the two zeros raise. -/
theorem floatDivideWritesTheQuotient : Obligations.FloatDivideWritesTheQuotient := by
  refine ⟨fun s rs rt rd => ⟨fun h => ?_, fun h => execFdiv_fault rfl h, f32IsZero_iff_eq⟩, isQuotient_f32Div⟩
  have hexec : exec (.fdiv rs rt rd) s = _ := execFdiv_quotient (.inr h)
  rw [hexec]
  exact answersFloat_writeFloat rd s .default _

/-! ## From an integer -/

/-- The value `x` rounded, against data of either sign: one of the other sign is no nearer than the zeros are. -/
theorem IsRounded.nearest_value {x : Int} {w : Word} (h : IsRounded (decide (x < 0)) x.natAbs 1 w)
    (hw : f32IsInf w = false) {y : Word} (hnan : f32IsNaN y = false) (hinf : f32IsInf y = false) :
    (x - f32Value w).natAbs ≤ (x - f32Value y).natAbs ∧
    ((x - f32Value w).natAbs = (x - f32Value y).natAbs → f32Value y ≠ f32Value w → f32Fraction w % 2 = 0) := by
  obtain ⟨hsign, -, -, hnearest⟩ := h
  have hy := hnearest hw y hnan hinf
  have hzero := hnearest hw 0 (by decide) (by decide)
  rw [show f32Units 0 = 0 by decide] at hzero
  have hvalue : f32Value w = if x < 0 then -(f32Units w : Int) else f32Units w := by simp [f32Value, hsign]
  have hy' : f32Value y = f32Units y ∨ f32Value y = -f32Units y := by
    unfold f32Value
    split <;> simp
  rw [hvalue]
  split <;> omega

/-- A whole number of at most 24 bits, its leading bit moved to the top of the significand. -/
theorem exists_shift_to_significand {n : Nat} (hpos : n ≠ 0) (hn : n ≤ 2 ^ 24) :
    ∃ j ≤ 23, 2 ^ 23 ≤ n * 2 ^ j ∧ n * 2 ^ j ≤ 2 ^ 24 := by
  rcases hn.lt_or_eq with hlt | rfl
  · have hlog : Nat.log2 n < 24 := (Nat.log2_lt hpos).mpr hlt
    refine ⟨23 - Nat.log2 n, Nat.sub_le _ _, ?_, ?_⟩
    · calc 2 ^ 23 = 2 ^ Nat.log2 n * 2 ^ (23 - Nat.log2 n) := by rw [← pow_add, Nat.add_sub_cancel' (by omega)]
        _ ≤ n * 2 ^ (23 - Nat.log2 n) := Nat.mul_le_mul_right _ (Nat.log2_self_le hpos)
    · calc n * 2 ^ (23 - Nat.log2 n) ≤ 2 ^ (Nat.log2 n + 1) * 2 ^ (23 - Nat.log2 n) :=
            Nat.mul_le_mul_right _ Nat.lt_log2_self.le
        _ = 2 ^ 24 := by rw [← pow_add, show Nat.log2 n + 1 + (23 - Nat.log2 n) = 24 by omega]
  · exact ⟨0, by decide, by decide, by decide⟩

/-- A whole number of at most 24 bits is the value of a finite magnitude (R136). -/
theorem exists_magnitudeUnits_eq {n : Nat} (hn : n ≤ 2 ^ 24) :
    ∃ m < infMagnitude, magnitudeUnits m = n * f32One := by
  rcases eq_or_ne n 0 with rfl | hpos
  · exact ⟨0, by decide, by rw [magnitudeUnits_zero, zero_mul]⟩
  obtain ⟨j, hj, hlow, hhigh⟩ := exists_shift_to_significand hpos hn
  refine ⟨(149 - j) * 2 ^ 23 + n * 2 ^ j, by rw [infMagnitude]; omega, ?_⟩
  rw [magnitudeUnits_of_isSignificand ⟨.inr hlow, hhigh⟩, mul_assoc, ← pow_add, f32One,
    Nat.add_sub_cancel' (by omega)]

/-- An integer of magnitude up to `2^24` is the value of a finite datum (R136). -/
theorem exists_f32Value_eq {n : Int} (hn : n.natAbs ≤ 2 ^ 24) :
    ∃ y, f32IsNaN y = false ∧ f32IsInf y = false ∧ f32Value y = n * f32One := by
  obtain ⟨m, hm, hunits⟩ := exists_magnitudeUnits_eq hn
  refine ⟨f32Pack (decide (n < 0)) m, f32IsNaN_f32Pack _ _, ?_, ?_⟩
  · rw [Bool.eq_false_iff, ne_eq, f32IsInf_f32Pack, not_le]
    exact hm
  · rw [f32Value_f32Pack _ hm.le, hunits, f32One]
    simp only [decide_eq_true_eq]
    split <;> omega

/-- `CVT`'s datum is the integer's value, in units of `2^-149`, rounded (R136). -/
theorem isRounded_f32OfInt (v : Word) :
    IsRounded (decide (s32 v * f32One < 0)) (s32 v * f32One).natAbs 1 (f32OfInt v) := by
  have hsign : s32 v * f32One < 0 ↔ s32 v < 0 := by
    rw [f32One]
    omega
  rw [Int.natAbs_mul, Int.natAbs_natCast, decide_eq_decide.mpr hsign]
  exact isRounded_f32Round _ Nat.one_pos

theorem f32IsInf_f32OfInt (v : Word) : f32IsInf (f32OfInt v) = false := by
  have hlow : -2 ^ 31 ≤ s32 v := BitVec.le_toInt v
  have hhigh : s32 v < 2 ^ 31 := BitVec.toInt_lt
  obtain ⟨-, -, hinf, -⟩ := isRounded_f32OfInt v
  rw [Bool.eq_false_iff, ne_eq, hinf, not_le, f32One]
  omega

/-- Settles O41: the datum is the integer's units rounded, so no datum of either sign is nearer, and none can be where one
has the integer's own value. -/
theorem convertGivesTheNearestDatum : Obligations.ConvertGivesTheNearestDatum := by
  refine ⟨fun s rt rd => answersWrite_writeReg rd _ s .default, fun v y hnan hinf =>
    (isRounded_f32OfInt v).nearest_value (f32IsInf_f32OfInt v) hnan hinf, fun v hv => ?exact, fun v => ?finite,
    by decide, by decide, by decide, by decide, by decide⟩
  case exact =>
    obtain ⟨y, hnan, hinf, hy⟩ := exists_f32Value_eq hv
    obtain ⟨hle, -⟩ := (isRounded_f32OfInt v).nearest_value (f32IsInf_f32OfInt v) hnan hinf
    rw [hy, sub_self] at hle
    exact (Int.sub_eq_zero.mp (Int.natAbs_eq_zero.mp (Nat.le_zero.mp hle))).symm
  case finite =>
    obtain ⟨-, hnan, -⟩ := isRounded_f32OfInt v
    exact ⟨hnan, f32IsInf_f32OfInt v⟩

/-! ## To an integer -/

/-- The model's rounded magnitude, with the sign of the datum, is the rounded integer (R137). -/
theorem isRoundedInteger_f32RoundedMagnitude (mode : Config.RndMode) (v : Word) :
    IsRoundedInteger mode v (if f32Sign v then -(f32RoundedMagnitude mode v : Int) else f32RoundedMagnitude mode v) := by
  have hvalue : f32Value v = if f32Sign v then -(f32Units v : Int) else f32Units v := rfl
  have heven := roundHalfEven_cases (f32Units v) f32One
  unfold IsRoundedInteger
  rw [hvalue]
  cases mode <;> simp only [f32RoundedMagnitude, f32One] at heven ⊢ <;> split <;> omega

/-- There is one rounded integer: of two next to a half, the mode takes one (R137). -/
theorem IsRoundedInteger.unique {mode : Config.RndMode} {v : Word} {n m : Int} (hn : IsRoundedInteger mode v n)
    (hm : IsRoundedInteger mode v m) : m = n := by
  obtain ⟨hn, hntie⟩ := hn
  obtain ⟨hm, hmtie⟩ := hm
  rw [f32One] at *
  have hnear : m = n ∨ m = n + 1 ∨ n = m + 1 := by omega
  cases mode <;> dsimp only at hntie hmtie <;> omega

theorem f32ToIntRounded_of_not_finite {v : Word} (mode : Config.RndMode) (h : f32IsNaN v = true ∨ f32IsInf v = true) :
    f32ToIntRounded mode v = none :=
  if_pos (Bool.or_eq_true_iff.mpr h)

/-- The numerics give the rounded integer, where 32 bits hold it (R137). -/
theorem f32ToIntRounded_eq {mode : Config.RndMode} {v : Word} {n : Int} (hnan : f32IsNaN v = false)
    (hinf : f32IsInf v = false) (hn : IsRoundedInteger mode v n) :
    f32ToIntRounded mode v = if -2147483648 ≤ n ∧ n ≤ 2147483647 then some (w32 n) else none := by
  rw [← hn.unique (isRoundedInteger_f32RoundedMagnitude mode v)]
  simp [f32ToIntRounded, hnan, hinf]

/-- Settles O42: the rounded magnitude with the datum's sign is the one rounded integer. -/
theorem roundGivesTheNearestIntegerOrAnError : Obligations.RoundGivesTheNearestIntegerOrAnError := by
  refine ⟨rfl, fun _ mode h => f32ToIntRounded_of_not_finite mode h, fun v mode hnan hinf => ?integer,
    fun s rt rd n hnan hinf hn => ⟨fun hlow hhigh => ?fits, fun hout => ?tooLarge⟩,
    fun s rt rd h => execRnd_none_fault (f32ToIntRounded_of_not_finite _ h) rfl⟩
  case integer =>
    have hn := isRoundedInteger_f32RoundedMagnitude mode v
    exact ⟨_, hn, fun _ hm => hn.unique hm, f32ToIntRounded_eq hnan hinf hn⟩
  case fits =>
    have hexec : exec (.rnd rt rd) s = .next (writeReg rd (w32 n) s) :=
      execRnd_some ((f32ToIntRounded_eq hnan hinf hn).trans (if_pos ⟨hlow, hhigh⟩))
    rw [hexec]
    exact answersWrite_writeReg rd _ s .default
  case tooLarge =>
    exact execRnd_none_fault ((f32ToIntRounded_eq hnan hinf hn).trans (if_neg (by omega))) rfl

end Sys2Proof.Machine
end

section
/-! SUPPORT. The bitwise immediate-format instructions: their words and what they write (spec R152 to R154); statement
O30. -/

namespace Sys2Proof.Machine

/-- A well-formed instruction whose meaning is one register write: the encoder's word decodes to it, and it answers that
write (R90, R91). -/
theorem decode_and_answersWrite {i : Instr} {w : Word} {d : Reg} {v : Word} {s : State} (hword : encode i = w)
    (hwf : i.WellFormed = true) (hexec : exec i s = .next (writeReg d v s)) :
    decode w = .ok i ∧ AnswersWrite d v s (exec i s) :=
  ⟨decode_of_encode_eq hword hwf, hexec ▸ answersWrite_writeReg d v s .default⟩

/-- Settles O30: each word is the encoder's, and each meaning is the write of its result into `rt`. -/
theorem bitwiseImmediatesWriteTheirResult : Obligations.BitwiseImmediatesWriteTheirResult := by
  intro s rs rt i
  refine ⟨?andi, ?bori, ?xori⟩
  case andi => exact decode_and_answersWrite (i := .andi rs rt i) rfl rfl rfl
  case bori => exact decode_and_answersWrite (i := .bori rs rt i) rfl rfl rfl
  case xori => exact decode_and_answersWrite (i := .xori rs rt i) rfl rfl rfl

end Sys2Proof.Machine
end

section
/-! SUPPORT. The conditional branches and the jumps: their words, conditions and targets, and what they leave unchanged
(spec R123, R160 to R174, R195 to R197); statements O45, O46 and O26. -/

namespace Sys2Proof.Machine

/-! ## Condition and target of a branch -/

/-- A branch on a condition moves the advanced `PC` by the offset where the condition holds, and does nothing else
(R160). -/
theorem branchIf_eq_ite {c : Bool} {P : Prop} [Decidable P] (hc : c = true ↔ P) (o : BitVec 16) (s : State) :
    branchIf c o s = { s with pc := if P then s.pc + formOffset o else s.pc } := by
  rw [branchIf_eq_setPc, if_congr hc rfl rfl]
  rfl

/-- A well-formed instruction that means a branch on a condition: the encoder's word decodes to it, and it moves the
`PC` exactly when the condition holds (R90, R91, R160). -/
theorem decode_and_branches {i : Instr} {w : Word} {c : Bool} {P : Prop} [Decidable P] {o : BitVec 16} {s : State}
    (hword : encode i = w) (hwf : i.WellFormed = true) (hexec : exec i s = .next (branchIf c o s))
    (hc : c = true ↔ P) :
    decode w = .ok i ∧ exec i s = .next { s with pc := if P then s.pc + formOffset o else s.pc } :=
  ⟨decode_of_encode_eq hword hwf, by rw [hexec, branchIf_eq_ite hc]⟩

/-- Settles O45: each word is the encoder's, and each condition is the Boolean the model branches on. -/
theorem integerBranchesCompareSignedContents : Obligations.IntegerBranchesCompareSignedContents := by
  intro s rs rt o
  refine ⟨?beq, ?bgez, ?bgtz, ?blez, ?bltz, ?bne⟩
  case beq => exact decode_and_branches (i := .beq rs rt o) rfl rfl rfl beq_iff_eq
  case bgez => exact decode_and_branches (i := .bgez rs o) rfl rfl rfl decide_eq_true_iff
  case bgtz => exact decode_and_branches (i := .bgtz rs o) rfl rfl rfl decide_eq_true_iff
  case blez => exact decode_and_branches (i := .blez rs o) rfl rfl rfl decide_eq_true_iff
  case bltz => exact decode_and_branches (i := .bltz rs o) rfl rfl rfl decide_eq_true_iff
  case bne => exact decode_and_branches (i := .bne rs rt o) rfl rfl rfl bne_iff_ne

/-- Settles O46: as the integer branches, on the numerics' comparisons; `BFNE` branches on the negation of `BFEQ`'s, so
on a NaN too. -/
theorem floatBranchesCompareData : Obligations.FloatBranchesCompareData := by
  intro s rs rt o
  refine ⟨?bfeq, ?bfgz, ?bfgtz, ?bflez, ?bfltz, ?bfne⟩
  case bfeq => exact decode_and_branches (i := .bfeq rs rt o) rfl rfl rfl Iff.rfl
  case bfgz => exact decode_and_branches (i := .bfgz rs o) rfl rfl rfl Iff.rfl
  case bfgtz => exact decode_and_branches (i := .bfgtz rs o) rfl rfl rfl Iff.rfl
  case bflez => exact decode_and_branches (i := .bflez rs o) rfl rfl rfl Iff.rfl
  case bfltz => exact decode_and_branches (i := .bfltz rs o) rfl rfl rfl Iff.rfl
  case bfne =>
    rw [← ite_not]
    exact decode_and_branches (i := .bfne rs rt o) rfl rfl rfl (by simp)

/-! ## What a control transfer leaves unchanged -/

/-- The twelve conditional branches with given operands (R162 to R167, R169 to R174). -/
def branches (rs rt : Reg) (o : BitVec 16) : List Instr :=
  [.beq rs rt o, .bne rs rt o, .bgez rs o, .bgtz rs o, .blez rs o, .bltz rs o, .bfeq rs rt o, .bfne rs rt o,
    .bfgz rs o, .bfgtz rs o, .bflez rs o, .bfltz rs o]

/-- Each of the twelve sets the `PC`, to its target or to what it was, and does nothing else (R160). -/
theorem exec_branches_eq_setPc {i : Instr} {rs rt : Reg} {o : BitVec 16} (hi : i ∈ branches rs rt o) (s : State) :
    ∃ target, exec i s = .next (s.setPc target) := by
  have hbranch : ∃ c, exec i s = .next (branchIf c o s) := by
    fin_cases hi <;> exact ⟨_, rfl⟩
  obtain ⟨c, hc⟩ := hbranch
  exact ⟨_, hc.trans (congrArg _ (branchIf_eq_setPc c o s))⟩

/-- `JAL` writes the advanced `PC` into `$ra`, which is not register 0, and jumps (R197). -/
theorem exec_jal_eq (a : BitVec 26) (s : State) :
    exec (.jal a) s = .next ((s.setReg Reg.ra s.pc).setPc (formAddress s.pc a)) := by
  have hlink : writeReg Reg.ra s.pc s = s.setReg Reg.ra s.pc := writeReg_of_ne (by decide) _ _ _
  rw [← hlink]
  rfl

/-- The fifteen control transfers set the `PC` and do nothing else, but for `JAL`. -/
theorem exec_controlTransfer_cases {i : Instr} {rs rt : Reg} {o : BitVec 16} {a : BitVec 26}
    (hi : i ∈ branches rs rt o ++ [.jmp a, .jal a, .jr rs]) (s : State) :
    (∃ target, exec i s = .next (s.setPc target)) ∨ i = .jal a := by
  rcases List.mem_append.mp hi with hbranch | hjump
  · exact .inl (exec_branches_eq_setPc hbranch s)
  · simp only [List.mem_cons, List.not_mem_nil, or_false] at hjump
    rcases hjump with rfl | rfl | rfl
    · exact .inl ⟨_, rfl⟩
    · exact .inr rfl
    · exact .inl ⟨_, rfl⟩

/-- Nothing of `s` has changed in `t` but the `PC` and the registers in `ds`. -/
def PcAndRegistersOnly (ds : List Reg) (s t : State) : Prop :=
  RegistersKept ds s t ∧ MemoryKept s t ∧ HiLoKept s t ∧ StreamsKept s t ∧
  t.stderr = s.stderr ∧ t.status = s.status ∧ t.ir = s.ir ∧ t.stackBottom = s.stackBottom ∧
  t.dataLength = s.dataLength ∧ t.draws = s.draws

theorem pcAndRegistersOnly_setPc (ds : List Reg) (s : State) (target : Word) :
    PcAndRegistersOnly ds s (s.setPc target) :=
  ⟨⟨fun _ _ => rfl, rfl⟩, fun _ => rfl, ⟨rfl, rfl⟩, ⟨rfl, rfl, rfl⟩, rfl, rfl, rfl, rfl, rfl, rfl⟩

theorem pcAndRegistersOnly_setReg_setPc (s : State) {d : Reg} (hd : d ≠ 0) (v target : Word) :
    PcAndRegistersOnly [d] s ((s.setReg d v).setPc target) := by
  obtain ⟨hregs, _⟩ := destinationOnly_setReg s hd v
  exact ⟨hregs, fun _ => rfl, ⟨rfl, rfl⟩, ⟨rfl, rfl, rfl⟩, rfl, rfl, rfl, rfl, rfl, rfl⟩

/-- Settles O26: all set the `PC` alone, but `JAL` writes `$ra` before. -/
theorem controlTransfersChangeThePcOnly : Obligations.ControlTransfersChangeThePcOnly := by
  rintro i s t ⟨rs, rt, o, a, hi⟩ h
  rcases exec_controlTransfer_cases (a := a) (rs := rs) (rt := rt) (o := o) hi s with ⟨target, hx⟩ | rfl
  · cases hx.symm.trans h
    obtain ⟨hnone, -⟩ := pcAndRegistersOnly_setPc [] s target
    obtain ⟨hra, hrest⟩ := pcAndRegistersOnly_setPc [Reg.ra] s target
    exact ⟨hra, fun _ => hnone, hrest⟩
  · cases (exec_jal_eq a s).symm.trans h
    obtain ⟨hra, hrest⟩ := pcAndRegistersOnly_setReg_setPc s (d := Reg.ra) (by decide) s.pc (formAddress s.pc a)
    exact ⟨hra, fun hne => absurd rfl (hne a), hrest⟩

end Sys2Proof.Machine
end

section
/-! SUPPORT. The stores: what they leave unchanged (spec R180, R184 to R186); statement O27. -/

namespace Sys2Proof.Machine

/-- Nothing of `s` has changed in `t` but the `width` bytes of memory from `a`, and what an error adds. -/
def BytesOnly (a width : Nat) (s t : State) : Prop :=
  (∀ b, (b < a ∨ a + width ≤ b) → t.mem.read b = s.mem.read b) ∧
  RegistersKept [] s t ∧ HiLoKept s t ∧ StreamsKept s t ∧ AtMostOneError s t ∧
  t.pc = s.pc ∧ t.ir = s.ir ∧ t.stackBottom = s.stackBottom ∧ t.dataLength = s.dataLength ∧ t.draws = s.draws

section bytesOnly

variable (s : State)

/-- A new memory changes as much as it reads differently from the old one. -/
theorem bytesOnly_setMem {a width : Nat} {m : Memory}
    (h : ∀ b, (b < a ∨ a + width ≤ b) → m.read b = s.mem.read b) : BytesOnly a width s (s.setMem m) :=
  ⟨h, ⟨fun _ _ => rfl, rfl⟩, ⟨rfl, rfl⟩, ⟨rfl, rfl, rfl⟩, .inl ⟨rfl, rfl⟩, rfl, rfl, rfl, rfl, rfl⟩

theorem bytesOnly_raise (a width : Nat) (e : MachineError) : BytesOnly a width s (raise e s) :=
  ⟨fun _ _ => rfl, ⟨fun _ _ => rfl, rfl⟩, ⟨rfl, rfl⟩, ⟨rfl, rfl, rfl⟩, .inr ⟨e, rfl, rfl⟩, rfl, rfl, rfl, rfl, rfl⟩

/-- A byte access writes its byte or raises (R57, R245). -/
theorem bytesOnly_memWriteByte (addr : Word) (c : Byte) : BytesOnly (u32 addr) 1 s (memWriteByte addr c s) := by
  rcases memWriteByte_cases addr c s .default with ⟨_, h⟩ | ⟨e, _, h⟩ <;> rw [h]
  · refine bytesOnly_setMem s fun b hb => ?_
    have hne : b ≠ u32 addr := by omega
    rw [Memory.read_write, if_neg hne]
  · exact bytesOnly_raise s _ _ e

/-- A word access writes its four bytes or raises (R57, R245). -/
theorem bytesOnly_memWriteWord (addr v : Word) : BytesOnly (u32 addr) 4 s (memWriteWord addr v s) := by
  rcases memWriteWord_cases addr v s .default with ⟨_, h⟩ | ⟨e, _, h⟩ <;> rw [h]
  · exact bytesOnly_setMem s fun _ => Memory.read_writeWord_outside s.mem v
  · exact bytesOnly_raise s _ _ e

end bytesOnly

/-- Settles O27: `SB` is one byte access, `SW` and `FSW` are one word access, at the effective address. -/
theorem storesChangeTheirBytesOnly : Obligations.StoresChangeTheirBytesOnly := by
  rintro i rs rt o width s t (⟨rfl, rfl⟩ | ⟨hi, rfl⟩) h
  case inl =>
    cases exec_sb.symm.trans h
    exact bytesOnly_memWriteByte s (accessAddress rs o s) _
  case inr =>
    have hword : i ∈ [Instr.sw rs rt o, .fsw rs rt o] := by simpa using hi
    cases (exec_eq_storeWord hword).symm.trans h
    exact bytesOnly_memWriteWord s (accessAddress rs o s) (s.x rt)

end Sys2Proof.Machine
end

section
/-! SUPPORT. The jumps: encoding, target and link (spec R123, R196, R197); statement O47. -/

namespace Sys2Proof.Machine

/-- Settles O47: each word is the encoder's; `JMP` and `JR` set the `PC` by definition, and for `JAL` the link register
and the `PC` are different parts of the state, so the order of the two writes does not matter. -/
theorem jumpsSetThePc : Obligations.JumpsSetThePc := by
  intro s a rs
  refine ⟨?jmp, ?jal, ?jr⟩
  case jmp => exact ⟨decode_of_encode_eq rfl rfl, rfl⟩
  case jal => exact ⟨decode_of_encode_eq rfl rfl, exec_jal_eq a s⟩
  case jr => exact ⟨decode_of_encode_eq rfl rfl, rfl⟩

end Sys2Proof.Machine
end

section
/-! SUPPORT. What tracing leaves behind and what it shows (spec R222 to R225): no update of the state, no instruction and
no step looks at the switch or at what stands on `stdout`; statement O20. -/

namespace Sys2Proof.Machine

/-! ## Updates of two states that differ only in tracing -/

namespace SameButTracing

section updates

variable {s t : State} (h : SameButTracing s t)
include h

theorem setPc (target : Word) : SameButTracing (s.setPc target) (t.setPc target) := { h with pc := rfl }

theorem setHiLo (hi lo : Word) : SameButTracing (s.setHiLo hi lo) (t.setHiLo hi lo) := { h with hiLo := ⟨rfl, rfl⟩ }

theorem setMem (m : Memory) : SameButTracing (s.setMem m) (t.setMem m) := { h with mem := rfl }

/-- The switch may even be set differently. -/
theorem setTracing (on on' : Bool) : SameButTracing (s.setTracing on) (t.setTracing on') := { h with }

theorem setStdin (bs : List Byte) : SameButTracing (s.setStdin bs) (t.setStdin bs) := { h with stdin := rfl }

theorem setReg (d : Reg) (v : Word) : SameButTracing (s.setReg d v) (t.setReg d v) :=
  { h with regs := by simp [h.regs] }

theorem nextDraw : SameButTracing s.nextDraw t.nextDraw := { h with draws := by simp [h.draws] }

theorem outBytes (bs : List Byte) : SameButTracing (outBytes bs s) (outBytes bs t) :=
  { h with out := by simp [h.out] }

/-- Different trace items may be appended on the two sides (R225). -/
theorem emitTrace (ts ts' : List TraceItem) :
    SameButTracing (s.emit (ts.map OutItem.trace)) (t.emit (ts'.map OutItem.trace)) :=
  { h with out := by simp [h.out] }

theorem advance (ir : Word) : SameButTracing (advance ir s) (advance ir t) :=
  { h with ir := rfl, pc := by simp [h.pc] }

theorem haltNormally : SameButTracing (haltNormally s) (haltNormally t) := { h with status := rfl }

theorem raise (e : MachineError) : SameButTracing (raise e s) (raise e t) :=
  { h with stderr := by simp [h.stderr], status := rfl }

theorem writeReg (d : Reg) (v : Word) : SameButTracing (writeReg d v s) (writeReg d v t) := by
  unfold Machine.writeReg
  split
  · split
    · exact h
    · exact h.raise _
  · exact h.setReg d v

theorem writeRegOrRaise (d : Reg) (r : Except MachineError Word) :
    SameButTracing (writeRegOrRaise d r s) (writeRegOrRaise d r t) := by
  cases r with
  | ok v => exact h.writeReg d v
  | error e => exact h.raise e

/-- The two draw the same free value. -/
theorem writeFloat (d : Reg) (r : Option Word) : SameButTracing (writeFloat d r s) (writeFloat d r t) := by
  cases r with
  | some v => exact h.writeReg d v
  | none =>
    rw [writeFloat_none, writeFloat_none, h.draws]
    exact h.nextDraw.writeReg d _

theorem printText (text : List Byte) : SameButTracing (printText text s) (printText text t) :=
  (h.outBytes text).writeReg _ _

theorem branchIf (c : Bool) (o : BitVec 16) : SameButTracing (branchIf c o s) (branchIf c o t) := by
  cases c with
  | true =>
    rw [branchIf_true, branchIf_true, h.pc]
    exact h.setPc _
  | false => exact h

theorem memWriteByte (addr : Word) (v : Byte) : SameButTracing (memWriteByte addr v s) (memWriteByte addr v t) := by
  unfold Machine.memWriteByte
  cases accessError addr 1 with
  | some e => exact h.raise e
  | none => exact h.mem ▸ h.setMem _

theorem memWriteWord (addr v : Word) : SameButTracing (memWriteWord addr v s) (memWriteWord addr v t) := by
  unfold Machine.memWriteWord
  cases accessError addr 4 with
  | some e => exact h.raise e
  | none => exact h.mem ▸ h.setMem _

theorem traceInstruction (addr : Word) (i : Instr) :
    SameButTracing (traceInstruction addr i s) (traceInstruction addr i t) := by
  obtain ⟨ts, hs⟩ := traceInstruction_eq_emit addr i s
  obtain ⟨ts', ht⟩ := traceInstruction_eq_emit addr i t
  rw [hs, ht]
  exact h.emitTrace ts ts'

theorem traceAfter : SameButTracing (traceAfter s) (traceAfter t) := h.emitTrace _ _

theorem checkInvariants : SameButTracing (checkInvariants s) (checkInvariants t) := by
  unfold Machine.checkInvariants
  rw [h.status, firstViolated_congr h.regs h.pc]
  split
  · exact h
  · split
    · exact h.raise _
    · exact h

theorem endCycle : SameButTracing (endCycle s) (endCycle t) := h.checkInvariants.traceAfter

end updates

end SameButTracing

/-! ## Instructions and steps -/

/-- The state with another tracing switch and other items on `stdout`. -/
def State.retraced (s : State) (on : Bool) (items : List OutItem) : State := { s with tracing := on, stdout := items }

/-- Of two states that differ only in tracing, the one is the other with its switch and its `stdout` replaced: whatever
else an instruction reads is the same in both by definition. -/
theorem SameButTracing.eq_retraced {s t : State} (h : SameButTracing s t) : t = s.retraced t.tracing t.stdout := by
  obtain ⟨hregs, hpc, ⟨hhi, hlo⟩, hir, hmem, hstdin, -, hstderr, hstatus, hbottom, hlength, hdraws⟩ := h
  unfold State.retraced
  rw [← hregs, ← hpc, ← hhi, ← hlo, ← hir, ← hmem, ← hstdin, ← hstderr, ← hstatus, ← hbottom, ← hlength, ← hdraws]

/-- Two outcomes decided by one condition are related where they are in either case. -/
theorem OutcomesRelated.ite {r : State → State → Prop} {c : Prop} [Decidable c]
    {o₁ o₁' o₂ o₂' : Host.Outcome State Fault Refusal} (h₁ : OutcomesRelated r o₁ o₁') (h₂ : OutcomesRelated r o₂ o₂') :
    OutcomesRelated r (if c then o₁ else o₂) (if c then o₁' else o₂') := by
  split
  · exact h₁
  · exact h₂

section system

variable {s : State} {on : Bool} {items : List OutItem} (h : SameButTracing s (s.retraced on items))
include h

theorem execRnd_retraced (rt rd : Reg) :
    OutcomesRelated SameButTracing (execRnd rt rd s) (execRnd rt rd (s.retraced on items)) := by
  rw [execRnd, execRnd, show (s.retraced on items).x rt = s.x rt from rfl]
  split
  · exact h.writeReg rd _
  · exact h.raise _

/-- The part of an unterminated string that is written is the same free length of the same bytes. -/
theorem execPstr_retraced : OutcomesRelated SameButTracing (execPstr s) (execPstr (s.retraced on items)) :=
  OutcomesRelated.ite (h.printText _) ((h.outBytes _).nextDraw.raise _)

theorem execRch_retraced : OutcomesRelated SameButTracing (execRch s) (execRch (s.retraced on items)) := by
  rw [execRch, execRch, show (s.retraced on items).stdin = s.stdin from rfl]
  split
  · exact (h.setStdin _).writeReg _ _
  · exact h.writeReg _ _

theorem execRflt_retraced : OutcomesRelated SameButTracing (execRflt s) (execRflt (s.retraced on items)) := by
  rw [execRflt, execRflt, show (s.retraced on items).stdin = s.stdin from rfl]
  split
  · exact (h.setStdin _).writeReg _ _
  · exact (h.setStdin _).writeFloat _ none
  · exact (h.setStdin _).nextDraw.writeReg _ _

theorem exec_retraced (i : Instr) : OutcomesRelated SameButTracing (exec i s) (exec i (s.retraced on items)) := by
  cases i with
  | add | sub | addi | and | bor | nor | xor | andi | bori | xori | sll | srl | cvt | mfhi | mflo =>
    exact h.writeReg _ _
  | fadd | fsub | fmul => exact h.writeFloat _ _
  | fdiv => exact OutcomesRelated.ite (h.raise _) (h.writeFloat _ _)
  | mul => exact h.setHiLo _ _
  | div => exact OutcomesRelated.ite (h.raise _) (OutcomesRelated.ite (h.raise _) (h.setHiLo _ _))
  | rnd rt rd => exact execRnd_retraced h rt rd
  | lbu | lw | flw => exact h.writeRegOrRaise _ _
  | sb => exact h.memWriteByte _ _
  | sw | fsw => exact h.memWriteWord _ _
  | beq | bgez | bgtz | blez | bltz | bne | bfeq | bfgz | bfgtz | bflez | bfltz | bfne => exact h.branchIf _ _
  | jr | jmp => exact h.setPc _
  | jal => exact (h.writeReg _ _).setPc _
  | exit => exact h.haltNormally
  | pstr => exact execPstr_retraced h
  | pint | pflt => exact h.printText _
  | pch => exact (h.outBytes _).writeReg _ _
  | rch => exact execRch_retraced h
  | rflt => exact execRflt_retraced h
  | stra | notr => exact h.setTracing _ _

end system

/-- Instructions do not look at the switch or at `stdout` (R225). -/
theorem SameButTracing.exec {s t : State} (h : SameButTracing s t) (i : Instr) :
    OutcomesRelated SameButTracing (exec i s) (exec i t) := by
  have ht := h.eq_retraced
  rw [ht] at h ⊢
  exact exec_retraced h i

/-- The end of the cycle keeps two outcomes related (R243, R224). -/
theorem OutcomesRelated.finish {o o' : Host.Outcome State Fault Refusal} (h : OutcomesRelated SameButTracing o o') :
    OutcomesRelated SameButTracing (finish o) (finish o') := by
  cases o <;> cases o'
  case next.next => exact SameButTracing.endCycle h
  all_goals exact h

theorem SameButTracing.execute {s t : State} (h : SameButTracing s t) (addr ir : Word) :
    OutcomesRelated SameButTracing (execute Machine.exec addr ir s) (execute Machine.exec addr ir t) := by
  unfold Machine.execute
  split
  next i _ => exact ((h.traceInstruction addr i).exec i).finish
  next => exact (h.raise _).traceAfter

theorem SameButTracing.cycle {s t : State} (h : SameButTracing s t) :
    OutcomesRelated SameButTracing (cycle Machine.exec s) (cycle Machine.exec t) := by
  have hfetch : fetch t = fetch s := by rw [fetch, fetch, memReadWord, memReadWord, h.pc, h.mem]
  unfold Machine.cycle
  rw [hfetch, h.pc]
  split
  next ir _ => exact (h.advance ir).execute s.pc ir
  next e _ => exact (h.raise e).traceAfter

/-- Settles O20: the fetched word and the status are the same in both, and no part of the cycle looks at the switch but to
append trace items. -/
theorem tracingChangesNothingElse : Obligations.TracingChangesNothingElse := by
  intro s t h
  rw [step, step, stepOf, stepOf, h.status]
  split
  · exact h.cycle
  · rfl

end Sys2Proof.Machine
end

section
/-! SUPPORT. The nine system calls: what each answers and what they all leave unchanged (spec R205 to R217); statements
O28, O51, O53, O54, O55 and O56. -/

namespace Sys2Proof.Machine

/-! ## What a system call leaves unchanged -/

section cases

variable {i : Instr} {s t : State}

/-- A printing call appends bytes to `stdout` and writes `$v0`, or raises after a draw (R208 to R212). -/
theorem exec_printing_cases (hi : i ∈ [.pstr, .pint, .pflt, .pch]) (h : exec i s = .next t) :
    ∃ bs, (∃ v, t = (outBytes bs s).setReg Reg.v0 v) ∨ ∃ e, t = raise e (outBytes bs s).nextDraw := by
  simp only [List.mem_cons, List.not_mem_nil, or_false] at hi
  rcases hi with rfl | rfl | rfl | rfl
  case inl =>
    rcases execPstr_cases s with ⟨text, hx⟩ | ⟨bs, e, hx⟩ <;> cases hx.symm.trans h
    · exact ⟨text, .inl ⟨_, printText_eq text s _⟩⟩
    · exact ⟨bs, .inr ⟨e, rfl⟩⟩
  all_goals
    cases h
    exact ⟨_, .inl ⟨_, writeReg_of_ne (by decide) _ _ _⟩⟩

/-- A reading call leaves some of the input, draws at most one free value, and writes `$v0` (R213, R215). -/
theorem exec_reading_cases (hi : i ∈ [.rch, .rflt]) (h : exec i s = .next t) :
    ∃ u rest v, (u = s ∨ u = s.nextDraw) ∧ t = (u.setStdin rest).setReg Reg.v0 v := by
  simp only [List.mem_cons, List.not_mem_nil, or_false] at hi
  rcases hi with rfl | rfl
  · obtain ⟨v, hx⟩ := execRch_eq s
    exact ⟨s, _, v, .inl rfl, Host.Outcome.next.inj (h.symm.trans hx)⟩
  · obtain ⟨u, v, hu, hx⟩ := execRflt_eq s
    exact ⟨u, _, v, hu, Host.Outcome.next.inj (h.symm.trans hx)⟩

end cases

/-- Nothing of `s` has changed in `t` but `$v0`, the streams, the switch, the counter of free values and what an end
adds. -/
def V0AndStreamsOnly (s t : State) : Prop :=
  RegistersKept [Reg.v0] s t ∧ MemoryKept s t ∧ HiLoKept s t ∧
  t.pc = s.pc ∧ t.ir = s.ir ∧ t.stackBottom = s.stackBottom ∧ t.dataLength = s.dataLength

theorem DestinationOnly.v0AndStreamsOnly {s t : State} (h : DestinationOnly Reg.v0 s t) : V0AndStreamsOnly s t := by
  obtain ⟨hregs, hmem, hhilo, -, -, hpc, hir, hbottom, hlength⟩ := h
  exact ⟨hregs, hmem, hhilo, hpc, hir, hbottom, hlength⟩

theorem v0AndStreamsOnly_haltNormally (s : State) : V0AndStreamsOnly s (haltNormally s) :=
  ⟨⟨fun _ _ => rfl, rfl⟩, fun _ => rfl, ⟨rfl, rfl⟩, rfl, rfl, rfl, rfl⟩

theorem v0AndStreamsOnly_setTracing (s : State) (on : Bool) : V0AndStreamsOnly s (s.setTracing on) :=
  ⟨⟨fun _ _ => rfl, rfl⟩, fun _ => rfl, ⟨rfl, rfl⟩, rfl, rfl, rfl, rfl⟩

/-- What each system call may do to the streams, the switch and the status (R206, R208). -/
def StreamsByService (i : Instr) (s t : State) : Prop :=
  (i ∈ [.exit, .stra, .notr] → RegistersKept [] s t ∧ StreamsKept { s with tracing := t.tracing } t ∧
    t.stderr = s.stderr ∧ t.draws = s.draws) ∧
  (i ∉ [.rch, .rflt] → t.stdin = s.stdin) ∧
  (i ∉ [.stra, .notr] → t.tracing = s.tracing) ∧
  (i ∉ [.pstr, .pint, .pflt, .pch] → t.stdout = s.stdout) ∧
  (i ≠ .exit → AtMostOneError s t)

theorem exit_frame (s : State) :
    V0AndStreamsOnly s (haltNormally s) ∧ StreamsByService .exit s (haltNormally s) :=
  ⟨v0AndStreamsOnly_haltNormally s, fun _ => ⟨⟨fun _ _ => rfl, rfl⟩, ⟨rfl, rfl, rfl⟩, rfl, rfl⟩, fun _ => rfl,
    fun _ => rfl, fun _ => rfl, fun hne => absurd rfl hne⟩

section frames

variable {i : Instr}

theorem setTracing_frame (hi : i ∈ [.stra, .notr]) (s : State) (on : Bool) :
    V0AndStreamsOnly s (s.setTracing on) ∧ StreamsByService i s (s.setTracing on) :=
  ⟨v0AndStreamsOnly_setTracing s on, fun _ => ⟨⟨fun _ _ => rfl, rfl⟩, ⟨rfl, rfl, rfl⟩, rfl, rfl⟩, fun _ => rfl,
    fun hne => absurd hi hne, fun _ => rfl, fun _ => .inl ⟨rfl, rfl⟩⟩

theorem printing_frame {s t : State} (hi : i ∈ [.pstr, .pint, .pflt, .pch]) (h : exec i s = .next t) :
    V0AndStreamsOnly s t ∧ StreamsByService i s t := by
  have hquiet : i ∉ [.exit, .stra, .notr] :=
    (show ∀ j ∈ [Instr.pstr, .pint, .pflt, .pch], j ∉ [.exit, .stra, .notr] by decide) i hi
  obtain ⟨bs, ⟨v, rfl⟩ | ⟨e, rfl⟩⟩ := exec_printing_cases hi h
  · have hwrite := destinationOnly_setReg (outBytes bs s) (d := Reg.v0) (by decide) v
    exact ⟨hwrite.v0AndStreamsOnly, fun hmem => absurd hmem hquiet, fun _ => rfl, fun _ => rfl,
      fun hne => absurd hi hne, fun _ => .inl ⟨rfl, rfl⟩⟩
  · have herror := destinationOnly_raise Reg.v0 (outBytes bs s).nextDraw e
    exact ⟨herror.v0AndStreamsOnly, fun hmem => absurd hmem hquiet, fun _ => rfl, fun _ => rfl,
      fun hne => absurd hi hne, fun _ => .inr ⟨e, rfl, rfl⟩⟩

theorem reading_frame {s t : State} (hi : i ∈ [.rch, .rflt]) (h : exec i s = .next t) :
    V0AndStreamsOnly s t ∧ StreamsByService i s t := by
  have hquiet : i ∉ [.exit, .stra, .notr] :=
    (show ∀ j ∈ [Instr.rch, .rflt], j ∉ [.exit, .stra, .notr] by decide) i hi
  obtain ⟨u, rest, v, hu, rfl⟩ := exec_reading_cases hi h
  have hwrite := (destinationOnly_setReg (u.setStdin rest) (d := Reg.v0) (by decide) v).v0AndStreamsOnly
  rcases hu with rfl | rfl
  all_goals exact ⟨hwrite, fun hmem => absurd hmem hquiet, fun hne => absurd hi hne, fun _ => rfl, fun _ => rfl,
    fun _ => .inl ⟨rfl, rfl⟩⟩

end frames

/-- The nine services are `EXIT`, the two switches, the four that print and the two that read. -/
theorem exec_systemCall_frame {i : Instr} {s t : State}
    (hi : i ∈ [.exit, .pstr, .pint, .pflt, .pch, .rch, .rflt, .stra, .notr]) (h : exec i s = .next t) :
    V0AndStreamsOnly s t ∧ StreamsByService i s t := by
  cases i with
  | exit => cases h; exact exit_frame s
  | stra | notr => cases h; exact setTracing_frame (by decide) s _
  | pstr | pint | pflt | pch => exact printing_frame (by decide) h
  | rch | rflt => exact reading_frame (by decide) h
  | _ => simp at hi

/-- Settles O28: each service is one of the shared operations on the streams, then at most one write of `$v0`. -/
theorem systemCallsChangeNoRegisterButV0 : Obligations.SystemCallsChangeNoRegisterButV0 := by
  intro i s t hi h
  have hframe := exec_systemCall_frame hi h
  simpa only [V0AndStreamsOnly, StreamsByService, and_assoc] using hframe

/-! ## What each service answers -/

/-- A tracing call that sets the switch to what it is changes nothing (R216, R217). -/
theorem State.setTracing_self {s : State} {on : Bool} (h : s.tracing = on) : s.setTracing on = s := by
  rw [← h]
  rfl

/-- Settles O51: the codes are the encoder's, and each meaning sets its one field. -/
theorem exitHaltsAndTracingCallsSwitch : Obligations.ExitHaltsAndTracingCallsSwitch := by
  intro s
  refine ⟨⟨?_, rfl⟩, ⟨?_, rfl, fun h => congrArg _ (State.setTracing_self h)⟩,
    ⟨?_, rfl, fun h => congrArg _ (State.setTracing_self h)⟩⟩
  · exact decode_of_encode_eq (i := .exit) rfl rfl
  · exact decode_of_encode_eq (i := .stra) rfl rfl
  · exact decode_of_encode_eq (i := .notr) rfl rfl

/-- `RCH` with input left takes its first byte (R213). -/
theorem execRch_cons {s : State} {c : Byte} {rest : List Byte} (h : s.stdin = c :: rest) :
    execRch s = .next ({ s with stdin := rest }.setReg 2 (c.setWidth 32)) := by
  simp only [execRch, h]
  rfl

/-- Settles O55: with input left and at its end. -/
theorem readCharacterConsumesOneByte : Obligations.ReadCharacterConsumesOneByte :=
  fun _ => ⟨fun _ _ => execRch_cons, execRch_eof⟩

/-- Settles O56: one lemma for each of the three things `ParseFloat` can read. -/
theorem readFloatTakesTheNumberRead : Obligations.ReadFloatTakesTheNumberRead :=
  fun _ _ => ⟨fun _ h => execRflt_datum h, fun h => ⟨_, f32IsNaN_nanOfFree _, execRflt_nan h⟩,
    fun h => ⟨_, execRflt_nothing h⟩⟩

/-! ## Printing a string -/

/-- The first `n` bytes of memory from `a` up. -/
def Memory.bytesFrom (m : Memory) (a n : Nat) : List Byte := (List.range n).map fun k => m.read (a + k)

theorem Memory.bytesFrom_succ (m : Memory) (a n : Nat) :
    m.bytesFrom a (n + 1) = m.read a :: m.bytesFrom (a + 1) n := by
  simp [Memory.bytesFrom, List.range_succ_eq_map, Function.comp_def, Nat.add_assoc, Nat.add_comm 1]

@[simp] theorem Memory.length_bytesFrom (m : Memory) (a n : Nat) : (m.bytesFrom a n).length = n := by
  simp [Memory.bytesFrom]

theorem Memory.take_bytesFrom (m : Memory) (a n k : Nat) : (m.bytesFrom a n).take k = m.bytesFrom a (min k n) := by
  rw [Memory.bytesFrom, ← List.map_take, List.take_range, Memory.bytesFrom]

/-- A scan that meets a zero byte gives the bytes before it (R209). -/
theorem Memory.scanString_terminated {m : Memory} {left a n : Nat} (hn : n < left)
    (hbytes : ∀ k < n, m.read (a + k) ≠ 0) (hzero : m.read (a + n) = 0) :
    m.scanString left a = (true, m.bytesFrom a n) := by
  induction n generalizing left a with
  | zero =>
    obtain ⟨left, rfl⟩ := Nat.exists_eq_add_one_of_ne_zero (Nat.ne_zero_of_lt hn)
    exact if_pos hzero
  | succ n ih =>
    obtain ⟨left, rfl⟩ := Nat.exists_eq_add_one_of_ne_zero (Nat.ne_zero_of_lt hn)
    have hshift (k : Nat) : a + 1 + k = a + (k + 1) := by omega
    have hrest := ih (left := left) (a := a + 1) (by omega)
      (fun k hk => hshift k ▸ hbytes (k + 1) (by omega)) (hshift n ▸ hzero)
    have hfirst : m.read a ≠ 0 := hbytes 0 (by omega)
    rw [Memory.scanString, if_neg hfirst, hrest, Memory.bytesFrom_succ]

/-- A scan that meets no zero byte gives all the bytes (R209). -/
theorem Memory.scanString_unterminated {m : Memory} {left a : Nat} (hbytes : ∀ k < left, m.read (a + k) ≠ 0) :
    m.scanString left a = (false, m.bytesFrom a left) := by
  induction left generalizing a with
  | zero => rfl
  | succ left ih =>
    have hrest := ih (a := a + 1) fun k hk => by
      rw [show a + 1 + k = a + (k + 1) by omega]
      exact hbytes (k + 1) (by omega)
    have hfirst : m.read a ≠ 0 := hbytes 0 (by omega)
    rw [Memory.scanString, if_neg hfirst, hrest, Memory.bytesFrom_succ]

/-- `PSTR` prints what a scan that met a zero byte gave (R209). -/
theorem execPstr_of_terminated {s : State} {text : List Byte}
    (h : s.mem.scanString (Config.memorySize - u32 (s.x 4)) (u32 (s.x 4)) = (true, text)) :
    execPstr s = .next ((outBytes text s).setReg Reg.v0 (w32 text.length)) := by
  rw [execPstr, h, ← printText_eq text s .default]
  rfl

/-- `PSTR` after a scan that met none: a part of what it gave is written, and the error raised (R209, D28). -/
theorem execPstr_of_unterminated {s : State} {text : List Byte}
    (h : s.mem.scanString (Config.memorySize - u32 (s.x 4)) (u32 (s.x 4)) = (false, text)) :
    execPstr s = .next (raise (.addressOutOfRange (stringEnd (s.x 4)) 1)
      (outBytes (text.take (Config.freeLength s.draws)) s).nextDraw) := by
  rw [execPstr, h]
  rfl

/-- Settles O53: the scan gives the bytes before the zero. -/
theorem printStringWritesTheBytesBeforeTheZero : Obligations.PrintStringWritesTheBytesBeforeTheZero := by
  intro s n hn hbytes hzero
  have hscan := Memory.scanString_terminated (left := Config.memorySize - u32 (s.x 4))
    (by rw [Config.memorySize]; omega) hbytes hzero
  rw [show exec .pstr s = execPstr s from rfl, execPstr_of_terminated hscan, Memory.length_bytesFrom, outBytes,
    Memory.bytesFrom, List.map_map]
  rfl

/-- Settles O54: the scan gives all the bytes there are, and a first part of them is written. -/
theorem printStringUnterminatedIsAnError : Obligations.PrintStringUnterminatedIsAnError := by
  intro s hbytes
  have hscan := Memory.scanString_unterminated (m := s.mem) (left := Config.memorySize - u32 (s.x 4))
    (a := u32 (s.x 4)) fun k hk => hbytes _ (by omega) (by rw [Config.memorySize] at hk; omega)
  refine ⟨min (Config.freeLength s.draws) (Config.memorySize - u32 (s.x 4)), ?_, min_le_right _ _⟩
  rw [show exec .pstr s = execPstr s from rfl, execPstr_of_unterminated hscan, Memory.take_bytesFrom, outBytes,
    Memory.bytesFrom, List.map_map]
  rfl

end Sys2Proof.Machine
end

section
/-! SUPPORT. The tracing output of a step and what a state block holds (spec R222 to R224); statement O21. -/

namespace Sys2Proof.Machine

/-! ## What an instruction traces -/

/-- The trace is part of `stdout` (R225). -/
theorem State.trace_congr {s t : State} (h : t.stdout = s.stdout) : t.trace = s.trace := by
  rw [State.trace, State.trace, h]

/-- The program's bytes are no trace (R225). -/
theorem outBytes_trace (bs : List Byte) (s : State) : (outBytes bs s).trace = s.trace := by
  simp [State.trace, List.filterMap_map]

/-- Appended trace items are appended to the trace (R225). -/
theorem emit_trace_trace (ts : List TraceItem) (s : State) :
    (s.emit (ts.map OutItem.trace)).trace = s.trace ++ ts := by
  simp [State.trace, List.filterMap_map]

/-- The instruction's line is traced exactly if tracing is on (R224). -/
theorem traceInstruction_trace (addr : Word) (i : Instr) (s : State) :
    (traceInstruction addr i s).trace = s.trace ++ if s.tracing = true then [.instruction addr i] else [] := by
  rw [traceInstruction]
  split
  · exact emit_trace_trace [_] s
  · exact (List.append_nil _).symm

/-- A system call traces nothing: it appends at most the program's bytes (R225). -/
theorem exec_systemCall_trace {i : Instr} {s t : State}
    (hi : i ∈ [.exit, .pstr, .pint, .pflt, .pch, .rch, .rflt, .stra, .notr]) (h : exec i s = .next t) :
    t.trace = s.trace := by
  obtain ⟨-, -, -, -, hout, -⟩ := exec_systemCall_frame hi h
  by_cases hprint : i ∈ [.pstr, .pint, .pflt, .pch]
  · obtain ⟨bs, ⟨v, rfl⟩ | ⟨e, rfl⟩⟩ := exec_printing_cases hprint h
    all_goals exact outBytes_trace bs s
  · exact State.trace_congr (hout hprint)

/-- No instruction traces anything: each but the system calls leaves `stdout` as it was. -/
theorem exec_trace {i : Instr} {s t : State} (h : exec i s = .next t) : t.trace = s.trace := by
  cases i with
  | exit | pstr | pint | pflt | pch | rch | rflt | stra | notr => exact exec_systemCall_trace (by decide) h
  | mul rs rt | div rs rt =>
    obtain ⟨-, -, ⟨-, hout, -⟩, -⟩ := multiplyAndDivideChangeHiAndLoOnly _ s t ⟨rs, rt, by simp⟩ h
    exact State.trace_congr hout
  | beq | bne | bgez | bgtz | blez | bltz | bfeq | bfne | bfgz | bfgtz | bflez | bfltz | jmp | jal | jr =>
    obtain ⟨-, -, -, -, ⟨-, hout, -⟩, -⟩ := controlTransfersChangeThePcOnly _ s t (by simp) h
    exact State.trace_congr hout
  | sb rs rt o =>
    obtain ⟨-, -, -, ⟨-, hout, -⟩, -⟩ := storesChangeTheirBytesOnly _ rs rt o 1 s t (.inl ⟨rfl, rfl⟩) h
    exact State.trace_congr hout
  | sw rs rt o | fsw rs rt o =>
    obtain ⟨-, -, -, ⟨-, hout, -⟩, -⟩ := storesChangeTheirBytesOnly _ rs rt o 4 s t (.inr ⟨by simp, rfl⟩) h
    exact State.trace_congr hout
  | _ =>
    obtain ⟨-, -, -, ⟨-, hout, -⟩, -⟩ := (exec_writesOrRaises rfl h).destinationOnly
    exact State.trace_congr hout

/-! ## What a step traces -/

theorem checkInvariants_stdout (s : State) : (checkInvariants s).stdout = s.stdout := by
  rcases checkInvariants_cases s .default with h | ⟨k, -, -, h⟩ <;> rw [h]
  rfl

/-- The end of the cycle traces the blocks of the state it leaves (R224). -/
theorem endCycle_trace (s : State) : (endCycle s).trace = s.trace ++ blocksAfter (endCycle s) := by
  rw [endCycle_eq, traceAfter, emit_trace_trace, State.trace_congr (checkInvariants_stdout s)]
  rfl

/-- A step that executes an instruction traces its line if tracing was on, then the blocks of the new state (R224). -/
theorem step_trace {s t : State} {w : Word} {i : Instr} (hf : fetch s = .ok w) (hd : decode w = .ok i)
    (h : step s = .next t) :
    t.trace = s.trace ++ (if s.tracing = true then [.instruction s.pc i] else []) ++ blocksAfter t := by
  obtain ⟨-, ⟨e, hf', -⟩ | ⟨w', hf', ⟨e, hd', -⟩ | ⟨i', u, hd', hexec, rfl⟩⟩⟩ := step_cases h
  · cases hf.symm.trans hf'
  · cases hf.symm.trans hf'
    cases hd.symm.trans hd'
  · cases hf.symm.trans hf'
    cases hd.symm.trans hd'
    rw [endCycle_trace, exec_trace hexec, traceInstruction_trace]
    rfl

/-! ## What a block holds -/

/-- In a canonical memory the bytes shown between two addresses are the non-zero ones there (R222). -/
theorem Memory.mem_between_iff {m : Memory} (h : m.wf) (low high a : Nat) (b : Byte) :
    (a, b) ∈ m.between low high ↔ low ≤ a ∧ a < high ∧ m.read a = b ∧ b ≠ 0 := by
  rw [Memory.between, List.mem_filter, Memory.mem_iff_read h, Memory.unlisted, decide_eq_true_iff]
  tauto

/-- An empty data section shows nothing (C10). -/
theorem dataShown_of_empty {s : State} (h : s.dataLength = 0) : dataShown s = none := if_pos h

theorem dataShown_of_nonempty {s : State} (h : s.dataLength ≠ 0) :
    dataShown s = some (s.mem.between (u32 (s.x Reg.gp)) (u32 (s.x Reg.gp) + s.dataLength)) :=
  if_neg h

/-- Settles O21: no instruction touches the trace, so it grows by the cycle's own items; the block is read off its
definition in a canonical memory. -/
theorem stepTracesTheInstructionAndTheState : Obligations.StepTracesTheInstructionAndTheState := by
  refine ⟨fun s t w i _ hf hd h => ?trace, fun s hwf => ?block⟩
  case trace =>
    exact ⟨blocksAfter t, step_trace hf hd h, blocksAfter_running, blocksAfter_exit, blocksAfter_cases t⟩
  case block =>
    exact ⟨rfl, rfl, rfl, rfl, dataShown_of_empty,
      fun hlength => ⟨_, dataShown_of_nonempty hlength, Memory.mem_between_iff hwf _ _⟩,
      Memory.mem_between_iff hwf _ _, rfl⟩

end Sys2Proof.Machine
end

section
/-! SUPPORT. The texts that the printing calls write: decimal digits and the value they denote, `%d` and `%f` (spec R208,
R210 to R212); statement O52. -/

namespace Sys2Proof.Machine

/-! ## Decimal digits -/

theorem digitsValue_append_singleton (ds : List Byte) (b : Byte) :
    digitsValue (ds ++ [b]) = 10 * digitsValue ds + (b.toNat - 0x30) := by
  simp [digitsValue]

theorem areDigits_nil : AreDigits [] := fun _ hb => nomatch hb

theorem areDigits_append {ds es : List Byte} (hd : AreDigits ds) (he : AreDigits es) : AreDigits (ds ++ es) :=
  List.forall_mem_append.mpr ⟨hd, he⟩

theorem toNat_digitChar (n : Nat) : (digitChar n).toNat = 0x30 + n % 10 := by
  rw [digitChar, BitVec.toNat_ofNat]
  omega

theorem areDigits_digitChar (n : Nat) : AreDigits [digitChar n] := by
  intro b hb
  rw [List.mem_singleton.mp hb, toNat_digitChar]
  omega

theorem digitsValue_append_digitChar (ds : List Byte) (n : Nat) :
    digitsValue (ds ++ [digitChar n]) = 10 * digitsValue ds + n % 10 := by
  rw [digitsValue_append_singleton, toNat_digitChar, Nat.add_sub_cancel_left]

/-- One digit is a text without leading zeros (R210). -/
theorem isDecimal_digitChar {n : Nat} (h : n < 10) : IsDecimal [digitChar n] n := by
  refine ⟨List.cons_ne_nil _ _, areDigits_digitChar n, fun hhead => ?_, ?_⟩
  · rw [Option.some.inj hhead]
  · exact (digitsValue_append_digitChar [] n).trans ((Nat.zero_add _).trans (Nat.mod_eq_of_lt h))

/-- One digit more at the end of a text that does not denote zero. -/
theorem IsDecimal.append_digitChar {ds : List Byte} {n : Nat} (h : IsDecimal ds (n / 10)) (hn : 10 ≤ n) :
    IsDecimal (ds ++ [digitChar n]) n := by
  obtain ⟨hne, hdigits, hlead, hvalue⟩ := h
  refine ⟨by simp, areDigits_append hdigits (areDigits_digitChar n), fun hhead => ?_, ?_⟩
  · rw [List.head?_append_of_ne_nil _ hne] at hhead
    rw [hlead hhead] at hvalue
    have hzero : digitsValue [0x30] = 0 := rfl
    omega
  · rw [digitsValue_append_digitChar, hvalue]
    exact Nat.div_add_mod n 10

/-- The digits put before `acc` are the number's, where the fuel suffices for all of them. -/
theorem digitsBefore_isDecimal (fuel : Nat) {n : Nat} (hn : n < 10 ^ (fuel + 1)) (acc : List Byte) :
    ∃ ds, digitsBefore (fuel + 1) n acc = ds ++ acc ∧ IsDecimal ds n := by
  induction fuel generalizing n acc with
  | zero => exact ⟨[digitChar n], if_pos (by simpa using hn), isDecimal_digitChar (by simpa using hn)⟩
  | succ fuel ih =>
    rw [digitsBefore]
    split
    next hlt => exact ⟨[digitChar n], rfl, isDecimal_digitChar hlt⟩
    next hge =>
      have hdiv : n / 10 < 10 ^ (fuel + 1) := Nat.div_lt_of_lt_mul (by rw [← pow_succ']; exact hn)
      obtain ⟨ds, hds, hdecimal⟩ := ih hdiv (digitChar n :: acc)
      exact ⟨ds ++ [digitChar n], by rw [hds]; simp, hdecimal.append_digitChar (Nat.le_of_not_lt hge)⟩

/-- A number has fewer decimal digits than its fuel, one more than its binary logarithm (R210). -/
theorem isDecimal_decimal (n : Nat) : IsDecimal (decimal n) n := by
  have hn : n < 10 ^ (Nat.log2 n + 1) := Nat.lt_log2_self.trans_le (Nat.pow_le_pow_left (by decide) _)
  obtain ⟨ds, hds, hdecimal⟩ := digitsBefore_isDecimal (Nat.log2 n) hn []
  rwa [decimal, hds, List.append_nil]

/-- A text of digits that does not begin with a zero denotes a number of as many places. -/
theorem pow_le_digitsValue {b : Byte} (hb : 0x30 < b.toNat) (ds : List Byte) :
    10 ^ ds.length ≤ digitsValue (b :: ds) := by
  induction ds using List.reverseRecOn with
  | nil =>
    have hvalue : digitsValue [b] = 10 * 0 + (b.toNat - 0x30) := rfl
    rw [hvalue, List.length_nil]
    omega
  | append_singleton ds c ih =>
    rw [← List.cons_append, digitsValue_append_singleton, List.length_append, List.length_singleton, pow_succ']
    omega

/-- A text without leading zeros is no longer than the number needs. -/
theorem IsDecimal.length_le {ds : List Byte} {n k : Nat} (h : IsDecimal ds n) (hn : n < 10 ^ (k + 1)) :
    ds.length ≤ k + 1 := by
  obtain ⟨hne, hdigits, hlead, hvalue⟩ := h
  obtain ⟨b, ds, rfl⟩ := List.exists_cons_of_ne_nil hne
  by_cases hb : b = 0x30
  · rw [hlead (congrArg some hb)]
    exact Nat.le_add_left 1 k
  · have hdigit := hdigits b List.mem_cons_self
    have hpos : b.toNat ≠ 0x30 := fun h0 => hb (BitVec.eq_of_toNat_eq h0)
    have hle := pow_le_digitsValue (b := b) (by omega) ds
    have hlt : ds.length < k + 1 := (Nat.pow_lt_pow_iff_right (by decide)).mp (hle.trans_lt (hvalue ▸ hn))
    exact hlt

/-! ## The text of an integer -/

/-- `%d` prints a minus sign for a negative number and the digits of its magnitude (R210). -/
theorem formatInt_eq (n : Int) : formatInt n = if n < 0 then 0x2D :: decimal n.natAbs else decimal n.natAbs := rfl

/-- A signed word takes at most ten digits and a sign (R210). -/
theorem length_formatInt (v : Word) : 1 ≤ (formatInt (s32 v)).length ∧ (formatInt (s32 v)).length ≤ 11 := by
  have hdecimal := isDecimal_decimal (s32 v).natAbs
  have hmin : 0 < (decimal (s32 v).natAbs).length := List.length_pos_iff.mpr hdecimal.1
  have hmax : (decimal (s32 v).natAbs).length ≤ 9 + 1 := hdecimal.length_le (by have := s32_cases v; omega)
  rw [formatInt_eq]
  split
  · rw [List.length_cons]
    omega
  · omega

/-! ## The text of a datum -/

theorem areDigits_fixedDigits (count n : Nat) : AreDigits (fixedDigits count n) := by
  induction count generalizing n with
  | zero => exact areDigits_nil
  | succ count ih => exact areDigits_append (ih _) (areDigits_digitChar n)

theorem length_fixedDigits (count n : Nat) : (fixedDigits count n).length = count := by
  induction count generalizing n with
  | zero => rfl
  | succ count ih => rw [fixedDigits, List.length_append, ih, List.length_singleton]

/-- A fixed number of digits denotes the number modulo a power of ten. -/
theorem digitsValue_fixedDigits (count n : Nat) : digitsValue (fixedDigits count n) = n % 10 ^ count := by
  induction count generalizing n with
  | zero => exact (Nat.mod_one n).symm
  | succ count ih =>
    rw [fixedDigits, digitsValue_append_digitChar, ih, pow_succ', Nat.mod_mul]
    omega

/-- The millionths printed are within half of one of the datum, whichever way a tie goes (R211). -/
theorem roundToMillionths_near (v : Word) :
    2 * ((roundToMillionths v * f32One : Nat) - (f32Units v * 1000000 : Nat) : Int).natAbs ≤ f32One := by
  have hdiv := Nat.div_add_mod' (f32Units v * 1000000) f32One
  have hmod := Nat.mod_lt (f32Units v * 1000000) (show 0 < f32One by decide)
  have hup : roundToMillionths v = f32Units v * 1000000 / f32One ∧ 2 * (f32Units v * 1000000 % f32One) ≤ f32One ∨
      roundToMillionths v = f32Units v * 1000000 / f32One + 1 ∧ f32One ≤ 2 * (f32Units v * 1000000 % f32One) := by
    unfold roundToMillionths
    dsimp only
    split_ifs <;> omega
  rcases hup with ⟨hround, hhalf⟩ | ⟨hround, hhalf⟩ <;> rw [hround]
  · omega
  · rw [add_one_mul]
    omega

/-- `%f` of a NaN (R211). -/
theorem formatFloat_of_isNaN {v : Word} (h : f32IsNaN v = true) :
    formatFloat v = [0x6E, 0x61, 0x6E] ∨ formatFloat v = [0x2D, 0x6E, 0x61, 0x6E] := by
  rw [formatFloat, if_pos h]
  split
  · exact .inr rfl
  · exact .inl rfl

/-- `%f` of a datum that is no NaN: its sign and the text of its magnitude (R211). -/
theorem formatFloat_of_not_isNaN {v : Word} (h : f32IsNaN v = false) :
    formatFloat v = (if f32Sign v = true then [0x2D] else []) ++
      if f32IsInf v = true then textInf
      else decimal (roundToMillionths v / 1000000) ++ 0x2E :: fixedDigits 6 (roundToMillionths v % 1000000) := by
  rw [formatFloat, if_neg (by simp [h])]
  cases f32Sign v <;> rfl

/-- `%f` of a finite datum (R211). -/
theorem formatFloat_of_finite {v : Word} (hnan : f32IsNaN v = false) (hinf : f32IsInf v = false) :
    ∃ (n : Nat) (ds fs : List Byte), IsDecimal ds n ∧ AreDigits fs ∧ fs.length = 6 ∧
      formatFloat v = (if f32Sign v = true then [0x2D] else []) ++ ds ++ [0x2E] ++ fs ∧
      2 * (((n * 1000000 + digitsValue fs) * f32One : Int) - f32Units v * 1000000).natAbs ≤ f32One := by
  refine ⟨roundToMillionths v / 1000000, _, fixedDigits 6 (roundToMillionths v % 1000000), isDecimal_decimal _,
    areDigits_fixedDigits 6 _, length_fixedDigits 6 _, ?text, ?near⟩
  case text =>
    rw [formatFloat_of_not_isNaN hnan, hinf]
    simp
  case near =>
    have hmillionths : roundToMillionths v / 1000000 * 1000000 +
        digitsValue (fixedDigits 6 (roundToMillionths v % 1000000)) = roundToMillionths v := by
      rw [digitsValue_fixedDigits]
      omega
    have hnear := roundToMillionths_near v
    rw [← hmillionths] at hnear
    exact_mod_cast hnear

/-- Settles O52: the calls by the shared printing operation, the texts by the digits they are made of. -/
theorem printingCallsWriteTheirText : Obligations.PrintingCallsWriteTheirText := by
  refine ⟨fun s => ⟨?pint, ?pflt, ?pch⟩, fun n => ⟨_, isDecimal_decimal _, formatInt_eq n⟩, length_formatInt,
    fun v => formatFloat_of_finite, ?inf, ?negInf, fun v => formatFloat_of_isNaN⟩
  case pint => exact congrArg Host.Outcome.next (printText_eq _ s .default)
  case pflt => exact congrArg Host.Outcome.next (printText_eq _ s .default)
  case pch => exact congrArg Host.Outcome.next (writeReg_of_ne (by decide) _ _ _)
  case inf => exact formatFloat_of_not_isNaN (by decide)
  case negInf => exact formatFloat_of_not_isNaN (by decide)

end Sys2Proof.Machine
end

section
/-! SUPPORT. The datum nearest a number with an exponent of ten or two (spec R139, R215). -/

namespace Sys2Proof.Machine

/-! ## One value as two ratios -/

section ratio

variable {n d n' d' : Nat} {sign : Bool} {w : Word}

/-- Distances scale with the ratio's two numbers. -/
theorem natAbs_sub_scaled (n d c u : Nat) :
    (((n * c : Nat) : Int) - u * (d * c : Nat)).natAbs = ((n : Int) - u * d).natAbs * c := by
  rw [show ((n * c : Nat) : Int) - u * (d * c : Nat) = ((n : Int) - u * d) * c by push_cast; ring, Int.natAbs_mul,
    Int.natAbs_natCast]

/-- Rounding looks at the ratio alone, however it is expanded (R139). -/
theorem isRounded_scale_iff {c : Nat} (hc : 0 < c) : IsRounded sign (n * c) (d * c) w ↔ IsRounded sign n d w := by
  have hinf : (2 ^ 25 - 1) * 2 ^ 252 * (d * c) ≤ n * c ↔ (2 ^ 25 - 1) * 2 ^ 252 * d ≤ n := by
    rw [← mul_assoc]
    exact Nat.mul_le_mul_right_iff hc
  unfold IsRounded
  simp only [natAbs_sub_scaled, hinf, Nat.mul_le_mul_right_iff hc, Nat.mul_left_inj hc.ne']

/-- Two ratios of one value are rounded alike. -/
theorem IsRounded.of_proportional (hd : 0 < d) (hd' : 0 < d') (h : n * d' = n' * d) (hr : IsRounded sign n d w) :
    IsRounded sign n' d' w := by
  rw [← isRounded_scale_iff hd', h, Nat.mul_comm d d'] at hr
  exact (isRounded_scale_iff hd).mp hr

/-- From halfway past the largest finite datum up the result is an infinity (R139). -/
theorem f32Round_eq_f32Inf (hd : 0 < d) (h : (2 ^ 25 - 1) * 2 ^ 252 * d ≤ n) : f32Round sign n d = f32Inf sign := by
  have hm : infMagnitude ≤ roundMagnitude n d :=
    ((isNearestMagnitude_roundMagnitude hd).infMagnitude_le_iff hd).mpr h
  apply eq_of_sign_of_magnitude
  · rw [f32Round_eq_pack, f32Sign_f32Pack, f32Sign_f32Inf]
  · rw [f32Round_eq_pack, f32Magnitude_f32Pack, min_eq_right hm, f32IsInf_iff.mp (f32IsInf_f32Inf sign)]

/-- Below half the least subnormal datum the result is a zero (R139). -/
theorem f32Round_eq_f32Zero (h : 2 * n < d) : f32Round sign n d = f32Zero sign := by
  have hquot : n / d = 0 := Nat.div_eq_of_lt (by omega)
  have hround : roundHalfEven n d = 0 := by
    rw [roundHalfEven, hquot, Nat.mod_eq_of_lt (by omega)]
    exact if_neg (by omega)
  have hscale : f32Scale 0 = 0 := rfl
  rw [f32Round_eq_pack, roundMagnitude, hquot, hscale, pow_zero, mul_one, hround]
  rfl

end ratio

/-! ## A number with an exponent -/

/-- The one scheme of `f32OfDecimal` and `f32OfBinary`: an infinity above the exponent `high`, a zero where the exponent is
more than `low` below minus the number's binary logarithm, else the value rounded. -/
def f32OfPower (base high low : Nat) (negative : Bool) (m : Nat) (x : Int) : Word :=
  if m = 0 then f32Zero negative
  else if 0 ≤ x then
    if high < x then f32Inf negative else f32Round negative (m * base ^ x.toNat * f32One) 1
  else if Nat.log2 m + low < (-x).toNat then f32Zero negative
  else f32Round negative (m * f32One) (base ^ (-x).toNat)

theorem f32OfDecimal_eq_f32OfPower : f32OfDecimal = f32OfPower 10 40 60 := rfl

theorem f32OfBinary_eq_f32OfPower : f32OfBinary = f32OfPower 2 200 200 := rfl

section power

variable {base high low : Nat}

/-- Far enough below its binary logarithm a number of units is less than half of one. -/
theorem two_mul_units_lt_pow (hbase : 2 ≤ base) (hlow : 2 ^ 150 ≤ base ^ low) {m k : Nat}
    (hk : Nat.log2 m + low < k) : 2 * (m * f32One) < base ^ k := by
  calc 2 * (m * f32One) = m * 2 ^ 150 := by rw [f32One]; ring
    _ < 2 ^ (Nat.log2 m + 1) * 2 ^ 150 := Nat.mul_lt_mul_of_pos_right Nat.lt_log2_self (by decide)
    _ ≤ base ^ (Nat.log2 m + 1) * base ^ low := Nat.mul_le_mul (Nat.pow_le_pow_left hbase _) hlow
    _ = base ^ (Nat.log2 m + 1 + low) := (pow_add _ _ _).symm
    _ ≤ base ^ k := Nat.pow_le_pow_right (by omega) (by omega)

/-- The exponents that are not tried change nothing: the result is the value rounded, whatever the exponent. -/
theorem f32OfPower_eq_f32Round (hbase : 2 ≤ base) (hhigh : (2 ^ 25 - 1) * 2 ^ 252 ≤ base ^ high * f32One)
    (hlow : 2 ^ 150 ≤ base ^ low) (negative : Bool) (m : Nat) (x : Int) :
    f32OfPower base high low negative m x =
      f32Round negative (m * base ^ x.toNat * f32One) (base ^ (-x).toNat) := by
  have hpos (k : Nat) : 0 < base ^ k := Nat.pow_pos (by omega)
  unfold f32OfPower
  split_ifs with hm hx hbig hsmall
  · have hzero := hpos (-x).toNat
    exact (f32Round_eq_f32Zero (by rw [hm]; omega)).symm
  · refine (f32Round_eq_f32Inf (hpos _) ?_).symm
    rw [show (-x).toNat = 0 by omega, pow_zero, mul_one]
    calc (2 ^ 25 - 1) * 2 ^ 252 ≤ base ^ high * f32One := hhigh
      _ ≤ m * base ^ x.toNat * f32One := by
        refine Nat.mul_le_mul_right _ ((Nat.pow_le_pow_right (by omega) (show high ≤ x.toNat by omega)).trans ?_)
        exact Nat.le_mul_of_pos_left _ (Nat.pos_of_ne_zero hm)
  · rw [show (-x).toNat = 0 by omega, pow_zero]
  · rw [show x.toNat = 0 by omega, pow_zero, mul_one]
    exact (f32Round_eq_f32Zero (two_mul_units_lt_pow hbase hlow hsmall)).symm
  · rw [show x.toNat = 0 by omega, pow_zero, mul_one]

/-- The result is `m * base^a / base^k` rounded, where `a - k` is the exponent (R215). -/
theorem isRounded_f32OfPower (hbase : 2 ≤ base) (hhigh : (2 ^ 25 - 1) * 2 ^ 252 ≤ base ^ high * f32One)
    (hlow : 2 ^ 150 ≤ base ^ low) (negative : Bool) (m : Nat) {x : Int} {a k : Nat} (hx : x = a - k) :
    IsRounded negative (m * base ^ a * f32One) (base ^ k) (f32OfPower base high low negative m x) := by
  have hpos (k : Nat) : 0 < base ^ k := Nat.pow_pos (by omega)
  rw [f32OfPower_eq_f32Round hbase hhigh hlow]
  refine (isRounded_f32Round negative (hpos _)).of_proportional (hpos _) (hpos _) ?_
  have hpow : base ^ x.toNat * base ^ k = base ^ a * base ^ (-x).toNat := by
    rw [← pow_add, ← pow_add, show x.toNat + k = a + (-x).toNat by omega]
  calc m * base ^ x.toNat * f32One * base ^ k = m * f32One * (base ^ x.toNat * base ^ k) := by ring
    _ = m * base ^ a * f32One * base ^ (-x).toNat := by rw [hpow]; ring

end power

/-- `f32OfDecimal` is the nearest datum (R215). -/
theorem isRounded_f32OfDecimal (negative : Bool) (m : Nat) {x : Int} {a k : Nat} (hx : x = a - k) :
    IsRounded negative (m * 10 ^ a * f32One) (10 ^ k) (f32OfDecimal negative m x) :=
  isRounded_f32OfPower (by decide) (by decide) (by decide) negative m hx

/-- `f32OfBinary` is the nearest datum (R215). -/
theorem isRounded_f32OfBinary (negative : Bool) (m : Nat) {x : Int} {a k : Nat} (hx : x = a - k) :
    IsRounded negative (m * 2 ^ a * f32One) (2 ^ k) (f32OfBinary negative m x) :=
  isRounded_f32OfPower (by decide) (by decide) (by decide) negative m hx

end Sys2Proof.Machine
end

section
/-! SUPPORT. The scan of a floating-point literal, byte by byte: what it reads and where it stops (spec R215). -/

namespace Sys2Proof.Machine

/-! ## Reading and stopping -/

/-- The scan `c` takes all of `t` for the start of a literal and then stands at `c'`. -/
def Scan.Reads (c : Scan) (t : List Byte) (c' : Scan) : Prop := t.foldlM Scan.advance c = some c'

/-- What follows does not go on with what the scan `c` has read. -/
def Scan.StopsAt (c : Scan) (rest : List Byte) : Prop := ∀ b ∈ rest.head?, c.advance b = none

section reads

variable {c c' c'' : Scan} {t t' rest : List Byte} {b : Byte}

theorem Scan.Reads.nil (c : Scan) : c.Reads [] c := rfl

theorem Scan.Reads.cons (hb : c.advance b = some c') (h : c'.Reads t c'') : c.Reads (b :: t) c'' := by
  rw [Scan.Reads, List.foldlM_cons, hb]
  exact h

theorem Scan.Reads.single (hb : c.advance b = some c') : c.Reads [b] c' := .cons hb (.nil c')

theorem Scan.Reads.append (h : c.Reads t c') (h' : c'.Reads t' c'') : c.Reads (t ++ t') c'' := by
  rw [Scan.Reads, List.foldlM_append, h]
  exact h'

/-- The scan runs over what it reads. -/
theorem Scan.run_append (h : c.Reads t c') (rest : List Byte) : c.run (t ++ rest) = c'.run rest := by
  induction t generalizing c with
  | nil => rw [Option.some.inj h, List.nil_append]
  | cons b t ih =>
    rw [Scan.Reads, List.foldlM_cons] at h
    obtain ⟨u, hu, hrest⟩ := Option.bind_eq_some_iff.mp h
    rw [List.cons_append, Scan.run, hu]
    exact ih hrest

/-- The scan ends where the next byte does not go on. -/
theorem Scan.run_of_stopsAt (h : c.StopsAt rest) : c.run rest = (c, rest) := by
  cases rest with
  | nil => rfl
  | cons b rest =>
    rw [Scan.run, h b rfl]

end reads

/-! ## White space before a literal -/

theorem isSpaceByte_iff {b : Byte} : isSpaceByte b = true ↔ AreSpaces [b] := by
  simp [isSpaceByte, AreSpaces]

/-- White space begins no literal (R215). -/
theorem advance_space {b : Byte} (h : isSpaceByte b = true) : Scan.initial.advance b = none := by
  revert b
  decide

/-- White space is skipped, up to a byte that is none (R215). -/
theorem dropWhile_spaces {ws t : List Byte} (hws : AreSpaces ws) (ht : ∀ b ∈ t.head?, isSpaceByte b = false) :
    (ws ++ t).dropWhile isSpaceByte = t := by
  have hall : ∀ b ∈ ws, isSpaceByte b = true := fun b hb =>
    isSpaceByte_iff.mpr fun b' hb' => List.mem_singleton.mp hb' ▸ hws b hb
  rw [List.dropWhile_append_of_pos hall]
  cases t with
  | nil => rfl
  | cons b t => exact List.dropWhile_cons_of_neg (by simp [ht b rfl])

/-- White space, then what the scan reads: that is what is parsed, and what follows it is left (R215). -/
theorem parseFloat_of_reads {ws t rest : List Byte} {c : Scan} (hws : AreSpaces ws) (ht : t ≠ [])
    (hreads : Scan.initial.Reads t c) (hstop : c.StopsAt rest) :
    parseFloat (ws ++ t ++ rest) = (c.result, rest) := by
  have hhead : ∀ b ∈ (t ++ rest).head?, isSpaceByte b = false := by
    obtain ⟨b, t, rfl⟩ := List.exists_cons_of_ne_nil ht
    intro b' hb'
    cases hb'
    refine Bool.eq_false_iff.mpr fun hspace => ?_
    rw [Scan.Reads, List.foldlM_cons, advance_space hspace] at hreads
    cases hreads
  rw [parseFloat, List.append_assoc, dropWhile_spaces hws hhead, Scan.run_append hreads, Scan.run_of_stopsAt hstop]

/-- White space and then nothing, or a byte that begins no literal: nothing is read (R215). -/
theorem parseFloat_nothing {ws rest : List Byte} (hws : AreSpaces ws) (hhead : ∀ b ∈ rest.head?, isSpaceByte b = false)
    (hstop : Scan.initial.StopsAt rest) : parseFloat (ws ++ rest) = (.nothing, rest) := by
  rw [parseFloat, dropWhile_spaces hws hhead, Scan.run_of_stopsAt hstop]
  rfl

/-! ## Kinds of bytes -/

/-- A decimal digit and its value (R215). -/
theorem decimalDigit_of_digit {b : Byte} (h : 0x30 ≤ b.toNat ∧ b.toNat ≤ 0x39) :
    decimalDigit b = some (b.toNat - 0x30) := if_pos h

theorem decimalDigit_eq_none {b : Byte} (h : ¬ (0x30 ≤ b.toNat ∧ b.toNat ≤ 0x39)) : decimalDigit b = none := if_neg h

/-- A byte is a letter in any case, the letter being given in lower case. -/
theorem lowerCase_eq_iff {b letter : Byte} (h : 0x61 ≤ letter.toNat ∧ letter.toNat ≤ 0x7A) :
    lowerCase b = letter ↔ b = letter ∨ b + 0x20 = letter := by
  unfold lowerCase
  split <;> bv_omega

end Sys2Proof.Machine
end

section
/-! SUPPORT. Decimal and hexadecimal literals: what the scan has read of them and where it stops (spec R215). One account
of both: how a base's digits, period and exponent move the scan, and from that what it makes of a whole literal. -/

namespace Sys2Proof.Machine

/-! ## The literals of one base -/

/-- How the literals of one base are scanned: their digits, their exponent's letter, and the phases they go through. -/
structure NumeralForm where
  /-- The base of the digits. -/
  base : Nat
  /-- The digits. -/
  IsDigit : Byte → Prop
  /-- The value of a digit. -/
  value : Byte → Nat
  /-- The letter of the exponent, in lower case. -/
  letter : Byte
  /-- Where no digit and no period has been read. -/
  opening : List ScanPhase
  /-- Among the digits before the period. -/
  whole : List ScanPhase
  /-- After a period with no digit before it. -/
  point : ScanPhase
  /-- After a period and a digit. -/
  fraction : ScanPhase
  /-- After the exponent's letter. -/
  mark : ScanPhase
  /-- After the exponent's sign. -/
  sign : ScanPhase
  /-- Among the exponent's digits. -/
  exponent : ScanPhase

/-- The number that digits denote after a number already read. -/
def NumeralForm.numberFrom (y : NumeralForm) (m : Nat) (ds : List Byte) : Nat :=
  ds.foldl (fun n b => y.base * n + y.value b) m

/-- How each byte of a literal moves the scan (R215). -/
structure NumeralForm.Scanned (y : NumeralForm) : Prop where
  /-- A first digit. -/
  openDigit {c : Scan} {b : Byte} : c.phase ∈ y.opening → c.mantissa = 0 → y.IsDigit b →
    ∃ ph ∈ y.whole, c.advance b = some (c.wholeDigit ph y.base (y.value b))
  /-- A further digit before the period. -/
  wholeDigit {c : Scan} {b : Byte} : c.phase ∈ y.whole → y.IsDigit b →
    ∃ ph ∈ y.whole, c.advance b = some (c.wholeDigit ph y.base (y.value b))
  /-- A period with no digit before it. -/
  openPoint {c : Scan} : c.phase ∈ y.opening → c.advance charPoint = some { c with phase := y.point }
  /-- A period after a digit. -/
  wholePoint {c : Scan} : c.phase ∈ y.whole → c.advance charPoint = some { c with phase := y.fraction }
  /-- A digit after the period. -/
  fractionDigit {c : Scan} {b : Byte} : c.phase ∈ [y.point, y.fraction] → y.IsDigit b →
    c.advance b = some (c.fractionDigit y.fraction y.base (y.value b))
  /-- The exponent's letter. -/
  mark {c : Scan} {b : Byte} : c.phase ∈ y.fraction :: y.whole → lowerCase b = y.letter →
    c.advance b = some { c with phase := y.mark }
  /-- The exponent's plus sign. -/
  plus {c : Scan} : c.phase = y.mark → c.advance 0x2B = some { c with phase := y.sign }
  /-- The exponent's minus sign. -/
  minus {c : Scan} : c.phase = y.mark → c.advance 0x2D = some { c with phase := y.sign, exponentNegative := true }
  /-- A digit of the exponent. -/
  exponentDigit {c : Scan} {b : Byte} : c.phase ∈ [y.mark, y.sign, y.exponent] → 0x30 ≤ b.toNat ∧ b.toNat ≤ 0x39 →
    c.advance b = some (c.exponentDigit y.exponent (b.toNat - 0x30))

/-- The scan stands after a whole literal: what it has read of it. -/
structure NumeralForm.HasRead (y : NumeralForm) (negative : Bool) (m places : Nat) (e : Int) (c : Scan) : Prop where
  /-- The literal may end here. -/
  phase : c.phase ∈ y.exponent :: y.fraction :: y.whole
  /-- Its sign. -/
  negative : c.negative = negative
  /-- Its digits as one number. -/
  mantissa : c.mantissa = m
  /-- How many of them stood after the period. -/
  places : c.places = places
  /-- Its exponent. -/
  exponent : c.signedExponent = e

namespace NumeralForm.Scanned

section reads

variable {y : NumeralForm} (hy : y.Scanned)
include hy

theorem reads_wholeDigits {c : Scan} (hc : c.phase ∈ y.whole) {ds : List Byte} (hds : ∀ b ∈ ds, y.IsDigit b) :
    ∃ ph ∈ y.whole, c.Reads ds { c with phase := ph, mantissa := y.numberFrom c.mantissa ds } := by
  induction ds generalizing c with
  | nil => exact ⟨c.phase, hc, .nil c⟩
  | cons b ds ih =>
    obtain ⟨hb, hds⟩ := List.forall_mem_cons.mp hds
    obtain ⟨ph, hph, hadvance⟩ := hy.wholeDigit hc hb
    obtain ⟨ph', hph', hreads⟩ := ih (c := c.wholeDigit ph y.base (y.value b)) hph hds
    exact ⟨ph', hph', .cons hadvance hreads⟩

theorem reads_fractionDigits {c : Scan} {fs : List Byte} (hc : c.phase = y.fraction ∨ c.phase = y.point ∧ fs ≠ [])
    (hfs : ∀ b ∈ fs, y.IsDigit b) :
    c.Reads fs { c with
      phase := y.fraction, mantissa := y.numberFrom c.mantissa fs, places := c.places + fs.length } := by
  induction fs generalizing c with
  | nil =>
    obtain hphase : c.phase = y.fraction := by simpa using hc
    rw [← hphase]
    exact .nil c
  | cons b fs ih =>
    obtain ⟨hb, hfs⟩ := List.forall_mem_cons.mp hfs
    have hphase : c.phase ∈ [y.point, y.fraction] := by simpa using hc.symm
    have hreads := ih (c := c.fractionDigit y.fraction y.base (y.value b)) (.inl rfl) hfs
    rw [List.length_cons, Nat.add_comm fs.length, ← Nat.add_assoc]
    exact .cons (hy.fractionDigit hphase hb) hreads

theorem reads_exponentDigits {c : Scan} {ds : List Byte}
    (hc : c.phase = y.exponent ∨ c.phase ∈ [y.mark, y.sign] ∧ ds ≠ []) (hds : AreDigits ds) :
    c.Reads ds { c with
      phase := y.exponent, exponent := ds.foldl (fun n b => 10 * n + (b.toNat - 0x30)) c.exponent } := by
  induction ds generalizing c with
  | nil =>
    obtain hphase : c.phase = y.exponent := by simpa using hc
    rw [← hphase]
    exact .nil c
  | cons b ds ih =>
    obtain ⟨hb, hds⟩ := List.forall_mem_cons.mp hds
    have hphase : c.phase ∈ [y.mark, y.sign, y.exponent] := by
      simp only [List.mem_cons, List.not_mem_nil, or_false] at hc ⊢
      tauto
    exact .cons (hy.exponentDigit hphase hb) (ih (c := c.exponentDigit y.exponent (b.toNat - 0x30)) (.inl rfl) hds)

/-- The digits of a literal and its period. -/
theorem reads_digits {c : Scan} (hc : c.phase ∈ y.opening) (hm : c.mantissa = 0) (hp : c.places = 0)
    {ds fs tail : List Byte} (hds : ∀ b ∈ ds, y.IsDigit b) (hfs : ∀ b ∈ fs, y.IsDigit b) (hne : ds ++ fs ≠ [])
    (htail : IsFractionPart tail fs) :
    ∃ ph ∈ y.fraction :: y.whole,
      c.Reads (ds ++ tail) { c with phase := ph, mantissa := y.numberFrom 0 (ds ++ fs), places := fs.length } := by
  cases ds with
  | nil =>
    rcases htail with ⟨-, rfl⟩ | rfl
    · exact absurd rfl hne
    · have hreads := hy.reads_fractionDigits (c := { c with phase := y.point }) (.inr ⟨rfl, hne⟩) hfs
      refine ⟨y.fraction, List.mem_cons_self, .cons (hy.openPoint hc) ?_⟩
      simpa [hm, hp] using hreads
  | cons b ds =>
    obtain ⟨hb, hds⟩ := List.forall_mem_cons.mp hds
    obtain ⟨ph, hph, hadvance⟩ := hy.openDigit hc hm hb
    obtain ⟨ph', hph', hwhole⟩ := hy.reads_wholeDigits (c := c.wholeDigit ph y.base (y.value b)) hph hds
    have hreads := Scan.Reads.cons hadvance hwhole
    rcases htail with ⟨rfl, rfl⟩ | rfl
    · refine ⟨ph', List.mem_cons_of_mem _ hph', ?_⟩
      simpa [Scan.wholeDigit, numberFrom, hm, hp] using hreads
    · have hfraction := hy.reads_fractionDigits (c := { c with
        phase := y.fraction, mantissa := y.numberFrom (c.wholeDigit ph y.base (y.value b)).mantissa ds })
        (.inl rfl) hfs
      refine ⟨y.fraction, List.mem_cons_self, hreads.append (.cons (hy.wholePoint hph') ?_)⟩
      simpa [Scan.wholeDigit, numberFrom, hm, hp] using hfraction

/-- The sign of an exponent. -/
theorem reads_exponentSign {c : Scan} (hc : c.phase = y.mark) (hn : c.exponentNegative = false) {sign : List Byte}
    {negative : Bool} (hsign : IsSign sign negative) :
    ∃ ph ∈ [y.mark, y.sign], c.Reads sign { c with phase := ph, exponentNegative := negative } := by
  rcases hsign with ⟨rfl, rfl⟩ | ⟨rfl, rfl⟩ | ⟨rfl, rfl⟩
  · refine ⟨c.phase, by simp [hc], ?_⟩
    rw [← hn]
    exact .nil c
  · refine ⟨y.sign, by simp, .single ?_⟩
    rw [hy.plus hc, ← hn]
  · exact ⟨y.sign, by simp, .single (hy.minus hc)⟩

/-- The exponent part of a literal, after its digits. -/
theorem reads_exponentPart (hletter : 0x61 ≤ y.letter.toNat ∧ y.letter.toNat ≤ 0x7A) {c : Scan}
    (hc : c.phase ∈ y.fraction :: y.whole) (hn : c.exponentNegative = false) (he : c.exponent = 0) {ex : List Byte}
    {e : Int} (hex : IsExponent y.letter ex e) :
    ∃ c', c.Reads ex c' ∧ y.HasRead c.negative c.mantissa c.places e c' := by
  rcases hex with ⟨rfl, rfl⟩ | ⟨b, sign, ds, negative, hb, hsign, hne, hds, rfl, rfl⟩
  · exact ⟨c, .nil c, List.mem_cons_of_mem _ hc, rfl, rfl, rfl, by simp [Scan.signedExponent, hn, he]⟩
  · have hmark := hy.mark hc ((lowerCase_eq_iff hletter).mpr hb)
    obtain ⟨ph, hph, hsigned⟩ := hy.reads_exponentSign (c := { c with phase := y.mark }) rfl hn hsign
    have hdigits := hy.reads_exponentDigits (c := { c with phase := ph, exponentNegative := negative })
      (.inr ⟨hph, hne⟩) hds
    exact ⟨_, .cons hmark (hsigned.append hdigits), List.mem_cons_self, rfl, rfl, rfl, by
      simp [Scan.signedExponent, he, digitsValue]⟩

end reads

end NumeralForm.Scanned

end Sys2Proof.Machine
end

section
/-! SUPPORT. What `ParseFloat` makes of decimal and hexadecimal literals and of the words (spec R215); statement O57. -/

namespace Sys2Proof.Machine

/-! ## How each kind of literal is scanned -/

/-- Decimal literals (R215). -/
def decimalForm : NumeralForm where
  base := 10
  IsDigit b := 0x30 ≤ b.toNat ∧ b.toNat ≤ 0x39
  value b := b.toNat - 0x30
  letter := 0x65
  opening := [.start, .signed]
  whole := [.firstZero, .whole]
  point := .barePoint
  fraction := .fraction
  mark := .exponentMark
  sign := .exponentSign
  exponent := .exponent

/-- Hexadecimal literals after their `0x` (R215). -/
def hexForm : NumeralForm where
  base := 16
  IsDigit b := (0x30 ≤ b.toNat ∧ b.toNat ≤ 0x39) ∨ (0x41 ≤ b.toNat ∧ b.toNat ≤ 0x46) ∨ (0x61 ≤ b.toNat ∧ b.toNat ≤ 0x66)
  value b := if b.toNat ≤ 0x39 then b.toNat - 0x30 else if b.toNat ≤ 0x46 then b.toNat - 0x37 else b.toNat - 0x57
  letter := 0x70
  opening := [.hexMark]
  whole := [.hexWhole]
  point := .hexBarePoint
  fraction := .hexFraction
  mark := .hexExponentMark
  sign := .hexExponentSign
  exponent := .hexExponent

theorem hexDigit_of_digit : ∀ b : Byte, hexForm.IsDigit b → hexDigit b = some (hexForm.value b) := by
  unfold hexForm
  decide

theorem hexDigit_eq_none : ∀ b : Byte, ¬ hexForm.IsDigit b → hexDigit b = none := by
  unfold hexForm
  decide

section advance

variable {c : Scan} {b : Byte}

/-- A byte that is no sign begins the literal itself. -/
theorem advance_opening (hc : c.phase ∈ decimalForm.opening) (hplus : b ≠ 0x2B) (hminus : b ≠ 0x2D) :
    c.advance b = c.first b := by
  rcases List.mem_pair.mp hc with hphase | hphase
  · rw [Scan.advance, hphase]
    exact (if_neg hplus).trans (if_neg hminus)
  · rw [Scan.advance, hphase]

/-- After a first `0` only an `x` is special. -/
theorem advance_whole (hc : c.phase ∈ decimalForm.whole) (hx : lowerCase b ≠ 0x78) : c.advance b = c.inWhole b := by
  rcases List.mem_pair.mp hc with hphase | hphase
  · rw [Scan.advance, hphase]
    exact if_neg hx
  · rw [Scan.advance, hphase]

end advance

/-- A digit is no other byte. -/
theorem ne_of_digit {b x : Byte} (hb : 0x30 ≤ b.toNat ∧ b.toNat ≤ 0x39)
    (hx : ¬ (0x30 ≤ x.toNat ∧ x.toNat ≤ 0x39)) : b ≠ x :=
  fun h => hx (h ▸ hb)

/-- A digit is no letter. -/
theorem lowerCase_ne_of_digit {b letter : Byte} (hb : 0x30 ≤ b.toNat ∧ b.toNat ≤ 0x39)
    (hletter : 0x61 ≤ letter.toNat ∧ letter.toNat ≤ 0x7A) : lowerCase b ≠ letter := by
  rw [ne_eq, lowerCase_eq_iff hletter]
  bv_omega

/-- A letter in lower case or its capital. -/
theorem eq_or_eq_of_lowerCase {b letter : Byte} (hletter : 0x61 ≤ letter.toNat ∧ letter.toNat ≤ 0x7A)
    (h : lowerCase b = letter) : b = letter ∨ b = letter - 0x20 := by
  have hcases := (lowerCase_eq_iff hletter).mp h
  bv_omega

theorem decimalForm_scanned : decimalForm.Scanned where
  openDigit {c b} hc hm hb := by
    have hdigit : decimalDigit b = some (b.toNat - 0x30) := decimalDigit_of_digit hb
    rw [advance_opening hc (ne_of_digit hb (by decide)) (ne_of_digit hb (by decide)), Scan.first, hdigit]
    cases hvalue : b.toNat - 0x30 with
    | zero => exact ⟨.firstZero, by simp [decimalForm], by simp [Scan.wholeDigit, decimalForm, hm, hvalue]⟩
    | succ d => exact ⟨.whole, by simp [decimalForm], by simp [decimalForm, hvalue]⟩
  wholeDigit {c b} hc hb := by
    have hdigit : decimalDigit b = some (b.toNat - 0x30) := decimalDigit_of_digit hb
    rw [advance_whole hc (lowerCase_ne_of_digit hb (by decide)), Scan.inWhole, hdigit]
    exact ⟨.whole, by simp [decimalForm], rfl⟩
  openPoint hc := advance_opening hc (by decide) (by decide)
  wholePoint hc := advance_whole hc (by decide)
  fractionDigit {c b} hc hb := by
    have hdigit : decimalDigit b = some (b.toNat - 0x30) := decimalDigit_of_digit hb
    rcases List.mem_pair.mp hc with hphase | hphase <;> rw [Scan.advance, hphase]
    all_goals simp only [decimalForm, hdigit, Option.map_some]
  mark {c b} hc hb := by
    rcases List.mem_cons.mp hc with hphase | hwhole
    · rw [Scan.advance, hphase]
      rcases eq_or_eq_of_lowerCase (by decide) hb with rfl | rfl <;> rfl
    · rw [advance_whole hwhole (by rw [hb]; decide)]
      rcases eq_or_eq_of_lowerCase (by decide) hb with rfl | rfl <;> rfl
  plus hc := by rw [Scan.advance, hc]; rfl
  minus hc := by rw [Scan.advance, hc]; rfl
  exponentDigit {c b} hc hb := by
    have hdigit : (decimalDigit b).map (c.exponentDigit .exponent) = some (c.exponentDigit .exponent (b.toNat - 0x30)) := by
      rw [decimalDigit_of_digit hb, Option.map_some]
    simp only [List.mem_cons, List.not_mem_nil, or_false] at hc
    rcases hc with hphase | hphase | hphase <;> rw [Scan.advance, hphase]
    · exact (if_neg (ne_of_digit hb (by decide))).trans ((if_neg (ne_of_digit hb (by decide))).trans hdigit)
    · exact hdigit
    · exact hdigit

theorem hexForm_scanned : hexForm.Scanned where
  openDigit {c b} hc _ hb := by
    rw [Scan.advance, List.mem_singleton.mp hc]
    exact ⟨.hexWhole, by simp [hexForm], by simp [hexDigit_of_digit b hb]; rfl⟩
  wholeDigit {c b} hc hb := by
    rw [Scan.advance, List.mem_singleton.mp hc]
    exact ⟨.hexWhole, by simp [hexForm], by simp [Scan.inHexWhole, hexDigit_of_digit b hb]; rfl⟩
  openPoint hc := by rw [Scan.advance, List.mem_singleton.mp hc]; rfl
  wholePoint hc := by rw [Scan.advance, List.mem_singleton.mp hc]; rfl
  fractionDigit {c b} hc hb := by
    rcases List.mem_pair.mp hc with hphase | hphase <;> rw [Scan.advance, hphase]
    all_goals simp only [hexForm, hexDigit_of_digit b hb, Option.map_some]
  mark {c b} hc hb := by
    rcases List.mem_pair.mp hc with hphase | hphase <;> rw [Scan.advance, hphase]
    all_goals rcases eq_or_eq_of_lowerCase (by decide) hb with rfl | rfl <;> rfl
  plus hc := by rw [Scan.advance, hc]; rfl
  minus hc := by rw [Scan.advance, hc]; rfl
  exponentDigit {c b} hc hb := by
    have hdigit : (decimalDigit b).map (c.exponentDigit .hexExponent) = some (c.exponentDigit .hexExponent (b.toNat - 0x30)) := by
      rw [decimalDigit_of_digit hb, Option.map_some]
    simp only [List.mem_cons, List.not_mem_nil, or_false] at hc
    rcases hc with hphase | hphase | hphase <;> rw [Scan.advance, hphase]
    · exact (if_neg (ne_of_digit hb (by decide))).trans ((if_neg (ne_of_digit hb (by decide))).trans hdigit)
    · exact hdigit
    · exact hdigit

/-! ## A whole literal -/

/-- The scan after the sign of a literal, or its `0x`: nothing of the number has been read. -/
def Scan.opened (negative : Bool) (phase : ScanPhase) : Scan := { Scan.initial with phase, negative }

/-- The sign of a literal (R215). -/
theorem initial_reads_sign {sign : List Byte} {negative : Bool} (h : IsSign sign negative) :
    ∃ ph ∈ decimalForm.opening, Scan.initial.Reads sign (Scan.opened negative ph) := by
  rcases h with ⟨rfl, rfl⟩ | ⟨rfl, rfl⟩ | ⟨rfl, rfl⟩
  · exact ⟨.start, by simp [decimalForm], rfl⟩
  · exact ⟨.signed, by simp [decimalForm], rfl⟩
  · exact ⟨.signed, by simp [decimalForm], rfl⟩

/-- The sign of a hexadecimal literal and its `0x` (R215). -/
theorem initial_reads_hexPrefix {sign : List Byte} {negative : Bool} {x : Byte} (h : IsSign sign negative)
    (hx : x = 0x78 ∨ x = 0x58) :
    Scan.initial.Reads (sign ++ [0x30, x]) (Scan.opened negative .hexMark) := by
  obtain ⟨ph, hph, hsign⟩ := initial_reads_sign h
  have hzero : (Scan.opened negative ph).advance 0x30 = some (Scan.opened negative .firstZero) :=
    advance_opening hph (by decide) (by decide)
  have hmark : (Scan.opened negative .firstZero).advance x = some (Scan.opened negative .hexMark) := by
    rcases hx with rfl | rfl <;> rfl
  exact hsign.append (.cons hzero (.single hmark))

/-- After its digits and its period, and after its exponent, a literal of either base has been read. -/
theorem NumeralForm.Scanned.reads_literal {y : NumeralForm} (hy : y.Scanned)
    (hletter : 0x61 ≤ y.letter.toNat ∧ y.letter.toNat ≤ 0x7A) {negative : Bool} {ph : ScanPhase} (hph : ph ∈ y.opening)
    {ds fs tail ex : List Byte} {e : Int} (hds : ∀ b ∈ ds, y.IsDigit b) (hfs : ∀ b ∈ fs, y.IsDigit b)
    (hne : ds ++ fs ≠ []) (htail : IsFractionPart tail fs) (hex : IsExponent y.letter ex e) :
    ∃ c, (Scan.opened negative ph).Reads (ds ++ tail ++ ex) c ∧
      y.HasRead negative (y.numberFrom 0 (ds ++ fs)) fs.length e c := by
  obtain ⟨ph', hph', hdigits⟩ := hy.reads_digits (c := Scan.opened negative ph) hph rfl rfl hds hfs hne htail
  obtain ⟨c, hexponent, hread⟩ := hy.reads_exponentPart hletter (c := { Scan.opened negative ph with
    phase := ph', mantissa := y.numberFrom 0 (ds ++ fs), places := fs.length }) hph' rfl rfl hex
  exact ⟨c, hdigits.append hexponent, hread⟩

section result

variable {negative : Bool} {m places : Nat} {e : Int} {c : Scan} {rest : List Byte}

/-- What a decimal literal gives (R215). -/
theorem result_of_decimal (h : decimalForm.HasRead negative m places e c) :
    c.result = .datum (f32OfDecimal negative m (e - places)) := by
  obtain ⟨hphase, rfl, rfl, rfl, rfl⟩ := h
  simp only [decimalForm, List.mem_cons, List.not_mem_nil, or_false] at hphase
  rcases hphase with hphase | hphase | hphase | hphase <;> rw [Scan.result, hphase]

/-- What a hexadecimal literal gives (R215). -/
theorem result_of_hex (h : hexForm.HasRead negative m places e c) :
    c.result = .datum (f32OfBinary negative m (e - 4 * places)) := by
  obtain ⟨hphase, rfl, rfl, rfl, rfl⟩ := h
  simp only [hexForm, List.mem_cons, List.not_mem_nil, or_false] at hphase
  rcases hphase with hphase | hphase | hphase <;> rw [Scan.result, hphase]

/-- A byte that is no digit, no period and no `e` ends the digits of a decimal literal. -/
theorem inWhole_eq_none {b : Byte} (hdigit : decimalDigit b = none) (hpoint : b ≠ charPoint)
    (hletter : lowerCase b ≠ 0x65) : c.inWhole b = none := by
  simp only [Scan.inWhole, hdigit, if_neg hpoint, if_neg hletter]

/-- A byte that ends a decimal literal ends it wherever it is whole (R215). -/
theorem stopsAt_of_endsDecimal (h : decimalForm.HasRead negative m places e c) (hend : EndsDecimal rest) :
    c.StopsAt rest := by
  intro b hb
  obtain ⟨hdigit, hother⟩ := hend b hb
  have hnone : decimalDigit b = none := decimalDigit_eq_none fun hd => hdigit (by simpa [AreDigits] using hd)
  simp only [List.mem_cons, List.not_mem_nil, or_false, not_or] at hother
  obtain ⟨hpoint, he, hE, hx, hX⟩ := hother
  have hletter : lowerCase b ≠ 0x65 := fun hl => (eq_or_eq_of_lowerCase (by decide) hl).elim he hE
  have hmark : lowerCase b ≠ 0x78 := fun hl => (eq_or_eq_of_lowerCase (by decide) hl).elim hx hX
  rcases List.mem_cons.mp h.phase with hphase | hphase
  · rw [Scan.advance, hphase]
    simp only [decimalForm, hnone, Option.map_none]
  rcases List.mem_cons.mp hphase with hphase | hphase
  · rw [Scan.advance, hphase]
    simp only [decimalForm, hnone, if_neg hletter]
  · rw [advance_whole hphase hmark]
    exact inWhole_eq_none hnone hpoint hletter

/-- A byte that ends a hexadecimal literal ends it wherever it is whole (R215). -/
theorem stopsAt_of_endsHex (h : hexForm.HasRead negative m places e c) (hend : EndsHex rest) : c.StopsAt rest := by
  intro b hb
  obtain ⟨hdigit, hother⟩ := hend b hb
  have hnone : hexDigit b = none := hexDigit_eq_none b fun hd => hdigit (by simpa [AreHexDigits, hexForm] using hd)
  have hnone10 : decimalDigit b = none :=
    decimalDigit_eq_none fun hd => hdigit (by simpa [AreHexDigits] using Or.inl hd)
  simp only [List.mem_cons, List.not_mem_nil, or_false, not_or] at hother
  obtain ⟨hpoint, hp, hP⟩ := hother
  have hletter : lowerCase b ≠ 0x70 := fun hl => (eq_or_eq_of_lowerCase (by decide) hl).elim hp hP
  have hphase := h.phase
  simp only [hexForm, List.mem_cons, List.not_mem_nil, or_false] at hphase
  rcases hphase with hphase | hphase | hphase <;> rw [Scan.advance, hphase]
  · simp only [hnone10, Option.map_none]
  · simp only [hnone, if_neg hletter]
  · simp only [Scan.inHexWhole, hnone, charPoint, if_neg hpoint, if_neg hletter]

end result

/-- A literal has a digit or a period before its exponent. -/
theorem digits_ne_nil {ds fs tail : List Byte} (hne : ds ++ fs ≠ []) (htail : IsFractionPart tail fs) :
    ds ++ tail ≠ [] := by
  rcases htail with ⟨rfl, rfl⟩ | rfl
  · exact hne
  · simp

/-- A decimal literal is read as the datum nearest its value (R215). -/
theorem parseFloat_decimal {ws t rest : List Byte} {negative : Bool} {n d : Nat} (hws : AreSpaces ws)
    (ht : IsDecimalLiteral t negative n d) (hend : EndsDecimal rest) :
    ∃ w, parseFloat (ws ++ t ++ rest) = (.datum w, rest) ∧ IsRounded negative (n * f32One) d w := by
  obtain ⟨sign, ds, fs, tail, ex, e, hsign, hds, hfs, hne, htail, hex, rfl, rfl, rfl⟩ := ht
  obtain ⟨ph, hph, hopen⟩ := initial_reads_sign hsign
  obtain ⟨c, hreads, hread⟩ := decimalForm_scanned.reads_literal (by decide) hph hds hfs hne htail hex
  have hall : Scan.initial.Reads (sign ++ ds ++ tail ++ ex) c := by
    simpa only [List.append_assoc] using hopen.append hreads
  have hne' : sign ++ ds ++ tail ++ ex ≠ [] := by
    intro hnil
    simp only [List.append_eq_nil_iff] at hnil
    exact digits_ne_nil hne htail (by simp [hnil])
  have hparse := parseFloat_of_reads hws hne' hall (stopsAt_of_endsDecimal hread hend)
  rw [result_of_decimal hread] at hparse
  exact ⟨_, hparse, isRounded_f32OfDecimal negative _ (by omega)⟩

/-- A hexadecimal literal is read as the datum nearest its value (R215). -/
theorem parseFloat_hex {ws t rest : List Byte} {negative : Bool} {n d : Nat} (hws : AreSpaces ws)
    (ht : IsHexLiteral t negative n d) (hend : EndsHex rest) :
    ∃ w, parseFloat (ws ++ t ++ rest) = (.datum w, rest) ∧ IsRounded negative (n * f32One) d w := by
  obtain ⟨sign, ds, fs, tail, ex, x, e, hsign, hx, hds, hfs, hne, htail, hex, rfl, rfl, rfl⟩ := ht
  obtain ⟨c, hreads, hread⟩ :=
    hexForm_scanned.reads_literal (by decide) (ph := .hexMark) List.mem_cons_self hds hfs hne htail hex
  have hall : Scan.initial.Reads (sign ++ [0x30, x] ++ ds ++ tail ++ ex) c := by
    simpa only [List.append_assoc] using (initial_reads_hexPrefix hsign hx).append hreads
  have hparse := parseFloat_of_reads hws (by simp) hall (stopsAt_of_endsHex hread hend)
  rw [result_of_hex hread] at hparse
  exact ⟨_, hparse, isRounded_f32OfBinary negative _ (by omega)⟩

/-- A literal with no `e` in it has no exponent. -/
theorem IsExponent.eq_nil {ex : List Byte} {e : Int} (h : IsExponent 0x65 ex e) (hlower : 0x65 ∉ ex) (hupper : 0x45 ∉ ex) :
    ex = [] := by
  rcases h with ⟨rfl, -⟩ | ⟨b, sign, ds, negative, hb, -, -, -, rfl, -⟩
  · rfl
  · exfalso
    rcases hb with rfl | hb
    · exact hlower List.mem_cons_self
    · obtain rfl : b = 0x45 := by bv_omega
      exact hupper List.mem_cons_self

/-- A literal and then a bare exponent letter: the start of a longer one, consumed for nothing (R215). -/
theorem parseFloat_bareExponent {ws t : List Byte} {b : Byte} {negative : Bool} {n d : Nat} (hws : AreSpaces ws)
    (ht : IsDecimalLiteral t negative n d) (hlower : 0x65 ∉ t) (hupper : 0x45 ∉ t) (hb : b = 0x65 ∨ b = 0x45) :
    parseFloat (ws ++ t ++ [b]) = (.nothing, []) := by
  obtain ⟨sign, ds, fs, tail, ex, e, hsign, hds, hfs, hne, htail, hex, rfl, -, -⟩ := ht
  obtain rfl := hex.eq_nil (fun h => hlower (List.mem_append_right _ h)) fun h => hupper (List.mem_append_right _ h)
  obtain ⟨ph, hph, hopen⟩ := initial_reads_sign hsign
  obtain ⟨ph', hph', hdigits⟩ :=
    decimalForm_scanned.reads_digits (c := Scan.opened negative ph) hph rfl rfl hds hfs hne htail
  have hletter : lowerCase b = 0x65 := by rcases hb with rfl | rfl <;> rfl
  have hmark := decimalForm_scanned.mark (c := { Scan.opened negative ph with
    phase := ph', mantissa := decimalForm.numberFrom 0 (ds ++ fs), places := fs.length }) hph' hletter
  have hall := (hopen.append hdigits).append (.single hmark)
  have hparse := parseFloat_of_reads (rest := []) hws (by simp) hall fun _ h => nomatch h
  refine (congrArg parseFloat ?_).trans hparse
  simp

/-! ## The words -/

/-- A word in any case is the word in lower case. -/
theorem map_lowerCase_of_inAnyCase {t word : List Byte} (hword : ∀ b ∈ word, 0x61 ≤ b.toNat ∧ b.toNat ≤ 0x7A)
    (h : InAnyCase t word) : t.map lowerCase = word := by
  induction h with
  | nil => rfl
  | cons hb _ ih =>
    obtain ⟨hletter, hword⟩ := List.forall_mem_cons.mp hword
    rw [List.map_cons, (lowerCase_eq_iff hletter).mpr hb, ih hword]

section word

variable {text : List Byte} {word : Nat → ScanPhase}

/-- The letters of a word, one after the other, from the one the scan stands at. -/
theorem reads_word (hstep : ∀ (c : Scan) (n : Nat) (b : Byte), c.phase = word n → text[n]? = some (lowerCase b) →
      c.advance b = some { c with phase := word (n + 1) })
    {c : Scan} {n : Nat} (hc : c.phase = word n) {t : List Byte} (ht : t.map lowerCase <+: text.drop n) :
    c.Reads t { c with phase := word (n + t.length) } := by
  induction t generalizing c n with
  | nil =>
    rw [List.length_nil, Nat.add_zero, ← hc]
    exact .nil c
  | cons b t ih =>
    obtain ⟨rest, hrest⟩ := ht
    have hletter : text[n]? = some (lowerCase b) := by
      rw [← List.head?_drop, ← hrest]
      rfl
    have htail : t.map lowerCase <+: text.drop (n + 1) := by
      rw [← List.tail_drop, ← hrest]
      exact List.prefix_append _ _
    rw [List.length_cons, Nat.add_comm t.length, ← Nat.add_assoc]
    exact .cons (hstep c n b hc hletter) (ih (c := { c with phase := word (n + 1) }) rfl htail)

/-- The letters of a word after its sign, or of the word's start. -/
theorem initial_reads_word {letter : Byte}
    (hfirst : ∀ (c : Scan) (b : Byte), c.phase ∈ decimalForm.opening → lowerCase b = letter →
      c.advance b = some { c with phase := word 1 })
    (hstep : ∀ (c : Scan) (n : Nat) (b : Byte), c.phase = word n → (letter :: text)[n]? = some (lowerCase b) →
      c.advance b = some { c with phase := word (n + 1) })
    {sign t : List Byte} {negative : Bool} (hsign : IsSign sign negative) (hne : t ≠ [])
    (ht : t.map lowerCase <+: letter :: text) :
    Scan.initial.Reads (sign ++ t) (Scan.opened negative (word t.length)) := by
  obtain ⟨b, t, rfl⟩ := List.exists_cons_of_ne_nil hne
  obtain ⟨hletter, htail⟩ := List.cons_prefix_cons.mp ht
  obtain ⟨ph, hph, hopen⟩ := initial_reads_sign hsign
  have hrest := reads_word hstep (c := Scan.opened negative (word 1)) (n := 1) rfl htail
  rw [List.length_cons, Nat.add_comm]
  exact hopen.append (.cons (hfirst (Scan.opened negative ph) b hph hletter) hrest)

end word

section words

variable {sign t ws rest : List Byte} {negative : Bool}

/-- `inf`, `infinity` and their starts, in any case. -/
theorem initial_reads_infinity (hsign : IsSign sign negative) (hne : t ≠ []) (ht : t.map lowerCase <+: textInfinity) :
    Scan.initial.Reads (sign ++ t) (Scan.opened negative (.infinity t.length)) := by
  refine initial_reads_word (word := .infinity) (fun c b hc hb => ?first) (fun c n b hc hb => ?step) hsign hne ht
  case first =>
    rcases eq_or_eq_of_lowerCase (by decide) hb with rfl | rfl
    all_goals exact advance_opening hc (by decide) (by decide)
  case step =>
    rw [Scan.advance, hc]
    exact if_pos hb

/-- `nan` and its starts, in any case. -/
theorem initial_reads_nan (hsign : IsSign sign negative) (hne : t ≠ []) (ht : t.map lowerCase <+: textNan) :
    Scan.initial.Reads (sign ++ t) (Scan.opened negative (.nan t.length)) := by
  refine initial_reads_word (word := .nan) (fun c b hc hb => ?first) (fun c n b hc hb => ?step) hsign hne ht
  case first =>
    rcases eq_or_eq_of_lowerCase (by decide) hb with rfl | rfl
    all_goals exact advance_opening hc (by decide) (by decide)
  case step =>
    rw [Scan.advance, hc]
    exact if_pos hb

/-- After a word has been read whole, no byte goes on with it but the next letter of `infinity`. -/
theorem stopsAt_infinity {n : Nat} (h : ∀ b ∈ rest.head?, textInfinity[n]? ≠ some (lowerCase b)) :
    (Scan.opened negative (.infinity n)).StopsAt rest :=
  fun b hb => if_neg (h b hb)

theorem stopsAt_nan : (Scan.opened negative (.nan 3)).StopsAt rest := fun _ _ => rfl

theorem f32Inf_eq (negative : Bool) : f32Inf negative = if negative then 0xFF800000 else 0x7F800000 := by
  cases negative <;> decide

/-- What follows `inf` is left, unless it goes on with `infinity` (R215). -/
theorem parseFloat_inf (hws : AreSpaces ws) (hsign : IsSign sign negative) (ht : InAnyCase t [0x69, 0x6E, 0x66])
    (hend : ∀ b ∈ rest.head?, b ≠ 0x69 ∧ b ≠ 0x49) :
    parseFloat (ws ++ sign ++ t ++ rest) = (.datum (if negative then 0xFF800000 else 0x7F800000), rest) := by
  have hlower := map_lowerCase_of_inAnyCase (by decide) ht
  have hlength : t.length = 3 := List.Forall₂.length_eq ht
  have hne : t ≠ [] := List.ne_nil_of_length_eq_add_one hlength
  have hreads := initial_reads_infinity hsign hne (hlower ▸ by decide)
  rw [hlength] at hreads
  have hstop : (Scan.opened negative (.infinity 3)).StopsAt rest := stopsAt_infinity fun b hb hnext =>
    (eq_or_eq_of_lowerCase (by decide) (Option.some.inj hnext).symm).elim (hend b hb).1 (hend b hb).2
  rw [List.append_assoc ws, parseFloat_of_reads hws (by simp [hne]) hreads hstop, ← f32Inf_eq]
  rfl

/-- What follows `infinity` is left (R215). -/
theorem parseFloat_infinity (hws : AreSpaces ws) (hsign : IsSign sign negative)
    (ht : InAnyCase t [0x69, 0x6E, 0x66, 0x69, 0x6E, 0x69, 0x74, 0x79]) :
    parseFloat (ws ++ sign ++ t ++ rest) = (.datum (if negative then 0xFF800000 else 0x7F800000), rest) := by
  have hlower := map_lowerCase_of_inAnyCase (by decide) ht
  have hlength : t.length = 8 := List.Forall₂.length_eq ht
  have hne : t ≠ [] := List.ne_nil_of_length_eq_add_one hlength
  have hreads := initial_reads_infinity hsign hne (hlower ▸ List.prefix_rfl)
  rw [hlength] at hreads
  have hstop : (Scan.opened negative (.infinity 8)).StopsAt rest := stopsAt_infinity fun b hb hnext => nomatch hnext
  rw [List.append_assoc ws, parseFloat_of_reads hws (by simp [hne]) hreads hstop, ← f32Inf_eq]
  rfl

/-- What follows `nan` is left (R215). -/
theorem parseFloat_nan (hws : AreSpaces ws) (hsign : IsSign sign negative) (ht : InAnyCase t [0x6E, 0x61, 0x6E]) :
    parseFloat (ws ++ sign ++ t ++ rest) = (.nan, rest) := by
  have hlower := map_lowerCase_of_inAnyCase (by decide) ht
  have hlength : t.length = 3 := List.Forall₂.length_eq ht
  have hne : t ≠ [] := List.ne_nil_of_length_eq_add_one hlength
  have hreads := initial_reads_nan hsign hne (hlower ▸ List.prefix_rfl)
  rw [hlength] at hreads
  rw [List.append_assoc ws, parseFloat_of_reads hws (by simp [hne]) hreads stopsAt_nan]
  rfl

end words

/-! ## The first byte of no literal, and printed integers -/

/-- A byte that is no digit, no sign, no period and no letter of a word begins no literal (R215). -/
theorem initial_advance_eq_none {b : Byte} (hdigit : ¬ AreDigits [b])
    (hother : b ∉ ([0x2B, 0x2D, 0x2E, 0x69, 0x49, 0x6E, 0x4E] : List Byte)) : Scan.initial.advance b = none := by
  have hnone : decimalDigit b = none := decimalDigit_eq_none fun hd => hdigit (by simpa [AreDigits] using hd)
  simp only [List.mem_cons, List.not_mem_nil, or_false, not_or] at hother
  obtain ⟨hplus, hminus, hpoint, hi, hI, hn, hN⟩ := hother
  have hinf : lowerCase b ≠ 0x69 := fun hl => (eq_or_eq_of_lowerCase (by decide) hl).elim hi hI
  have hnan : lowerCase b ≠ 0x6E := fun hl => (eq_or_eq_of_lowerCase (by decide) hl).elim hn hN
  rw [advance_opening (by simp [Scan.initial, decimalForm]) hplus hminus, Scan.first, hnone]
  simp only [charPoint, if_neg hpoint, if_neg hinf, if_neg hnan]

/-- The text of an integer is a decimal literal of its value (R210). -/
theorem isDecimalLiteral_formatInt (n : Int) : IsDecimalLiteral (formatInt n) (decide (n < 0)) n.natAbs 1 := by
  obtain ⟨hne, hdigits, -, hvalue⟩ := isDecimal_decimal n.natAbs
  refine ⟨if n < 0 then [0x2D] else [], decimal n.natAbs, [], [], [], 0, ?sign, hdigits, areDigits_nil,
    by simpa using hne, .inl ⟨rfl, rfl⟩, .inl ⟨rfl, rfl⟩, ?text, by simp [hvalue], rfl⟩
  case sign =>
    split
    next hn => exact .inr (.inr ⟨rfl, by simpa using hn⟩)
    next hn => exact .inl ⟨rfl, by simpa using hn⟩
  case text =>
    rw [formatInt_eq]
    split <;> simp

/-- Settles O57: the scan reads each form whole and stops at what follows; what it has read is rounded. -/
theorem parseFloatReadsLiterals : Obligations.ParseFloatReadsLiterals := by
  refine ⟨fun ws t rest negative n d hws h => ?literal, fun ws sign t rest negative hws hsign => ?word,
    fun ws hws => ?spaces, fun ws b rest hws hspace hdigit hother => ?other,
    fun ws t c negative n d hws ht hlower hupper => parseFloat_bareExponent hws ht hlower hupper, fun n => ?printed⟩
  case literal =>
    rcases h with ⟨ht, hend⟩ | ⟨ht, hend⟩
    · exact parseFloat_decimal hws ht hend
    · exact parseFloat_hex hws ht hend
  case word =>
    exact ⟨parseFloat_inf hws hsign, parseFloat_infinity hws hsign, parseFloat_nan hws hsign⟩
  case spaces =>
    have hparse := parseFloat_nothing (rest := []) hws (fun _ h => nomatch h) fun _ h => nomatch h
    rwa [List.append_nil] at hparse
  case other =>
    refine parseFloat_nothing hws (fun b' hb' => ?_) fun b' hb' => ?_ <;> cases hb'
    · exact Bool.eq_false_iff.mpr fun h => hspace (isSpaceByte_iff.mp h)
    · exact initial_advance_eq_none hdigit hother
  case printed =>
    obtain ⟨w, hparse, hround⟩ := parseFloat_decimal (ws := []) (rest := []) (fun _ h => nomatch h)
      (isDecimalLiteral_formatInt n) fun _ h => nomatch h
    exact ⟨w, by simpa using hparse, hround⟩

end Sys2Proof.Machine
end

