-- ==== Sys2Proof/Proofs/Halting.lean ====
section
/-! SUPPORT. The error entry, and the two ways in which a step halts the machine (spec R240, R244, R246); statements O19,
O11 and O12. -/

namespace Sys2Proof.Machine

/-! ## The error entry -/

/-- The bytes of `stderr` grow by the message of the error (R246). -/
theorem raise_stderrBytes (e : MachineError) (s : State) :
    (raise e s).stderrBytes = s.stderrBytes ++ Config.errorMessage e := by
  simp [State.stderrBytes]

/-- Settles O19: the error entry is one message and one halt, with the default `ERROR_EXIT_CODE`. -/
theorem errorEntryReportsAndHalts : Obligations.ErrorEntryReportsAndHalts :=
  fun e s => ⟨rfl, Parameters.default_allowed.errorNonzero, raise_stderrBytes e s⟩

/-- Settles O11: the cycle raises where the decoder refuses the word. -/
theorem illegalWordsHaltTheMachine : Obligations.IllegalWordsHaltTheMachine := by
  intro s w e hrun hf hd
  rw [← stepWith_default, stepWith_of_fetch hrun hf]
  exact execute_of_decode_error hd

/-! ## The two ways to halt -/

/-- No instruction but `EXIT` halts other than by an error (R207, R240): each family's frame says so. -/
theorem exec_atMostOneError {i : Instr} {s t : State} (hne : i ≠ .exit) (h : exec i s = .next t) :
    AtMostOneError s t := by
  cases i with
  | exit => exact absurd rfl hne
  | pstr | pint | pflt | pch | rch | rflt | stra | notr =>
    obtain ⟨-, -, -, -, -, hends⟩ := exec_systemCall_frame (by decide) h
    exact hends hne
  | mul rs rt | div rs rt =>
    obtain ⟨-, -, -, hends, -⟩ := multiplyAndDivideChangeHiAndLoOnly _ s t ⟨rs, rt, by simp⟩ h
    exact hends
  | beq | bne | bgez | bgtz | blez | bltz | bfeq | bfne | bfgz | bfgtz | bflez | bfltz | jmp | jal | jr =>
    obtain ⟨-, -, -, -, -, hstderr, hstatus, -⟩ := controlTransfersChangeThePcOnly _ s t (by simp) h
    exact .inl ⟨hstderr, hstatus⟩
  | sb rs rt o =>
    obtain ⟨-, -, -, -, hends, -⟩ := storesChangeTheirBytesOnly _ rs rt o 1 s t (.inl ⟨rfl, rfl⟩) h
    exact hends
  | sw rs rt o | fsw rs rt o =>
    obtain ⟨-, -, -, -, hends, -⟩ := storesChangeTheirBytesOnly _ rs rt o 4 s t (.inr ⟨by simp, rfl⟩) h
    exact hends
  | _ =>
    obtain ⟨-, -, -, -, hends, -⟩ := (exec_writesOrRaises rfl h).destinationOnly
    exact hends

namespace AtMostOneError

variable {s t u : State}

/-- A quiet update comes before an error. -/
theorem after (h : QuietUpdate s u) (h' : AtMostOneError u t) : AtMostOneError s t := by
  rwa [AtMostOneError, ← h.stderr, ← h.status]

/-- What is traced is neither a message nor a halt (R224). -/
theorem traceAfter (h : AtMostOneError s t) : AtMostOneError s (traceAfter t) := h

/-- The invariant check raises only where there is no error yet (R243). -/
theorem checkInvariants (h : AtMostOneError s t) : AtMostOneError s (checkInvariants t) := by
  rcases checkInvariants_cases t .default with hc | ⟨k, hrun, -, hc⟩ <;> rw [hc]
  · exact h
  · rcases h with ⟨hstderr, -⟩ | ⟨e, -, hstatus⟩
    · exact .inr ⟨_, congrArg (· ++ [_]) hstderr, rfl⟩
    · cases hrun.symm.trans hstatus

theorem raise (s : State) (e : MachineError) : AtMostOneError s (raise e s) := .inr ⟨e, rfl, rfl⟩

end AtMostOneError

/-- The end of the cycle leaves the message and the halt of a machine that has halted (R243). -/
theorem endCycle_of_halted {s : State} {code : Nat} (h : s.status = .halted code) :
    (endCycle s).stderr = s.stderr ∧ (endCycle s).status = s.status := by
  have hcheck : checkInvariants s = s := by simp [checkInvariants, h]
  rw [endCycle_eq, hcheck]
  exact ⟨rfl, rfl⟩

/-- A step ends in at most one error, or it is `EXIT`, which halts with code 0 and no error (R240). -/
theorem step_ends {s t : State} (h : step s = .next t) :
    AtMostOneError s t ∨
    (t.status = .halted 0 ∧ t.stderr = s.stderr ∧ ∃ w, fetch s = .ok w ∧ decode w = .ok .exit) := by
  obtain ⟨-, ⟨e, -, rfl⟩ | ⟨w, hf, ⟨e, -, rfl⟩ | ⟨i, u, hd, hexec, rfl⟩⟩⟩ := step_cases h
  · exact .inl (AtMostOneError.raise s e).traceAfter
  · exact .inl ((AtMostOneError.raise _ _).after (QuietUpdate.advance s w)).traceAfter
  · have hbefore := (QuietUpdate.advance s w).trans (QuietUpdate.traceInstruction s.pc i _)
    by_cases hexit : i = .exit
    · subst hexit
      cases hexec
      obtain ⟨hstderr, hstatus⟩ := endCycle_of_halted (haltNormally_status _)
      exact .inr ⟨hstatus, hstderr.trans hbefore.stderr, w, hf, hd⟩
    · exact .inl ((exec_atMostOneError hexit hexec).after hbefore).checkInvariants.traceAfter

/-- Settles O12: only a running machine steps, and the step that halts it ends in one of two ways. -/
theorem theMachineHaltsInExactlyTwoWays : Obligations.TheMachineHaltsInExactlyTwoWays := by
  refine ⟨fun s t code hhalted h => ?_, fun s t code h hcode => ?_⟩
  · obtain ⟨hrun, -⟩ := step_cases h
    cases hrun.symm.trans hhalted
  · obtain ⟨hrun, -⟩ := step_cases h
    rcases step_ends h with (⟨-, hstatus⟩ | ⟨e, hstderr, hstatus⟩) | ⟨hstatus, hstderr, hexit⟩
    · cases hcode.symm.trans (hstatus.trans hrun)
    · cases hcode.symm.trans hstatus
      exact .inr ⟨Parameters.default_allowed.errorNonzero, e, hstderr⟩
    · cases hcode.symm.trans hstatus
      exact .inl ⟨rfl, hstderr, hexit⟩

end Sys2Proof.Machine
end

