-- ==== Sys2Proof/Proofs/Starting.lean ====
section
/-! SUPPORT. Starting the VM on a file: what a load condition refuses, the bytes of a file and of its words, and the `-p`
listing (spec R226, R270 to R279); statement O16. -/

namespace Sys2Proof.Machine

/-! ## A file that is refused -/

/-- A `LoadError` leaves the blank state, halted: it is sound, and nothing is on `stdout` (R276). -/
theorem loadFailure_refuses (c : LoadCondition) (input : List Byte) :
    (loadFailure c input).Sound ∧ (loadFailure c input).status = .halted Params.errorExitCode ∧
    (loadFailure c input).stderr = [.loadError c] ∧ (loadFailure c input).stdout = [] :=
  ⟨⟨Memory.wf_nil, rfl, nofun⟩, rfl, rfl, rfl⟩

/-- A record that breaks a load condition is refused, with `-p` or without (R276). -/
theorem start_refused {b : Bof} {c : LoadCondition} (h : firstUnmet b = some c) (input : List Byte) :
    start b input = loadFailure c input ∧ startListing b input = loadFailure c input := by
  rw [start, startListing, h]
  exact ⟨rfl, rfl⟩

/-- A file of which no record is made is refused, with `-p` or without (R276). -/
theorem startFile_refused {file : Option (List Byte)} {c : LoadCondition} (h : Bof.ofFile file = .error c)
    (input : List Byte) :
    startFile file input = loadFailure c input ∧ startFileListing file input = loadFailure c input := by
  rw [startFile, startFileListing, h]
  exact ⟨rfl, rfl⟩

/-- A file of which a record is made is started as that record, with `-p` or without (R270, R279). -/
theorem startFile_read {file : Option (List Byte)} {b : Bof} (h : Bof.ofFile file = .ok b) (input : List Byte) :
    startFile file input = start b input ∧ startFileListing file input = startListing b input := by
  rw [startFile, startFileListing, h]
  exact ⟨rfl, rfl⟩

/-! ## A file that is loaded -/

/-- A file that meets the load conditions is loaded into a sound state (R270 step 8, R275). -/
theorem load_sound {b : Bof} (input : List Byte) (h : firstUnmet b = none) : (load b input).Sound := by
  obtain ⟨-, -, hbelow, hfit⟩ := sections_of_firstUnmet h
  refine ⟨?memory, rfl, fun _ => firstViolated_load input h⟩
  case memory =>
    have htext : 0 + b.text.length ≤ Config.memorySize := by simp only [Config.memorySize]; omega
    exact Memory.wf_writeBytes _ (Memory.wf_writeBytes _ Memory.wf_nil htext) hfit

/-- The block traced at the start breaks nothing (R224). -/
theorem start_sound {b : Bof} (input : List Byte) (h : firstUnmet b = none) :
    (start b input).Sound ∧ (start b input).status = .running := by
  obtain ⟨hmem, hzero, hboundary⟩ := load_sound input h
  rw [start_eq input h]
  exact ⟨⟨hmem, hzero, fun _ => (firstViolated_congr rfl rfl).trans (hboundary rfl)⟩, rfl⟩

/-- The `-p` start is the load, the listing and the normal end (R226, R279). -/
theorem startListing_eq {b : Bof} (input : List Byte) (h : firstUnmet b = none) :
    startListing b input = { load b input with stdout := [listing b], status := .halted 0 } := by
  rw [startListing, h]
  rfl

/-! ## The bytes of a file -/

/-- A word is made of its own four bytes (R52). -/
theorem wordOfBytes_byteOfWord (v : Word) :
    wordOfBytes (byteOfWord 0 v) (byteOfWord 1 v) (byteOfWord 2 v) (byteOfWord 3 v) = v :=
  eq_of_byteOfWord_eq fun _ hk => byteOfWord_wordOfBytes (fun j => byteOfWord j v) hk

/-- A word written at the head of bytes is taken from them (R272). -/
theorem takeWord_bytesOfWord (v : Word) (rest : List Byte) : takeWord (bytesOfWord v ++ rest) = some (v, rest) :=
  congrArg (fun w => some (w, rest)) (wordOfBytes_byteOfWord v)

/-- A word taken from bytes leaves four fewer. -/
theorem length_of_takeWord {bs : List Byte} {r : Word × List Byte} (h : takeWord bs = some r) :
    bs.length = r.2.length + 4 := by
  unfold takeWord at h
  split at h
  · cases h
    rfl
  · cases h

/-- A header is its six words or no header (R271). -/
theorem parseHeader_short {bs : List Byte} (h : bs.length < 24) : parseHeader bs = none := by
  refine Option.eq_none_iff_forall_ne_some.mpr fun b hb => ?_
  simp only [parseHeader, Parameters.default_bofWord, Option.bind_eq_bind, Option.bind_eq_some_iff] at hb
  obtain ⟨r1, h1, r2, h2, r3, h3, r4, h4, r5, h5, r6, h6, -⟩ := hb
  have hlength : bs.length = r6.2.length + 4 + 4 + 4 + 4 + 4 + 4 := by
    rw [length_of_takeWord h1, length_of_takeWord h2, length_of_takeWord h3, length_of_takeWord h4,
      length_of_takeWord h5, length_of_takeWord h6]
  omega

/-- Bytes that do not begin with the magic bytes are no object file (L1). -/
theorem Bof.parse_noMagic {bs : List Byte} (h : bs.take 4 ≠ magicBytes) : Bof.parse bs = .error .magic :=
  if_pos h

/-- Bytes too few for a header are no object file (L8). -/
theorem Bof.parse_short {bs : List Byte} (hmagic : bs.take 4 = magicBytes) (h : bs.length < 28) :
    Bof.parse bs = .error .fileLength := by
  have hheader : parseHeader (bs.drop 4) = none := parseHeader_short (by rw [List.length_drop]; omega)
  rw [Bof.parse, if_neg (not_not_intro hmagic), hheader]

/-- A header and the sections it gives the lengths of are read as they were written (R271, R272). -/
theorem Bof.parse_written (b : Bof) (after : List Byte) (htext : b.text.length = u32 b.textLength)
    (hdata : b.data.length = u32 b.intsLength + u32 b.floatsLength) :
    Bof.parse (magicBytes ++ (bytesOfWord b.textStart ++ (bytesOfWord b.textLength ++ (bytesOfWord b.dataStart ++
      (bytesOfWord b.intsLength ++ (bytesOfWord b.floatsLength ++ (bytesOfWord b.stackBottom ++
        (b.text ++ (b.data ++ after))))))))) = .ok b := by
  rw [Bof.parse_of_bofWord (takeWord_bytesOfWord _ _) (takeWord_bytesOfWord _ _) (takeWord_bytesOfWord _ _)
    (takeWord_bytesOfWord _ _) (takeWord_bytesOfWord _ _) (takeWord_bytesOfWord _ _),
    List.take_left' htext, List.drop_left' htext, List.take_left' hdata]

/-! ## The listing -/

/-- The listing of a text of instructions names each at its address (R96, R226). -/
theorem listText_encode {is : List Instr} (h : ∀ i ∈ is, i.WellFormed = true) (k : Nat) :
    listText (4 * k) (is.flatMap fun i => bytesOfWord (encode i)) =
      (is.zipIdx k).map fun ik => { addr := 4 * ik.2, word := encode ik.1, instr := some ik.1 } := by
  induction is generalizing k with
  | nil => rfl
  | cons i is ih =>
    obtain ⟨hi, his⟩ := List.forall_mem_cons.mp h
    have hdecode : decodeWith fieldOrder (encode i) = .ok i := decodeOfEncodeIsTheInstruction i hi
    rw [List.flatMap_cons, List.zipIdx_cons, List.map_cons, ← ih his (k + 1), bytesOfWord]
    simp only [List.cons_append, List.nil_append, listText, wordOfBytes_byteOfWord, Parameters.default_fieldOrder,
      hdecode, Except.toOption, Nat.mul_add]

/-- A text of instructions without data is listed as the header line and a line for each (R96, Figure 5). -/
theorem startListing_stdoutBytes {b : Bof} {is : List Instr} (input : List Byte) (h : firstUnmet b = none)
    (his : ∀ i ∈ is, i.WellFormed = true) (htext : b.text = is.flatMap fun i => bytesOfWord (encode i))
    (hdata : b.data = []) :
    (startListing b input).stdoutBytes =
      asmLine listingHeader ++ is.zipIdx.flatMap fun ik => asmLine (listingLine (4 * ik.2) ik.1) := by
  have hlines := listText_encode his 0
  rw [← htext] at hlines
  rw [startListing_eq input h, listing, hlines, hdata]
  simp [State.stdoutBytes, listingBytes, List.flatMap_map]

/-- Settles O16: a record or a file's bytes are refused, or loaded and started, or loaded and listed. -/
theorem startIsSoundOrRefusesTheFile : Obligations.StartIsSoundOrRefusesTheFile := by
  refine ⟨fun b input => ?record, fun file input c hfile => ?refused, fun b after input htext hdata file hfile => ?read,
    fun b input is h => ⟨⟨_, startListing_eq input h⟩, fun his => startListing_stdoutBytes input h his⟩⟩
  case record =>
    cases hunmet : firstUnmet b with
    | none =>
      obtain ⟨hsound, hrun⟩ := start_sound input hunmet
      exact ⟨hsound, fun _ => hrun, nofun⟩
    | some c =>
      obtain ⟨hstart, hlisting⟩ := start_refused hunmet input
      obtain ⟨hsound, hstatus, hstderr, hstdout⟩ := loadFailure_refuses c input
      rw [hstart, hlisting]
      refine ⟨hsound, nofun, fun c' hc => ?_⟩
      cases hc
      exact ⟨hstatus, hstderr, hstdout, rfl⟩
  case refused =>
    have hnone : Bof.ofFile file = .error c := by
      rcases hfile with ⟨rfl, rfl⟩ | ⟨bs, rfl, hmagic, rfl⟩ | ⟨bs, rfl, hmagic, hshort, rfl⟩
      · rfl
      · exact Bof.parse_noMagic hmagic
      · exact Bof.parse_short hmagic hshort
    obtain ⟨hstart, hlisting⟩ := startFile_refused hnone input
    obtain ⟨hsound, hrefuses⟩ := loadFailure_refuses c input
    rw [hstart, hlisting]
    exact ⟨hsound, rfl, hrefuses⟩
  case read =>
    refine startFile_read ?_ input
    rw [hfile]
    simp only [List.append_assoc]
    exact Bof.parse_written b after htext hdata

end Sys2Proof.Machine
end
